-- ==== Sys2Proof/Word.lean ====
section
/-! DEFINITION. The word types of the block: a data byte (8 bits) and a half word (16 bits), 00_scope.md R9. -/

namespace Sys2Proof

/-- A data byte, 8 bits (R9). -/
abbrev Byte := BitVec 8

/-- A 16-bit quantity: `rlen`, `rcount`, `rx_cur`, `frame_len`, the transport length field (R9). -/
abbrev Half := BitVec 16

/-- An 11-bit word of the EV or BC port: code in bits 10:8, data in bits 7:0 (R96, R99). -/
abbrev PortWord := BitVec 11

end Sys2Proof
end

