-- ==== Sys2Proof/Syntax.lean ====
section
/-! DEFINITION. The block's operations, one constructor per mnemonic of spec/opcode_table.json (00_scope.md R13), with
their decoded operands; and the words the two input ports carry. -/

namespace Sys2Proof

/-- The requested direction of a transaction, 1 bit: 0 = write, 1 = read (10_state.md R22). -/
inductive Dir where
  | write
  | read
deriving DecidableEq, Repr

/-- A descriptor: one bus transaction (R22, R91). `wlen` is not stored twice: it is the length of `wdata`, which 8 bits can
hold (R9, log entry 16); a descriptor with more write bytes cannot be built. -/
structure Desc where
  /-- The target address. -/
  addr : BitVec 7
  /-- The requested direction, used only when there is nothing to write (R171). -/
  dir : Dir
  /-- The number of bytes to receive. -/
  rlen : Half
  /-- The bytes to transmit, `wdata[0]` first. -/
  wdata : List Byte
  /-- `wlen` has 8 bits (R9). -/
  wlenFits : wdata.length ≤ 255 := by decide
deriving DecidableEq, Repr

/-- `wlen`, 8 bits: the number of valid bytes of `wdata` (R9, R22). -/
def Desc.wlen (d : Desc) : Byte := BitVec.ofNat 8 d.wdata.length

/-- The descriptor all of whose fields are 0: what a pool slot nothing has written reads as (R50, log entry 5). -/
def Desc.zero : Desc := { addr := 0, dir := .write, rlen := 0, wdata := [] }

/-- The operations of the block (R13). The data bits an encoding ignores (R104, R107) are no operands. -/
inductive Instr where
  -- host commands (30_encoding.md R105)
  | nop
  | enq (d : Desc)
  | regcb (addr : BitVec 7) (kind : BitVec 2)
  | awaitSet
  | size
  | status
  | reset
  /-- Opcodes `0x07` to `0xFF`, the six HC_RESERVED rows (log entry 20). -/
  | hcReserved (opcode : Byte)
  -- completion events (R97)
  | evStart
  | evTxAck
  | evTxNack
  | evRx (b : Byte)
  | evStop
  /-- Event codes `0b110` and `0b111`. -/
  | evReserved (code : BitVec 3)
  -- bus commands: the emission of that word (R100, log entry 13)
  | bcNone
  | bcStart
  | bcTx (d : Byte)
  | bcRx
  | bcAckRx
  | bcNackStop
  | bcStop
  | bcReserved
  -- internal primitives (R121, log entry 14)
  | alloc
  | reclaim
  | push (slot : Nat)
  | deq
  | release (slot : Nat)
  | writeNext
  | beginRead
  | dispatch (addr : BitVec 7) (b : Byte) (remaining : Half)
  | shtpCb (b : Byte) (remaining : Half)
  | store (b : Byte)
  | deliver
deriving DecidableEq, Repr

/-- What an input port carries: a burst of host-command bytes (R90, R105) or one EV word (R96). -/
inductive InWord where
  | hc (bytes : List Byte)
  | ev (w : PortWord)
deriving DecidableEq, Repr

end Sys2Proof
end

