-- ==== Sys2Proof/Config.lean ====
section
/-! DEFINITION. What an implementation fixes (the OPEN parameters of 00_scope.md R6 to R8) and the values the spec
leaves free. The parameters are plain data that State carries, so that every statement about every state speaks of every
configuration (log entry 2); the free values are opaque constants, so that nothing can be proved of one. -/

namespace Sys2Proof

/-- The implementation parameters: `QCAP` (R6), `MAXW` (R7), `RXCAP` (R8). Their values are OPEN. -/
structure Config where
  /-- The largest number of queued transactions (R6). -/
  qcap : Nat
  /-- The capacity of a transaction's write-data buffer, in bytes (R7). -/
  maxw : Nat
  /-- The capacity of the receive buffer, in bytes (R8). -/
  rxcap : Nat
deriving DecidableEq, Repr

/-- The constraints R6 to R8 put on the parameters. -/
abbrev Config.Valid (c : Config) : Prop :=
  1 ≤ c.qcap ∧ 1 ≤ c.maxw ∧ c.maxw ≤ 255 ∧ 5 ≤ c.rxcap ∧ c.rxcap ≤ 32767

/-- `NSLOT = QCAP + 2`: the number of pool slots (R6). -/
def Config.nslot (c : Config) : Nat := c.qcap + 2

/-- The test configuration T of R10: `QCAP = 4`, `MAXW = 21`, `RXCAP = 32`. -/
def Config.testT : Config := { qcap := 4, maxw := 21, rxcap := 32 }

/-- DESIGN CHOICE (log entry 8). `zext_16(q_count)` (R140, R251) for a count that 16 bits cannot hold: R6 puts no upper
bound on `QCAP` and the spec states no result there. Free. -/
opaque Config.countBeyond16 : Nat → Half

/-- DESIGN CHOICE (log entry 9). `rcount + 1` (R185) at `rcount = 0xFFFF`: R32 excludes it, no rule states a result. Free. -/
opaque Config.rcountPastMax : Half

/-- DESIGN CHOICE (log entry 10). `rlen - rcount` (R186) where `rcount` is above `rlen`: R186 excludes it, no rule states a
result. Free, of the two operands. -/
opaque Config.remainingBelowZero : Half → Half → Half

end Sys2Proof
end

