-- ==== Sys2Proof/WellFormed.lean ====
section
/-! DEFINITION. Which operations are well formed: their operands are ones the encoding, or the caller of an internal
primitive, can give. -/

namespace Sys2Proof

/-- Well-formedness of an operation in configuration `c`. Every field of a descriptor has its width by its type, and every
bit pattern is accepted (30_encoding.md R93). -/
def Instr.wf (c : Config) : Instr → Bool
  | .enq _ => true
  | .hcReserved op => decide (7 ≤ op.toNat)          -- R105
  | .evReserved code => decide (6 ≤ code.toNat)      -- R97
  | .push slot => decide (slot < c.nslot)            -- a slot index, 10_state.md R21
  | .release slot => decide (slot < c.nslot)
  | .nop => true
  | .regcb _ _ => true
  | .awaitSet => true
  | .size => true
  | .status => true
  | .reset => true
  | .evStart => true
  | .evTxAck => true
  | .evTxNack => true
  | .evRx _ => true
  | .evStop => true
  | .bcNone => true
  | .bcStart => true
  | .bcTx _ => true
  | .bcRx => true
  | .bcAckRx => true
  | .bcNackStop => true
  | .bcStop => true
  | .bcReserved => true
  | .alloc => true
  | .reclaim => true
  | .deq => true
  | .writeNext => true
  | .beginRead => true
  | .dispatch _ _ _ => true
  | .shtpCb _ _ => true
  | .store _ => true
  | .deliver => true

end Sys2Proof
end

