-- ==== Sys2Proof/Decode.lean ====
section
/-! DEFINITION. The decoders of the three encoded formats (host command strings, EV words, BC words), total on any bits,
and the encoder written from the same tables (30_encoding.md R91 to R107). Internal primitives have no encoding (R121). -/

namespace Sys2Proof

/-- Why bits are no operation. -/
inductive DecodeError where
  /-- The bytes end inside a command (or there is none), R117. -/
  | incompleteCommand
  /-- EV code `0b000`: the port is idle (R97, R118). -/
  | noEvent
deriving DecidableEq, Repr

/-- The direction bit: 0 = write, 1 = read (R91, R94). -/
def Dir.bit : Dir → BitVec 1
  | .write => 0
  | .read => 1

/-- The direction a bit stands for. -/
def Dir.ofBit (b : BitVec 1) : Dir := if b = 0 then .write else .read

/-- A 16-bit value from its low and its high byte: little-endian (20_memory.md R65). -/
def halfOfBytes (lo hi : Byte) : Half := hi ++ lo

/-- The low byte of a 16-bit value. -/
def lowByte (h : Half) : Byte := h.extractLsb' 0 8

/-- The high byte of a 16-bit value. -/
def highByte (h : Half) : Byte := h.extractLsb' 8 8

/-! ### Host commands -/

/-- The write bytes taken from a DESC are as many as one byte can say. -/
theorem take_wlen_fits (n : Byte) (bytes : List Byte) : (bytes.take n.toNat).length ≤ 255 := by
  have := n.isLt
  simp only [List.length_take]
  omega

/-- The operands of `ENQ`, a DESC (R91, R92): as many write bytes as byte 1 says, before any clamp. -/
def decodeEnq : List Byte → Except DecodeError (Instr × List Byte)
  | b0 :: b1 :: b2 :: b3 :: rest =>
    if b1.toNat ≤ rest.length then
      .ok (.enq { addr := b0.extractLsb' 1 7
                  dir := Dir.ofBit (b0.extractLsb' 0 1)
                  rlen := halfOfBytes b2 b3
                  wdata := rest.take b1.toNat
                  wlenFits := take_wlen_fits b1 rest }, rest.drop b1.toNat)
    else .error .incompleteCommand
  | _ => .error .incompleteCommand

/-- The operands of `REGCB` (R107): `aa[7]` and `kk[7:2]` are ignored. -/
def decodeRegcb : List Byte → Except DecodeError (Instr × List Byte)
  | aa :: kk :: rest => .ok (.regcb (aa.extractLsb' 0 7) (kk.extractLsb' 0 2), rest)
  | _ => .error .incompleteCommand

/-- One host command from the bytes of the HC port, and the bytes after it (R105, R117). -/
def decodeHc : List Byte → Except DecodeError (Instr × List Byte)
  | [] => .error .incompleteCommand
  | op :: rest =>
    if op = 0x00 then .ok (.nop, rest)
    else if op = 0x01 then decodeEnq rest
    else if op = 0x02 then decodeRegcb rest
    else if op = 0x03 then .ok (.awaitSet, rest)
    else if op = 0x04 then .ok (.size, rest)
    else if op = 0x05 then .ok (.status, rest)
    else if op = 0x06 then .ok (.reset, rest)
    else .ok (.hcReserved op, rest)

/-! ### EV and BC words -/

/-- `code`, bits 10:8 of a port word (R96, R99). -/
def wordCode (w : PortWord) : BitVec 3 := w.extractLsb' 8 3

/-- `data`, bits 7:0 of a port word (R96, R99). -/
def wordData (w : PortWord) : Byte := w.extractLsb' 0 8

/-- A port word from its code and its data. -/
def portWord (code : BitVec 3) (data : Byte) : PortWord := code ++ data

/-- The completion event an EV word is (R97); `data` is ignored but for `EV_RX` (R104). -/
def decodeEv (w : PortWord) : Except DecodeError Instr :=
  let code := wordCode w
  if code = 0b000 then .error .noEvent
  else if code = 0b001 then .ok .evStart
  else if code = 0b010 then .ok .evTxAck
  else if code = 0b011 then .ok .evTxNack
  else if code = 0b100 then .ok (.evRx (wordData w))
  else if code = 0b101 then .ok .evStop
  else .ok (.evReserved code)

/-- The bus command a BC word is (R100), as BUSCTL reads it; `data` is ignored but for `BC_TX` (R104). -/
def decodeBc (w : PortWord) : Instr :=
  let code := wordCode w
  if code = 0b000 then .bcNone
  else if code = 0b001 then .bcStart
  else if code = 0b010 then .bcTx (wordData w)
  else if code = 0b011 then .bcRx
  else if code = 0b100 then .bcAckRx
  else if code = 0b101 then .bcNackStop
  else if code = 0b110 then .bcStop
  else .bcReserved

/-- One operation from what an input port carries, and the host bytes after it. -/
def decodeIn : InWord → Except DecodeError (Instr × List Byte)
  | .hc bytes => decodeHc bytes
  | .ev w => (decodeEv w).map (fun i => (i, []))

/-! ### The encoder -/

/-- The DESC bytes of a descriptor (R91). -/
def descBytes (d : Desc) : List Byte :=
  (d.addr ++ d.dir.bit) :: d.wlen :: lowByte d.rlen :: highByte d.rlen :: d.wdata

/-- The input-port encoding of a host command or a completion event; none for the rest. Ignored bits are written 0. -/
def encodeIn : Instr → Option InWord
  | .nop => some (.hc [0x00])
  | .enq d => some (.hc (0x01 :: descBytes d))
  | .regcb addr kind => some (.hc [0x02, 0#1 ++ addr, 0#6 ++ kind])
  | .awaitSet => some (.hc [0x03])
  | .size => some (.hc [0x04])
  | .status => some (.hc [0x05])
  | .reset => some (.hc [0x06])
  | .hcReserved op => some (.hc [op])
  | .evStart => some (.ev (portWord 0b001 0))
  | .evTxAck => some (.ev (portWord 0b010 0))
  | .evTxNack => some (.ev (portWord 0b011 0))
  | .evRx b => some (.ev (portWord 0b100 b))
  | .evStop => some (.ev (portWord 0b101 0))
  | .evReserved code => some (.ev (portWord code 0))
  | .bcNone => none
  | .bcStart => none
  | .bcTx _ => none
  | .bcRx => none
  | .bcAckRx => none
  | .bcNackStop => none
  | .bcStop => none
  | .bcReserved => none
  | .alloc => none
  | .reclaim => none
  | .push _ => none
  | .deq => none
  | .release _ => none
  | .writeNext => none
  | .beginRead => none
  | .dispatch _ _ _ => none
  | .shtpCb _ _ => none
  | .store _ => none
  | .deliver => none

/-- The BC word of a bus command; none for the rest. `data` is `0x00` but for `BC_TX` (R99). -/
def encodeBc : Instr → Option PortWord
  | .bcNone => some (portWord 0b000 0)
  | .bcStart => some (portWord 0b001 0)
  | .bcTx d => some (portWord 0b010 d)
  | .bcRx => some (portWord 0b011 0)
  | .bcAckRx => some (portWord 0b100 0)
  | .bcNackStop => some (portWord 0b101 0)
  | .bcStop => some (portWord 0b110 0)
  | .bcReserved => some (portWord 0b111 0)
  | .nop => none
  | .enq _ => none
  | .regcb _ _ => none
  | .awaitSet => none
  | .size => none
  | .status => none
  | .reset => none
  | .hcReserved _ => none
  | .evStart => none
  | .evTxAck => none
  | .evTxNack => none
  | .evRx _ => none
  | .evStop => none
  | .evReserved _ => none
  | .alloc => none
  | .reclaim => none
  | .push _ => none
  | .deq => none
  | .release _ => none
  | .writeNext => none
  | .beginRead => none
  | .dispatch _ _ _ => none
  | .shtpCb _ _ => none
  | .store _ => none
  | .deliver => none

/-! ### Words of the opcode table -/

/-- The length in bytes of the host command that begins these bytes (R117). -/
def hcLength : List Byte → Nat
  | op :: _ :: wlen :: _ =>
    if op = 0x01 then 5 + wlen.toNat else if op = 0x02 then 3 else 1
  | _ => 1

/-- The longest `ENQ` string a decoder can read: five bytes and 255 write bytes (R92). -/
def longestCommand : Nat := 260

/-- The bytes of `w`, least significant first, `n` of them. -/
def tableBytes (n w : Nat) : List Byte :=
  (List.range n).map fun k => BitVec.ofNat 8 (w / 2 ^ (8 * k))

/-- Whether a table row of this many bits is an 11-bit port word (two whole bytes) rather than a host command. -/
def isPortRow (nbits : Nat) : Bool := decide (nbits = 11) || decide (nbits = 16)

/-- What the input port carries for the instruction whose bits are `w`: 11-bit rows on the EV port, the others on the HC
port, the command's operand bytes zero where the table gives none (log entry 15). -/
def tableInWord (nbits w : Nat) : InWord :=
  if isPortRow nbits then .ev (BitVec.ofNat 11 w)
  else
    let bytes := tableBytes ((nbits + 7) / 8) w ++ List.replicate longestCommand 0
    .hc (bytes.take (hcLength bytes))

/-- The operation the decoder reads from an instruction whose bits are `w`. EV and BC words have the same bits (R96, R99);
a word is read as the EV port reads it, and the one the EV port takes for no event, code 0, as the BC port reads it (log
entry 15). -/
def decodeTableWord (nbits w : Nat) : Option Instr :=
  match decodeIn (tableInWord nbits w) with
  | .ok (i, _) => some i
  | .error .noEvent => some (decodeBc (BitVec.ofNat 11 w))
  | .error .incompleteCommand => none

end Sys2Proof
end

