-- ==== Sys2Proof/Machine/State.lean ====
section
/-! DEFINITION. The state record of the block (10_state.md R20), what a step puts out (00_scope.md R16), the reasons a step
stops, and the state after reset (R50). -/

namespace Sys2Proof.Machine

/-! ### What the fields hold -/

/-- The engine's stage (R27). The codes 5 to 7 are never produced and have no constructor (log entry 17). -/
inductive Stage where
  | idle
  | starting
  | addressPhase
  | dataPhase
  | stopping
deriving DecidableEq, Repr

/-- The sub-phase of DataPhase, and in AddressPhase the direction of the address byte (R28). -/
inductive SubPhase where
  | write
  | reStart
  | reAddr
  | read
deriving DecidableEq, Repr

/-- The kinds a callback-table entry can hold (R34); 2 and 3 are reserved and never stored. -/
inductive Kind where
  | none
  | shtp
deriving DecidableEq, Repr

/-- The error kinds with a sticky flag in `err` (R47, 60_exceptions.md R301). -/
inductive ErrKind where
  | qfull
  | reclaim
  | poolFatal
  | nack
  | ovf
  | proto
  | desc
deriving DecidableEq, Repr

/-- A storage array of 20_memory.md R60 as the list of its written elements: keys strictly rising, no entry equal to what an
unwritten element reads as. -/
abbrev Table (α : Type) := List (Nat × α)

/-- The receive buffer's bytes, in the same form. -/
abbrev Memory := List Host.Cell

/-! ### What a step puts out -/

/-- A bus command (30_encoding.md R100). Code `0b111` is never emitted and has no constructor. -/
inductive BusCommand where
  | none
  | start
  | tx (d : Byte)
  | rx
  | ackRx
  | nackStop
  | stop
deriving DecidableEq, Repr

/-- The answer to a host command (R116). -/
inductive Response where
  /-- `ENQ`: accepted or declined, 1 bit. -/
  | accepted (b : Bool)
  /-- `SIZE`: the number of queued transactions. -/
  | count (n : Half)
  /-- `STATUS`: the status word. -/
  | word (w : BitVec 32)
deriving DecidableEq, Repr

/-- A delivered frame (R115): its length and its bytes. -/
structure Frame where
  n : Half
  bytes : List Byte
deriving DecidableEq, Repr

/-- What an internal primitive returns to its caller (log entry 14). -/
inductive PrimResult where
  /-- `ALLOC`, `DEQ`: an optional slot. -/
  | slot (s : Option Nat)
  /-- `DISPATCH`, `SHTP_CB`: the bytes to add to the read length. -/
  | add (n : Half)
deriving DecidableEq, Repr

/-- The output of one step: the BC word, the response, the frame (R16), the answers to SINK's nested `ENQ`s (R236), and what
an internal primitive run by itself returns (log entries 4, 14). -/
@[ext]
structure Output where
  bc : BusCommand
  resp : Option Response
  frame : Option Frame
  sinkResp : List Bool
  ret : Option PrimResult
deriving DecidableEq, Repr

/-- The output of a step that emits, answers and delivers nothing: `BC_NONE` (R161). -/
def Output.quiet : Output :=
  { bc := .none, resp := none, frame := none, sinkResp := [], ret := none }

/-! ### The state -/

/-- The state of the block (R20), then the model's own fields. -/
@[ext]
structure State where
  /-- The descriptors of the pool slots (R21). -/
  pool : Table Desc
  /-- The used/free bitmap (R23). -/
  used : Table Bool
  /-- The ring of queued slot indices (R24). -/
  fifo : Table Nat
  /-- `q_head`, the ring position of the oldest entry (R24). -/
  qHead : Nat
  /-- `q_count`, the number of queued entries (R24). -/
  qCount : Nat
  /-- The engine's stage (R27). -/
  stage : Stage
  /-- The sub-phase (R28). -/
  sub : SubPhase
  /-- The slot of the active transaction (R30). -/
  active : Option Nat
  /-- Write bytes handed to the bus controller (R31). -/
  widx : BitVec 8
  /-- Bytes received in the read sub-phase (R32). -/
  rcount : Half
  /-- The callback table (R34). -/
  cbtab : Table Kind
  /-- The receive buffer (R35). -/
  rxbuf : Memory
  /-- `rx_cur`, its write cursor (R36). -/
  rxCur : Half
  /-- `xf_idx`, the position in the current transfer, saturating at 4 (R37). -/
  xfIdx : Fin 5
  /-- The latch of a transfer's first byte (R38). -/
  h0 : Byte
  /-- Append mode of the current transfer (R39). -/
  app : Bool
  /-- `frame_len`, the cursor value at which the frame is complete (R40). -/
  frameLen : Half
  /-- The awaiting-response flag (R41). -/
  awaiting : Bool
  /-- The sticky error flags (R47). -/
  err : BitVec 8
  /-- Model's own: the configuration, which never changes (log entry 2). -/
  cfg : Config
  /-- Model's own: the operations raised by the environment and not yet consumed, oldest first (log entry 1). -/
  inbox : List InWord
  /-- Model's own: SINK's answers to the next delivered frames, in order (log entry 3). -/
  sinkAnswers : List (List Desc)
  /-- Model's own: the output of the last step (log entry 4). -/
  out : Output
deriving DecidableEq, Repr

/-! ### Why a step stops -/

/-- Faults. Each can arise only in a state that breaks the ranges of 10_state.md (log entry 11); all are SAFE: the model
stops where the spec has no element to read. -/
inductive Fault where
  /-- Raised by `EV_START`, `EV_TX_ACK`, `EV_RX`, `EV_STOP`, `RELEASE`, `WRITE_NEXT`, `BEGIN_READ`: the slot is not one of
  `0 .. NSLOT-1` (R21). Safe. -/
  | slotOutOfRange (slot : Nat)
  /-- Raised by `DELIVER` (and `DISPATCH`, `SHTP_CB`, `EV_RX` through it): the cursor is above `RXCAP`, so the frame would
  be read past the receive buffer (R36, R61). Safe. -/
  | cursorOutOfRange (rxCur : Half)
deriving DecidableEq, Repr

/-- Refusals. -/
inductive Refusal where
  /-- Raised by `exec`'s arm of an instruction that has no meaning in the model. Safe. -/
  | notModelled (mnemonic : String)
  /-- Raised by `BC_RESERVED`: bus command code `0b111` is reserved and never emitted (R100, log entry 12). Safe. -/
  | reservedBusCommand
  /-- Raised by the fetch: the host port's bytes end inside a command (R117, log entry 7). Safe. -/
  | incompleteCommand
deriving DecidableEq, Repr

/-- The outcome of a step of this machine. -/
abbrev Result := Host.Outcome State Fault Refusal

/-! ### Reset -/

/-- The state after reset in configuration `c` (R50, R341); nothing pending, nothing put out. -/
def State.resetWith (c : Config) : State :=
  { pool := []
    used := []
    fifo := []
    qHead := 0
    qCount := 0
    stage := .idle
    sub := .write
    active := none
    widx := 0
    rcount := 0
    cbtab := []
    rxbuf := []
    rxCur := 0
    xfIdx := 0
    h0 := 0
    app := false
    frameLen := 0
    awaiting := false
    err := 0
    cfg := c
    inbox := []
    sinkAnswers := []
    out := Output.quiet }

/-- The machine right after reset (R50), in the test configuration T of R10: the sizes are OPEN (log entry 2). -/
def State.reset : State := State.resetWith Config.testT

end Sys2Proof.Machine
end

