-- ==== Sys2Proof/Machine/Operands.lean ====
section
/-! DEFINITION. How operands are assembled: the address byte, the direction of a transaction, the transport header, the
counters of the read sub-phase, and the words the block puts out. Lengths are computed as natural numbers and narrowed once. -/

namespace Sys2Proof.Machine

/-- `sat16(n) = min(n, 0xFFFF)` (00_scope.md R14). -/
def sat16 (n : Nat) : Half := BitVec.ofNat 16 (min n 0xFFFF)

/-- `zext_16` of a count (R140, R251); free where 16 bits cannot hold it (log entry 8). -/
def zext16 (n : Nat) : Half := if n < 65536 then BitVec.ofNat 16 n else Config.countBeyond16 n

/-! ### Transactions -/

/-- The address byte `{addr[6:0], rw}` (30_encoding.md R94). -/
def addrByte (addr : BitVec 7) (rw : Dir) : Byte := addr ++ rw.bit

/-- The direction of a transaction's first address byte: write if there is something to write, else `dir` (R171). -/
def firstDir (d : Desc) : Dir := if 0 < d.wlen then .write else d.dir

/-- The sub-phase that records the direction of an address byte (R28, R170). -/
def subOfDir : Dir → SubPhase
  | .write => .write
  | .read => .read

/-- A descriptor with its first `n` write bytes, the others dropped (40_queue_ops.md R139). -/
def cutDesc (n : Nat) (d : Desc) : Desc :=
  { d with
    wdata := d.wdata.take n
    wlenFits := (List.length_take_le' n d.wdata).trans d.wlenFits }

/-- The descriptor as `ENQ` stores it: at most `MAXW` write bytes (R139). -/
def clampDesc (c : Config) (d : Desc) : Desc := if c.maxw < d.wlen.toNat then cutDesc c.maxw d else d

/-! ### The read sub-phase -/

/-- `rcount + 1` (R185); free at the largest value (R32, log entry 9). -/
def nextRcount (rcount : Half) : Half :=
  if rcount = 0xFFFF then Config.rcountPastMax else rcount + 1

/-- `bytes_remaining = rlen - rcount` (R186); free where it would be negative (log entry 10). -/
def bytesRemaining (rlen rcount : Half) : Half :=
  if rcount ≤ rlen then rlen - rcount else Config.remainingBelowZero rlen rcount

/-- The read length after a callback that asks for `add` more bytes: saturating (R187). -/
def extendRlen (rlen add : Half) : Half := sat16 (rlen.toNat + add.toNat)

/-! ### The transport header -/

/-- `raw = {byte1, byte0}` (R111). -/
def headerRaw (byte0 byte1 : Byte) : Half := halfOfBytes byte0 byte1

/-- `cont = raw[15]` (R111). -/
def headerCont (raw : Half) : Bool := raw.getLsbD 15

/-- `len = raw[14:0]` (R111). -/
def headerLen (raw : Half) : Nat := (raw.extractLsb' 0 15).toNat

/-- The length field after the clamp: a length above `RXCAP` becomes `RXCAP - 1` (42_dispatch_framing.md R226). -/
def clampLen (c : Config) (len : Nat) : Nat := if c.rxcap < len then c.rxcap - 1 else len

/-- The callback's contribution `len - 4`, 0 below 4 (R226). -/
def contribution (len : Nat) : Nat := if 4 ≤ len then len - 4 else 0

/-! ### Output words -/

/-- The BC word of a bus command (R99, R100). -/
def busWord : BusCommand → PortWord
  | .none => portWord 0b000 0
  | .start => portWord 0b001 0
  | .tx d => portWord 0b010 d
  | .rx => portWord 0b011 0
  | .ackRx => portWord 0b100 0
  | .nackStop => portWord 0b101 0
  | .stop => portWord 0b110 0

end Sys2Proof.Machine
end

