-- ==== Sys2Proof/Machine/Flags.lean ====
section
/-! DEFINITION. The sticky error flags (10_state.md R47) and the STATUS word (30_encoding.md R116). The block has no
arithmetic condition codes (R45). -/

namespace Sys2Proof.Machine

/-- The code of an error kind: its bit number in `err` (60_exceptions.md R301). -/
def errCode : ErrKind → Nat
  | .qfull => 0
  | .reclaim => 1
  | .poolFatal => 2
  | .nack => 3
  | .ovf => 4
  | .proto => 5
  | .desc => 6

/-- The one-bit mask of an error kind. -/
def errMask (k : ErrKind) : BitVec 8 := 1#8 <<< errCode k

/-- Whether the flag of a kind is set. -/
def flagSet (err : BitVec 8) (k : ErrKind) : Bool := err.getLsbD (errCode k)

/-- `err` as it is read: the reserved bit 7 reads 0 (R47, log entry 19). -/
def errRead (err : BitVec 8) : BitVec 8 := err &&& 0x7F

/-- The 3-bit code of a stage (R27). -/
def stageCode : Stage → BitVec 3
  | .idle => 0
  | .starting => 1
  | .addressPhase => 2
  | .dataPhase => 3
  | .stopping => 4

/-- The 2-bit code of a sub-phase (R28). -/
def subCode : SubPhase → BitVec 2
  | .write => 0
  | .reStart => 1
  | .reAddr => 2
  | .read => 3

/-- The status word `{q_count, err, 0, awaiting, active != none, sub, stage}` (R116, 43_host_system_ops.md R251). -/
def statusWord (s : State) : BitVec 32 :=
  zext16 s.qCount ++ errRead s.err ++ 0#1 ++ BitVec.ofBool s.awaiting ++ BitVec.ofBool s.active.isSome
    ++ subCode s.sub ++ stageCode s.stage

end Sys2Proof.Machine
end

