-- ==== Sys2Proof/Machine/Ops.lean ====
section
/-! DEFINITION. The named operations every meaning is written with: reading and writing an element of a storage array,
raising an error kind, emitting a bus command, answering a command. -/

namespace Sys2Proof.Machine

/-! ### Storage arrays (20_memory.md R60, R61) -/

/-- The element at index `i`; `d` is what an unwritten element reads as. -/
def tableGet {α : Type} (d : α) : Table α → Nat → α
  | [], _ => d
  | (k, v) :: rest, i => if k = i then v else tableGet d rest i

/-- Write the element at index `i`, keeping the canonical form. -/
def tableSet {α : Type} [DecidableEq α] (d : α) : Table α → Nat → α → Table α
  | [], i, v => if v = d then [] else [(i, v)]
  | (k, w) :: rest, i, v =>
    if i < k then (if v = d then (k, w) :: rest else (i, v) :: (k, w) :: rest)
    else if i = k then (if v = d then rest else (i, v) :: rest)
    else (k, w) :: tableSet d rest i v

/-- The canonical form: keys strictly rising from `lo`, no entry equal to `d`. -/
def tableWfFrom {α : Type} [DecidableEq α] (d : α) (lo : Nat) : Table α → Bool
  | [] => true
  | (k, v) :: rest => decide (lo ≤ k) && decide (v ≠ d) && tableWfFrom d (k + 1) rest

/-- The canonical form of an array. -/
def tableWf {α : Type} [DecidableEq α] (d : α) (t : Table α) : Bool := tableWfFrom d 0 t

/-- What a byte of the receive buffer that nothing has written reads as (R50, log entry 5). -/
def memoryDefault : Byte := 0

/-- The canonical form of the receive buffer's bytes. -/
def Memory.wf (m : Memory) : Bool := tableWf memoryDefault m

/-- The byte of the receive buffer at index `i`. -/
def Memory.read (m : Memory) (i : Nat) : Byte := tableGet memoryDefault m i

/-- Write the byte of the receive buffer at index `i`. -/
def Memory.write (m : Memory) (i : Nat) (b : Byte) : Memory := tableSet memoryDefault m i b

/-- The descriptor in slot `i` (10_state.md R21). -/
def poolAt (s : State) (i : Nat) : Desc := tableGet Desc.zero s.pool i

/-- Whether slot `i` is used (R23). -/
def usedAt (s : State) (i : Nat) : Bool := tableGet false s.used i

/-- The ring entry at position `i` (R24). -/
def fifoAt (s : State) (i : Nat) : Nat := tableGet 0 s.fifo i

/-- The callback kind of an address (R34). -/
def kindAt (s : State) (addr : BitVec 7) : Kind := tableGet Kind.none s.cbtab addr.toNat

/-- The byte of the receive buffer at index `i` (R35). -/
def rxAt (s : State) (i : Nat) : Byte := Memory.read s.rxbuf i

/-- Write the descriptor of slot `i`. -/
def State.setPool (s : State) (i : Nat) (d : Desc) : State := { s with pool := tableSet Desc.zero s.pool i d }

/-- Write the used bit of slot `i`. -/
def State.setUsed (s : State) (i : Nat) (b : Bool) : State := { s with used := tableSet false s.used i b }

/-- Write the ring entry at position `i`. -/
def State.setFifo (s : State) (i : Nat) (slot : Nat) : State := { s with fifo := tableSet 0 s.fifo i slot }

/-- Write the callback kind of an address. -/
def State.setKind (s : State) (addr : BitVec 7) (k : Kind) : State :=
  { s with cbtab := tableSet Kind.none s.cbtab addr.toNat k }

/-- Write the byte of the receive buffer at index `i`. -/
def State.setRx (s : State) (i : Nat) (b : Byte) : State := { s with rxbuf := Memory.write s.rxbuf i b }

/-- The descriptor of a pool slot; a slot outside `0 .. NSLOT-1` does not exist (R21, R61). -/
def readSlot (s : State) (i : Nat) : Except Fault Desc :=
  if i < s.cfg.nslot then .ok (poolAt s i) else .error (.slotOutOfRange i)

/-! ### Outputs -/

/-- A step begins with nothing put out (R16). -/
def State.beginStep (s : State) : State := { s with out := Output.quiet }

/-- `emit`: the step's bus command (00_scope.md R15). -/
def State.emit (s : State) (c : BusCommand) : State := { s with out := { s.out with bc := c } }

/-- `respond`: the step's answer (R15). -/
def State.respond (s : State) (r : Response) : State := { s with out := { s.out with resp := some r } }

/-- What an internal primitive returns (log entry 14). -/
def State.returnValue (s : State) (r : PrimResult) : State := { s with out := { s.out with ret := some r } }

/-! ### Exceptions

The spec's exceptions are its error kinds, and taking one is `raise`: set the sticky flag of the kind and go on with the
rule. No control transfer, nothing saved, nothing delivered, and no return (60_exceptions.md R300, R316, R317). -/

/-- `raise <Kind>` (R300). -/
def State.raise (s : State) (k : ErrKind) : State := { s with err := s.err ||| errMask k }

/-- An event the position does not expect: only `err.PROTO` (41_engine_events.md R195). -/
def unexpectedEvent (s : State) : State := s.raise .proto

/-- What a rule does with `t`, the descriptor of the active slot (41_engine_events.md, template). With no active transaction
there is no `t`: the block cannot handle the event and records it in `err.PROTO` (00_scope.md R16, as R175 and R185 write
out; log entry 28). -/
def withActive (f : Desc → State → State) (s : State) : Except Fault State :=
  match s.active with
  | none => .ok (unexpectedEvent s)
  | some i => (readSlot s i).map (fun t => f t s)

/-- The outcome of a computation that may find an element missing. -/
def outcomeOf : Except Fault State → Result
  | .ok s => .next s
  | .error f => .fault f

end Sys2Proof.Machine
end

