-- ==== Sys2Proof/Machine/BusCommands.lean ====
section
/-! DEFINITION. The bus commands as operations (41_engine_events.md R161 to R167): each is an output, so its meaning is that
the step's BC word is that command and that no field of the block changes (log entry 13). -/

namespace Sys2Proof.Machine

/-- A step whose whole effect is the bus command it emits. -/
def emitOnly (c : BusCommand) (s : State) : Result := .next (s.beginStep.emit c)

/-- `BC_NONE` (R161). -/
def execBcNone (s : State) : Result := emitOnly .none s

/-- `BC_START` (R162). -/
def execBcStart (s : State) : Result := emitOnly .start s

/-- `BC_TX(d)` (R163). -/
def execBcTx (d : Byte) (s : State) : Result := emitOnly (.tx d) s

/-- `BC_RX` (R164). -/
def execBcRx (s : State) : Result := emitOnly .rx s

/-- `BC_ACK_RX` (R165). -/
def execBcAckRx (s : State) : Result := emitOnly .ackRx s

/-- `BC_NACK_STOP` (R166). -/
def execBcNackStop (s : State) : Result := emitOnly .nackStop s

/-- `BC_STOP` (R167). -/
def execBcStop (s : State) : Result := emitOnly .stop s

/-- Bus command code `0b111`: reserved, never emitted (R100, R118). -/
def execBcReserved (_s : State) : Result := .refused .reservedBusCommand

end Sys2Proof.Machine
end

