-- ==== Sys2Proof/Machine/Queue.lean ====
section
/-! DEFINITION. The transaction queue and its pool (40_queue_ops.md): the five primitives, `ENQ` and `SIZE`. -/

namespace Sys2Proof.Machine

/-! ### Primitives -/

/-- `ALLOC`: the least free slot, now used (R131). -/
def alloc (s : State) : Option Nat × State :=
  match (List.range s.cfg.nslot).find? (fun i => !usedAt s i) with
  | some i => (some i, s.setUsed i true)
  | none => (none, s)

/-- `RECLAIM`: free every slot but the active one (R132). -/
def reclaim (s : State) : State :=
  State.raise
    { s with used := s.used.filter (fun e => decide (s.active = some e.1) || decide (s.cfg.nslot ≤ e.1)) } .reclaim

/-- The ring position after the newest entry (R133). -/
def tailPos (s : State) : Nat := (s.qHead + s.qCount) % s.cfg.qcap

/-- `PUSH(slot)`: append to the ring (R133). -/
def push (slot : Nat) (s : State) : State := { s.setFifo (tailPos s) slot with qCount := s.qCount + 1 }

/-- `DEQ`: take the oldest entry; its slot stays used (R134). -/
def deq (s : State) : Option Nat × State :=
  if s.qCount = 0 then (none, s)
  else (some (fifoAt s s.qHead), { s with qHead := (s.qHead + 1) % s.cfg.qcap, qCount := s.qCount - 1 })

/-- `RELEASE(slot)`: the slot is free (R135). -/
def release (slot : Nat) (s : State) : Except Fault State :=
  if slot < s.cfg.nslot then .ok (s.setUsed slot false) else .error (.slotOutOfRange slot)

/-! ### ENQ -/

/-- The idle kick: an engine found Idle starts (R141, line 8 of R136). -/
def idleKick (s : State) : State :=
  if s.stage = .idle then State.emit { s with stage := .starting } .start else s

/-- Lines 7 and 8 of R136: store the descriptor in its slot, queue the slot, kick an idle engine. -/
def acceptDesc (d : Desc) (slot : Nat) (s : State) : State := idleKick (push slot (s.setPool slot d))

/-- Line 3 of R136: an over-long write raises Desc (R139); the clamp itself is `clampDesc`. -/
def noteClamp (d : Desc) (s : State) : State := if s.cfg.maxw < d.wlen.toNat then s.raise .desc else s

/-- Lines 4 to 8 of R136, with the reclaim path (R132, R137, R145). -/
def allocAndAccept (d : Desc) (s : State) : Bool × State :=
  match alloc s with
  | (some slot, s1) => (true, acceptDesc d slot s1)
  | (none, s1) =>
    if s1.qCount = 0 then
      match alloc (reclaim s1) with
      | (some slot, s2) => (true, acceptDesc d slot s2)
      | (none, s2) => (false, s2.raise .poolFatal)
    else (false, s1)

/-- `ENQ(d) -> bool` (R136 to R139): the answer and the state after it. -/
def enqueue (d : Desc) (s : State) : Bool × State :=
  if flagSet s.err .poolFatal then (false, s)
  else if s.qCount = s.cfg.qcap then (false, s.raise .qfull)
  else allocAndAccept (clampDesc s.cfg d) (noteClamp d s)

/-- Several `ENQ`s in order, with their answers (42_dispatch_framing.md R236). -/
def enqueueAll : List Desc → State → List Bool × State
  | [], s => ([], s)
  | d :: ds, s =>
    let r := enqueue d s
    let rs := enqueueAll ds r.2
    (r.1 :: rs.1, rs.2)

/-! ### Meanings -/

/-- `ENQ` as a host command (R136). -/
def execEnq (d : Desc) (s : State) : Result :=
  let r := enqueue d s.beginStep
  .next (r.2.respond (.accepted r.1))

/-- `SIZE`: the number of queued transactions (R140). -/
def execSize (s : State) : Result := .next (s.beginStep.respond (.count (zext16 s.qCount)))

/-- `ALLOC` (R131). -/
def execAlloc (s : State) : Result :=
  let r := alloc s.beginStep
  .next (r.2.returnValue (.slot r.1))

/-- `RECLAIM` (R132). -/
def execReclaim (s : State) : Result := .next (reclaim s.beginStep)

/-- `PUSH(slot)` (R133); its caller has made sure that the queue has room (log entry 14). -/
def execPush (slot : Nat) (s : State) : Result := .next (push slot s.beginStep)

/-- `DEQ` (R134). -/
def execDeq (s : State) : Result :=
  let r := deq s.beginStep
  .next (r.2.returnValue (.slot r.1))

/-- `RELEASE(slot)` (R135). -/
def execRelease (slot : Nat) (s : State) : Result := outcomeOf (release slot s.beginStep)

end Sys2Proof.Machine
end

