-- ==== Sys2Proof/Machine/Framing.lean ====
section
/-! DEFINITION. Byte-event dispatch and the transport framing layer (42_dispatch_framing.md): `STORE`, `DELIVER`,
`SHTP_CB`, `DISPATCH`, and the host commands `REGCB` and `AWAIT_SET`. -/

namespace Sys2Proof.Machine

/-! ### STORE -/

/-- `STORE(b)`: write at the cursor while there is room, else drop the byte and raise FrameOverflow (R228). -/
def storeByte (b : Byte) (s : State) : State :=
  if s.rxCur.toNat < s.cfg.rxcap then { s.setRx s.rxCur.toNat b with rxCur := s.rxCur + 1 } else s.raise .ovf

/-! ### DELIVER -/

/-- The frame held: `(rx_cur, rxbuf[0 .. rx_cur-1])` (R115, R235). -/
def heldFrame (s : State) : Frame :=
  { n := s.rxCur, bytes := (List.range s.rxCur.toNat).map (rxAt s) }

/-- SINK's answer to the frame being delivered (R236, log entry 3). -/
def sinkAnswer (s : State) : List Desc := s.sinkAnswers.headD []

/-- The delivery: the frame goes out and SINK's answer is taken (R235). -/
def handOver (s : State) : State :=
  { s with sinkAnswers := s.sinkAnswers.tail, out := { s.out with frame := some (heldFrame s) } }

/-- After SINK has returned: its answers go back to it, the buffer is emptied, `awaiting` is cleared (R235 to R237). -/
def emptyBuffer (answers : List Bool) (s : State) : State :=
  { s with rxCur := 0, frameLen := 0, awaiting := false, out := { s.out with sinkResp := answers } }

/-- `DELIVER` (R235): hand over the frame, run SINK's `ENQ`s, empty the buffer. -/
def deliverFrame (s : State) : Except Fault State :=
  if s.rxCur.toNat ≤ s.cfg.rxcap then
    let r := enqueueAll (sinkAnswer s) (handOver s)
    .ok (emptyBuffer r.1 r.2)
  else .error (.cursorOutOfRange s.rxCur)

/-! ### SHTP_CB -/

/-- FrameOverflow for a claimed length above the buffer (R226). -/
def noteOverlong (len : Nat) (s : State) : State := if s.cfg.rxcap < len then s.raise .ovf else s

/-- Append mode: bytes are held and the header has the continuation flag (R224, R227). -/
def startAppend (contrib : Nat) (s : State) : State :=
  { s with app := true, frameLen := BitVec.ofNat 16 (min (s.rxCur.toNat + contrib) s.cfg.rxcap) }

/-- Fresh mode: empty the buffer, store the two length bytes as received (R224, R227, R232). -/
def startFresh (byte0 byte1 : Byte) (len : Nat) (s : State) : State :=
  { storeByte byte1 (storeByte byte0 { s with app := false, rxCur := 0 }) with frameLen := BitVec.ofNat 16 len }

/-- Byte 1 of a transfer: evaluate the length field (R224, R226, R227, R230). -/
def headerByte (b : Byte) (s : State) : Half × State :=
  let raw := headerRaw s.h0 b
  let len := clampLen s.cfg (headerLen raw)
  let contrib := contribution len
  let s1 := noteOverlong (headerLen raw) s
  (BitVec.ofNat 16 contrib,
    if headerCont raw && decide (0 < s.rxCur.toNat) then startAppend contrib s1 else startFresh s.h0 b len s1)

/-- The first part of `SHTP_CB` (R222): what byte number `xf_idx` of the transfer does, and the bytes asked for. -/
def transferByte (b : Byte) (s : State) : Half × State :=
  if s.xfIdx = 0 then (0, { s with h0 := b })
  else if s.xfIdx = 1 then headerByte b s
  else if s.xfIdx = 4 then (0, storeByte b s)
  else (0, if s.app then s else storeByte b s)

/-- `min(xf_idx + 1, 4)` (R222). -/
def nextIdx (i : Fin 5) : Fin 5 := if i = 4 then 4 else i + 1

/-- Whether the frame is complete at the end of a transfer: the length was seen in it and the cursor has reached
`frame_len` (R233). `i` is `xf_idx` before the byte. -/
def frameComplete (i : Fin 5) (s : State) : Bool := decide (1 ≤ i.val) && decide (s.frameLen ≤ s.rxCur)

/-- The end of a transfer: deliver a complete frame, and the next byte is byte 0 (R233, R234). -/
def endTransfer (i : Fin 5) (s : State) : Except Fault State :=
  if frameComplete i s then (deliverFrame s).map (fun s1 => { s1 with xfIdx := 0 }) else .ok { s with xfIdx := 0 }

/-- `SHTP_CB(b, remaining) -> add` (R222). -/
def shtpCallback (b : Byte) (remaining : Half) (s : State) : Except Fault (Half × State) :=
  let r := transferByte b s
  let s1 := { r.2 with xfIdx := nextIdx s.xfIdx }
  if remaining = 0 ∧ r.1 = 0 then (endTransfer s.xfIdx s1).map (fun s2 => (r.1, s2)) else .ok (r.1, s1)

/-! ### DISPATCH -/

/-- `DISPATCH(addr, b, remaining) -> add` (R213, R214). -/
def dispatchByte (addr : BitVec 7) (b : Byte) (remaining : Half) (s : State) : Except Fault (Half × State) :=
  match kindAt s addr with
  | .none => .ok (0, s)
  | .shtp => shtpCallback b remaining s

/-! ### Meanings -/

/-- The outcome of a primitive that returns a number of bytes. -/
def outcomeOfAdd : Except Fault (Half × State) → Result
  | .ok r => .next (r.2.returnValue (.add r.1))
  | .error f => .fault f

/-- `STORE(b)` (R228). -/
def execStore (b : Byte) (s : State) : Result := .next (storeByte b s.beginStep)

/-- `DELIVER` (R235). -/
def execDeliver (s : State) : Result := outcomeOf (deliverFrame s.beginStep)

/-- `SHTP_CB(b, remaining)` (R222). -/
def execShtpCb (b : Byte) (remaining : Half) (s : State) : Result := outcomeOfAdd (shtpCallback b remaining s.beginStep)

/-- `DISPATCH(addr, b, remaining)` (R213). -/
def execDispatch (addr : BitVec 7) (b : Byte) (remaining : Half) (s : State) : Result :=
  outcomeOfAdd (dispatchByte addr b remaining s.beginStep)

/-- `REGCB(addr, kind)`: register or unregister; a reserved kind raises Desc (R211). -/
def execRegcb (addr : BitVec 7) (kind : BitVec 2) (s : State) : Result :=
  let s0 := s.beginStep
  .next (if kind = 0 then s0.setKind addr .none
    else if kind = 1 then s0.setKind addr .shtp
    else s0.raise .desc)

/-- `AWAIT_SET` (R240). -/
def execAwaitSet (s : State) : Result := .next { s.beginStep with awaiting := true }

end Sys2Proof.Machine
end

