-- ==== Sys2Proof/Machine/Engine.lean ====
section
/-! DEFINITION. The bus transaction engine (41_engine_events.md): the completion events and the two helpers of
`EV_TX_ACK`. -/

namespace Sys2Proof.Machine

/-! ### EV_START -/

/-- The popped transaction becomes active and its address byte is sent (R170, R171). -/
def activate (slot : Nat) (d : Desc) (s : State) : State :=
  State.emit
    { s with
      active := some slot
      widx := 0
      rcount := 0
      sub := subOfDir (firstDir d)
      stage := .addressPhase }
    (.tx (addrByte d.addr (firstDir d)))

/-- `EV_START` in Starting: pop the next transaction; with none, command a stop (R170, R172). -/
def startNext (s : State) : Except Fault State :=
  match deq s with
  | (none, s1) => .ok (State.emit { s1 with stage := .stopping } .stop)
  | (some slot, s1) => (readSlot s1 slot).map (fun d => activate slot d s1)

/-- The address of the active descriptor `d` again, with the read bit (R173). -/
def resendAddressOf (d : Desc) (s : State) : State := State.emit { s with sub := .reAddr } (.tx (addrByte d.addr .read))

/-- `EV_START` in (DataPhase, ReStart) (R170, R173). -/
def resendAddress (s : State) : Except Fault State := withActive resendAddressOf s

/-- `EV_START` (R170). -/
def execEvStart (s : State) : Result :=
  let s0 := s.beginStep
  match s0.stage, s0.sub with
  | .starting, _ => outcomeOf (startNext s0)
  | .dataPhase, .reStart => outcomeOf (resendAddress s0)
  | _, _ => .next (unexpectedEvent s0)

/-! ### EV_TX_ACK -/

/-- `WRITE_NEXT` on the active descriptor `d` (R176). -/
def writeNextOf (d : Desc) (s : State) : State :=
  match d.wdata[s.widx.toNat]? with
  | some b => State.emit { s with widx := s.widx + 1 } (.tx b)
  | none =>
    if 0 < d.rlen.toNat then State.emit { s with sub := .reStart } .start
    else State.emit { s with stage := .stopping } .stop

/-- `BEGIN_READ` on the active descriptor `d` (R177). -/
def beginReadOf (d : Desc) (s : State) : State :=
  if d.rlen = 0 then State.emit { s with stage := .stopping } .stop
  else State.emit { s with sub := .read } .rx

/-- `WRITE_NEXT()` (R176). -/
def writeNext (s : State) : Except Fault State := withActive writeNextOf s

/-- `BEGIN_READ()` (R177). -/
def beginRead (s : State) : Except Fault State := withActive beginReadOf s

/-- `EV_TX_ACK` (R175). -/
def execEvTxAck (s : State) : Result :=
  let s0 := s.beginStep
  if s0.active = none then .next (unexpectedEvent s0)
  else
    match s0.stage, s0.sub with
    | .addressPhase, .write => outcomeOf (writeNext { s0 with stage := .dataPhase })
    | .addressPhase, .read => outcomeOf (beginRead { s0 with stage := .dataPhase })
    | .dataPhase, .write => outcomeOf (writeNext s0)
    | .dataPhase, .reAddr => outcomeOf (beginRead s0)
    | _, _ => .next (unexpectedEvent s0)

/-! ### EV_TX_NACK -/

/-- BusNack: abort the active transaction (R180). -/
def abortTransaction (s : State) : State := State.emit { s.raise .nack with stage := .stopping } .stop

/-- `EV_TX_NACK` (R180). -/
def execEvTxNack (s : State) : Result :=
  let s0 := s.beginStep
  match s0.stage, s0.sub with
  | .addressPhase, _ => .next (abortTransaction s0)
  | .dataPhase, .write => .next (abortTransaction s0)
  | .dataPhase, .reAddr => .next (abortTransaction s0)
  | _, _ => .next (unexpectedEvent s0)

/-! ### EV_RX -/

/-- After the dispatch: extend the read length in place, decide whether the byte was the last, acknowledge (R185, R187,
R188). -/
def acknowledge (slot : Nat) (add : Half) (s : State) : State :=
  let rlen := extendRlen (poolAt s slot).rlen add
  let s1 := s.setPool slot { poolAt s slot with rlen := rlen }
  if rlen ≤ s1.rcount then State.emit { s1 with stage := .stopping } .nackStop else s1.emit .ackRx

/-- A byte received for the active slot (R185, order of 20_memory.md R77). -/
def receiveByte (b : Byte) (slot : Nat) (s : State) : Except Fault State :=
  match readSlot s slot with
  | .error f => .error f
  | .ok t =>
    let rcount := nextRcount s.rcount
    (dispatchByte t.addr b (bytesRemaining t.rlen rcount) { s with rcount := rcount }).map
      (fun r => acknowledge slot r.1 r.2)

/-- `EV_RX(b)` (R185). -/
def execEvRx (b : Byte) (s : State) : Result :=
  let s0 := s.beginStep
  match s0.stage, s0.sub, s0.active with
  | .dataPhase, .read, some slot => outcomeOf (receiveByte b slot s0)
  | _, _, _ => .next (unexpectedEvent s0)

/-! ### EV_STOP -/

/-- Release the active slot, if there is one (R190). -/
def retire (s : State) : Except Fault State :=
  match s.active with
  | none => .ok s
  | some slot => (release slot s).map (fun s1 => { s1 with active := none })

/-- Start the next queued transaction, or go Idle (R190). -/
def restartOrIdle (s : State) : State :=
  if 0 < s.qCount then State.emit { s with stage := .starting } .start else { s with stage := .idle }

/-- `EV_STOP` (R190). -/
def execEvStop (s : State) : Result :=
  let s0 := s.beginStep
  match s0.stage with
  | .stopping => outcomeOf ((retire s0).map restartOrIdle)
  | _ => .next (unexpectedEvent s0)

/-! ### Reserved codes and helpers -/

/-- Event codes `0b110` and `0b111`: unexpected everywhere (R195). -/
def execEvReserved (_code : BitVec 3) (s : State) : Result := .next (unexpectedEvent s.beginStep)

/-- `WRITE_NEXT` by itself (R176, log entry 14). -/
def execWriteNext (s : State) : Result := outcomeOf (writeNext s.beginStep)

/-- `BEGIN_READ` by itself (R177, log entry 14). -/
def execBeginRead (s : State) : Result := outcomeOf (beginRead s.beginStep)

end Sys2Proof.Machine
end

