-- ==== Sys2Proof/Machine/System.lean ====
section
/-! DEFINITION. The system commands of the host port (43_host_system_ops.md): `NOP`, `STATUS`, `RESET`, reserved opcodes. -/

namespace Sys2Proof.Machine

/-- `NOP`: no field of the block's state changes (R250). -/
def execNop (s : State) : Result := .next s.beginStep

/-- `STATUS`: answer the status word (R251). -/
def execStatus (s : State) : Result := .next (s.beginStep.respond (.word (statusWord s)))

/-- `RESET`: every field of the block takes its reset value (R252, R50). The configuration and what the environment has
raised are not the block's and stay. -/
def execReset (s : State) : Result :=
  .next { State.resetWith s.cfg with inbox := s.inbox, sinkAnswers := s.sinkAnswers }

/-- Opcodes `0x07` to `0xFF`: raise Desc, nothing else (R253). -/
def execHcReserved (_opcode : Byte) (s : State) : Result := .next (s.beginStep.raise .desc)

end Sys2Proof.Machine
end

