-- ==== Sys2Proof/Machine/Dispatch.lean ====
section
/-! DEFINITION. One arm per operation: its meaning. -/

namespace Sys2Proof.Machine

def exec (i : Instr) (s : State) : Host.Outcome State Fault Refusal :=
  match i with
  | .nop => Sys2Proof.Machine.execNop s
  | .enq d => Sys2Proof.Machine.execEnq d s
  | .regcb addr kind => Sys2Proof.Machine.execRegcb addr kind s
  | .awaitSet => Sys2Proof.Machine.execAwaitSet s
  | .size => Sys2Proof.Machine.execSize s
  | .status => Sys2Proof.Machine.execStatus s
  | .reset => Sys2Proof.Machine.execReset s
  | .hcReserved opcode => Sys2Proof.Machine.execHcReserved opcode s
  | .evStart => Sys2Proof.Machine.execEvStart s
  | .evTxAck => Sys2Proof.Machine.execEvTxAck s
  | .evTxNack => Sys2Proof.Machine.execEvTxNack s
  | .evRx b => Sys2Proof.Machine.execEvRx b s
  | .evStop => Sys2Proof.Machine.execEvStop s
  | .evReserved code => Sys2Proof.Machine.execEvReserved code s
  | .bcNone => Sys2Proof.Machine.execBcNone s
  | .bcStart => Sys2Proof.Machine.execBcStart s
  | .bcTx d => Sys2Proof.Machine.execBcTx d s
  | .bcRx => Sys2Proof.Machine.execBcRx s
  | .bcAckRx => Sys2Proof.Machine.execBcAckRx s
  | .bcNackStop => Sys2Proof.Machine.execBcNackStop s
  | .bcStop => Sys2Proof.Machine.execBcStop s
  | .bcReserved => Sys2Proof.Machine.execBcReserved s
  | .alloc => Sys2Proof.Machine.execAlloc s
  | .reclaim => Sys2Proof.Machine.execReclaim s
  | .push slot => Sys2Proof.Machine.execPush slot s
  | .deq => Sys2Proof.Machine.execDeq s
  | .release slot => Sys2Proof.Machine.execRelease slot s
  | .writeNext => Sys2Proof.Machine.execWriteNext s
  | .beginRead => Sys2Proof.Machine.execBeginRead s
  | .dispatch addr b remaining => Sys2Proof.Machine.execDispatch addr b remaining s
  | .shtpCb b remaining => Sys2Proof.Machine.execShtpCb b remaining s
  | .store b => Sys2Proof.Machine.execStore b s
  | .deliver => Sys2Proof.Machine.execDeliver s

end Sys2Proof.Machine
end

