-- ==== Sys2Proof/Machine/Fetch.lean ====
section
/-! DEFINITION. Which operation a step consumes: the oldest one the environment has raised (00_scope.md R5, R12, R74). -/

namespace Sys2Proof.Machine

/-- What stays pending when a command has been taken from a burst of host bytes. -/
def afterCommand (rest : List Byte) (more : List InWord) : List InWord :=
  match rest with
  | [] => more
  | b :: bs => .hc (b :: bs) :: more

/-- The operation to run, if any, and the state it runs in. With nothing pending the block does nothing (R160, R342); an
idle EV word is no operation (R97): both are steps without an operation (log entry 6). -/
def fetch (s : State) : Except Refusal (Option Instr × State) :=
  match s.inbox with
  | [] => .ok (none, s.beginStep)
  | .hc bytes :: more =>
    match decodeHc bytes with
    | .ok (i, rest) => .ok (some i, { s with inbox := afterCommand rest more })
    | .error _ => .error .incompleteCommand
  | .ev w :: more =>
    match decodeEv w with
    | .ok i => .ok (some i, { s with inbox := more })
    | .error _ => .ok (none, State.beginStep { s with inbox := more })

end Sys2Proof.Machine
end

