-- ==== Sys2Proof/Machine/Step.lean ====
section
/-! DEFINITION. One step of the block: consume the oldest pending operation and run it (00_scope.md R5, R16). -/

namespace Sys2Proof.Machine

/-- One atomic step. -/
def step (s : State) : Host.Outcome State Fault Refusal :=
  match fetch s with
  | .ok (some i, s1) => exec i s1
  | .ok (none, s1) => .next s1
  | .error r => .refused r

/-- The state in which the instruction whose bits are `w` is the oldest pending operation (log entries 1, 15). -/
def State.withFetchWord (s : State) (nbits w : Nat) : State :=
  { s with inbox := tableInWord nbits w :: s.inbox }

end Sys2Proof.Machine
end

