-- ==== Sys2Proof/Safety.lean ====
section
/-! DEFINITION. What counts as a good state and a good run: the queue as the list it stands for, the invariants of
10_state.md R49, which events a position expects (R33, 41_engine_events.md R195), which bus command a position has
outstanding (R33), and what an observer sees of a run (20_memory.md R83). -/

namespace Sys2Proof.Machine

/-! ### The queue -/

/-- The queued slots, oldest first: `fifo[(q_head + i) mod QCAP]` for `i = 0 .. q_count-1` (R24). -/
def queuedSlots (s : State) : List Nat :=
  (List.range s.qCount).map fun k => fifoAt s ((s.qHead + k) % s.cfg.qcap)

/-- The queued transactions, oldest first. -/
def queuedDescs (s : State) : List Desc := (queuedSlots s).map (poolAt s)

/-- The slots that have an owner: the active one and the queued ones (R25). -/
def liveSlots (s : State) : List Nat := s.active.toList ++ queuedSlots s

/-- The number of used slots (R49, I4). -/
def usedCount (s : State) : Nat := ((List.range s.cfg.nslot).filter (usedAt s)).length

/-! ### The invariants -/

/-- Every storage array is in canonical form. -/
def tablesWf (s : State) : Bool :=
  tableWf Desc.zero s.pool && tableWf false s.used && tableWf 0 s.fifo && tableWf Kind.none s.cbtab && s.rxbuf.wf

/-- No storage array has an element outside its index range (20_memory.md R60). -/
def TablesBounded (s : State) : Prop :=
  (∀ e ∈ s.pool, e.1 < s.cfg.nslot) ∧ (∀ e ∈ s.used, e.1 < s.cfg.nslot) ∧ (∀ e ∈ s.fifo, e.1 < s.cfg.qcap)
    ∧ (∀ e ∈ s.cbtab, e.1 < 128) ∧ (∀ e ∈ s.rxbuf, e.1 < s.cfg.rxcap)

/-- The positions in which the active transaction has received nothing yet: AddressPhase, and DataPhase outside the read
sub-phase. -/
def beforeRead (s : State) : Prop := s.stage = .addressPhase ∨ (s.stage = .dataPhase ∧ s.sub ≠ .read)

/-- The invariants of R49 (I1 to I8), with the ranges of 10_state.md and what makes them inductive (`addressSub`,
`restartReads`, `notYetRead`, `readingLeft`, log entry 23). -/
structure State.Inv (s : State) : Prop where
  /-- The configuration is one of R6 to R8. -/
  cfgValid : s.cfg.Valid
  /-- The arrays are canonical. -/
  canonical : tablesWf s = true
  /-- The arrays have no element outside their ranges. -/
  bounded : TablesBounded s
  /-- I1. -/
  idle : s.stage = .idle → s.qCount = 0 ∧ s.active = none
  /-- I2. -/
  starting : s.stage = .starting → 1 ≤ s.qCount ∧ s.active = none
  /-- I3. -/
  busy : s.stage = .addressPhase ∨ s.stage = .dataPhase ∨ s.stage = .stopping → s.active.isSome = true
  /-- The range of `q_head` (R24). -/
  headRange : s.qHead < s.cfg.qcap
  /-- The range of `q_count` (R24). -/
  countRange : s.qCount ≤ s.cfg.qcap
  /-- I5: the live slots are pairwise distinct. -/
  distinct : (liveSlots s).Nodup
  /-- R25: a slot is used exactly when it is queued or active. -/
  owned : ∀ i, usedAt s i = true ↔ i ∈ liveSlots s
  /-- I6. -/
  cursorRange : s.rxCur.toNat ≤ s.cfg.rxcap ∧ s.frameLen.toNat ≤ s.cfg.rxcap
  /-- I7, the write buffer. -/
  writeBuffer : ∀ i, (poolAt s i).wlen.toNat ≤ s.cfg.maxw
  /-- I7, the counters of the active transaction. -/
  counters : ∀ i, s.active = some i → s.widx.toNat ≤ (poolAt s i).wlen.toNat ∧ s.rcount ≤ (poolAt s i).rlen
  /-- In AddressPhase `sub` is the direction of the address byte (R28). -/
  addressSub : s.stage = .addressPhase → s.sub = .write ∨ s.sub = .read
  /-- A restart is commanded only for a read (41_engine_events.md R176, R177). -/
  restartReads : s.stage = .dataPhase → s.sub = .reStart ∨ s.sub = .reAddr →
    ∀ i, s.active = some i → (poolAt s i).rlen ≠ 0
  /-- Nothing is received before the read sub-phase (R32). -/
  notYetRead : beforeRead s → s.rcount = 0
  /-- In the read sub-phase bytes are still due (R185, R188). -/
  readingLeft : s.stage = .dataPhase → s.sub = .read → ∀ i, s.active = some i → s.rcount < (poolAt s i).rlen
  /-- I8, and bit 7 is never set (R47). -/
  errFlags : flagSet s.err .reclaim = false ∧ flagSet s.err .poolFatal = false ∧ s.err.getLsbD 7 = false

/-! ### Reset -/

/-- The reset values of R50, for every field that has one: what `pool`, `fifo` and `rxbuf` hold is unspecified. -/
structure IsReset (s : State) : Prop where
  used : ∀ i, usedAt s i = false
  qHead : s.qHead = 0
  qCount : s.qCount = 0
  stage : s.stage = .idle
  sub : s.sub = .write
  active : s.active = none
  widx : s.widx = 0
  rcount : s.rcount = 0
  cbtab : ∀ addr, kindAt s addr = .none
  rxCur : s.rxCur = 0
  xfIdx : s.xfIdx = 0
  h0 : s.h0 = 0
  app : s.app = false
  frameLen : s.frameLen = 0
  awaiting : s.awaiting = false
  err : s.err = 0

/-! ### Outputs -/

/-- The output of a step that only emits a bus command. -/
def outBus (c : BusCommand) : Output := { Output.quiet with bc := c }

/-- The output of a step that only answers a command. -/
def outResp (r : Response) : Output := { Output.quiet with resp := some r }

/-- The output of an internal primitive that only returns a value (log entry 14). -/
def outRet (r : PrimResult) : Output := { Output.quiet with ret := some r }

/-! ### Events and positions -/

/-- Whether an operation is a completion event of the EV port (30_encoding.md R97). -/
def isEvent : Instr → Bool
  | .evStart | .evTxAck | .evTxNack | .evRx _ | .evStop | .evReserved _ => true
  | _ => false

/-- Whether an operation is a command of the HC port (R105). -/
def isHostCommand : Instr → Bool
  | .nop | .enq _ | .regcb _ _ | .awaitSet | .size | .status | .reset | .hcReserved _ => true
  | _ => false

/-- Whether an operation can arrive at a port of the block: what a step can run. -/
def isPortOp (i : Instr) : Bool := isHostCommand i || isEvent i

/-- The completion events a position lists (10_state.md R33, 41_engine_events.md R195). -/
def expectedAt : Stage → SubPhase → Instr → Bool
  | .starting, _, .evStart => true
  | .addressPhase, .write, .evTxAck => true
  | .addressPhase, .read, .evTxAck => true
  | .addressPhase, _, .evTxNack => true
  | .dataPhase, .write, .evTxAck => true
  | .dataPhase, .write, .evTxNack => true
  | .dataPhase, .reStart, .evStart => true
  | .dataPhase, .reAddr, .evTxAck => true
  | .dataPhase, .reAddr, .evTxNack => true
  | .dataPhase, .read, .evRx _ => true
  | .stopping, _, .evStop => true
  | _, _, _ => false

/-- The bus commands a position has outstanding (R33). -/
def outstandingAt : Stage → SubPhase → BusCommand → Bool
  | .idle, _, .none => true
  | .starting, _, .start => true
  | .addressPhase, _, .tx _ => true
  | .dataPhase, .write, .tx _ => true
  | .dataPhase, .reStart, .start => true
  | .dataPhase, .reAddr, .tx _ => true
  | .dataPhase, .read, .rx => true
  | .dataPhase, .read, .ackRx => true
  | .stopping, _, .stop => true
  | .stopping, _, .nackStop => true
  | _, _, _ => false

/-! ### Runs -/

/-- A sequence of operations, each one step. -/
def runOps : List Instr → State → Result
  | [], s => .next s
  | i :: is, s =>
    match exec i s with
    | .next t => runOps is t
    | .fault f => .fault f
    | .refused r => .refused r

/-- The output of each operation of a run; it ends where the run stops. -/
def runOutputs : List Instr → State → List Output
  | [], _ => []
  | i :: is, s =>
    match exec i s with
    | .next t => t.out :: runOutputs is t
    | .fault _ => []
    | .refused _ => []

/-- The output of each of `n` steps; it ends where the run stops. -/
def stepOutputs : Nat → State → List Output
  | 0, _ => []
  | n + 1, s =>
    match step s with
    | .next t => t.out :: stepOutputs n t
    | .fault _ => []
    | .refused _ => []

/-- The observable behaviour of a run: three sequences, each in step order (20_memory.md R83). -/
structure Observation where
  /-- The bus commands emitted, `BC_NONE` steps omitted. -/
  bus : List BusCommand
  /-- The command responses. -/
  responses : List Response
  /-- The frames delivered. -/
  frames : List Frame
deriving DecidableEq, Repr

/-- What of a run's outputs is observable (R83). The acceptance bits that go back to SINK and the result of a primitive run
by itself are not. -/
def observation (outs : List Output) : Observation :=
  { bus := (outs.map Output.bc).filter (fun c => decide (c ≠ .none))
    responses := outs.filterMap Output.resp
    frames := outs.filterMap Output.frame }

/-- What an observer sees of a sequence of operations (R83). -/
def observeOps (is : List Instr) (s : State) : Observation := observation (runOutputs is s)

/-- What an observer sees of `n` steps (R83). -/
def observe (n : Nat) (s : State) : Observation := observation (stepOutputs n s)

/-- Ordinary `ENQ`s of these descriptors, one after the other (42_dispatch_framing.md R236): whether each was accepted, and
the state after them. -/
def runEnqs : List Desc → State → List Bool × State
  | [], s => ([], s)
  | d :: ds, s =>
    match exec (.enq d) s with
    | .next t => (decide (t.out.resp = some (.accepted true)) :: (runEnqs ds t).1, (runEnqs ds t).2)
    | .fault _ => ([], s)
    | .refused _ => ([], s)

/-- The `SHTP_CB` calls of one transfer (42_dispatch_framing.md R221): every byte, with the number of bytes after it. -/
def transferOps : List Byte → List Instr
  | [] => []
  | b :: bs => .shtpCb b (BitVec.ofNat 16 bs.length) :: transferOps bs

end Sys2Proof.Machine
end

