-- ==== Sys2Proof/Certificates/Slice0/Obligations.lean ====
section
/-! DEFINITION. The statements for the provers. Where a statement says `t = { s with f := t.f, … }`, every field of State
that is not named keeps its value; the reads of the named fields say what they hold. `out` is the model's latch of the
step's output (log entry 4). -/

open Sys2Proof Sys2Proof.Machine

/-! ### System commands -/

/-- R250. `NOP` changes no field of the block, answers nothing and emits nothing. -/
def Obligations.NopChangesNothing : Prop :=
  encodeIn .nop = some (.hc [0x00])
  ∧ ∀ s : State, exec .nop s = .next { s with out := Output.quiet }

/-- R251, R116. The fields of the status word; nothing else changes. -/
def Obligations.StatusReportsState : Prop :=
  encodeIn .status = some (.hc [0x05])
  ∧ ∀ s : State, ∃ w : BitVec 32,
    exec .status s = .next { s with out := outResp (.word w) }
    ∧ (s.qCount < 65536 → (w.extractLsb' 16 16).toNat = s.qCount)
    ∧ (∀ k, w.getLsbD (8 + errCode k) = flagSet s.err k) ∧ w.getLsbD 15 = false ∧ w.getLsbD 7 = false
    ∧ w.getLsbD 6 = s.awaiting ∧ w.getLsbD 5 = s.active.isSome
    ∧ w.extractLsb' 3 2 = subCode s.sub ∧ w.extractLsb' 0 3 = stageCode s.stage

/-- R140. `SIZE` answers the number of queued transactions; nothing else changes. -/
def Obligations.SizeCountsQueued : Prop :=
  encodeIn .size = some (.hc [0x04])
  ∧ ∀ s : State, ∃ n : Half, exec .size s = .next { s with out := outResp (.count n) }
    ∧ (s.qCount < 65536 → n.toNat = s.qCount)

/-- R252, R50. `RESET` puts every field that has a reset value at it. That the model's own fields `cfg`, `inbox` and
`sinkAnswers` stay is no rule of the spec but the model's choice (log entry 27). -/
def Obligations.ResetRestoresEveryField : Prop :=
  encodeIn .reset = some (.hc [0x06])
  ∧ ∀ s : State, ∃ t, exec .reset s = .next t ∧ IsReset t ∧ t.out = Output.quiet
    ∧ t.cfg = s.cfg ∧ t.inbox = s.inbox ∧ t.sinkAnswers = s.sinkAnswers

/-- R50, R340. The state after power-on, in every configuration and in the one `State.reset` takes. -/
def Obligations.PowerOnState : Prop :=
  (∀ c : Config, IsReset (State.resetWith c) ∧ (State.resetWith c).cfg = c) ∧ IsReset State.reset

/-- R253. A reserved opcode is one byte long and only raises Desc. -/
def Obligations.ReservedOpcodeRaisesDesc : Prop :=
  ∀ (op : Byte) (rest : List Byte), 7 ≤ op.toNat →
    decodeHc (op :: rest) = .ok (.hcReserved op, rest)
    ∧ ∀ s : State, exec (.hcReserved op) s = .next { s with err := s.err ||| 0x40, out := Output.quiet }

/-- R240. `AWAIT_SET` sets `awaiting` and nothing else. -/
def Obligations.AwaitSetSetsFlag : Prop :=
  encodeIn .awaitSet = some (.hc [0x03])
  ∧ ∀ s : State, exec .awaitSet s = .next { s with awaiting := true, out := Output.quiet }

/-- R211, R107. `REGCB` sets the entry of one address; a reserved kind only raises Desc. -/
def Obligations.RegcbSetsOneEntry : Prop :=
  (∀ (aa kk : Byte) (rest : List Byte),
    decodeHc (0x02 :: aa :: kk :: rest) = .ok (.regcb (aa.extractLsb' 0 7) (kk.extractLsb' 0 2), rest))
  ∧ ∀ (addr : BitVec 7) (kind : BitVec 2) (s : State), tablesWf s = true →
    ∃ t, exec (.regcb addr kind) s = .next t
      ∧ t = { s with cbtab := t.cbtab, err := t.err, out := Output.quiet }
      ∧ (kind = 0 → t.err = s.err ∧ ∀ a, kindAt t a = if a = addr then .none else kindAt s a)
      ∧ (kind = 1 → t.err = s.err ∧ ∀ a, kindAt t a = if a = addr then .shtp else kindAt s a)
      ∧ (kind = 2 ∨ kind = 3 → t.err = s.err ||| 0x40 ∧ t.cbtab = s.cbtab)

/-! ### The queue -/

/-- R136 lines 1, 2 and 6 (R138, R145). The three ways `ENQ` is declined, and all that changes. -/
def Obligations.EnqDeclines : Prop :=
  ∀ (d : Desc) (s : State),
    (flagSet s.err .poolFatal = true → exec (.enq d) s = .next { s with out := outResp (.accepted false) })
    ∧ (flagSet s.err .poolFatal = false → s.qCount = s.cfg.qcap →
        exec (.enq d) s = .next { s with err := s.err ||| 0x01, out := outResp (.accepted false) })
    ∧ (flagSet s.err .poolFatal = false → s.qCount ≠ s.cfg.qcap → s.qCount ≠ 0 →
        (∀ i < s.cfg.nslot, usedAt s i = true) →
        exec (.enq d) s = .next
          { s with err := if s.cfg.maxw < d.wlen.toNat then s.err ||| 0x40 else s.err
                   out := outResp (.accepted false) })

/-- R136 lines 3, 4, 7, 8, 9 (R131, R139, R141). An accepted `ENQ`: the descriptor, cut to `MAXW` write bytes, goes into the
least free slot, the slot to the end of the ring, and an idle engine is kicked. -/
def Obligations.EnqAccepts : Prop :=
  ∀ (d : Desc) (s : State) (i : Nat),
    tablesWf s = true → flagSet s.err .poolFatal = false → s.qCount ≠ s.cfg.qcap →
    i < s.cfg.nslot → usedAt s i = false → (∀ j < i, usedAt s j = true) →
    ∃ t, exec (.enq d) s = .next t
      ∧ t = { s with
                pool := t.pool
                used := t.used
                fifo := t.fifo
                qCount := s.qCount + 1
                stage := if s.stage = .idle then .starting else s.stage
                err := if s.cfg.maxw < d.wlen.toNat then s.err ||| 0x40 else s.err
                out := { Output.quiet with
                          bc := if s.stage = .idle then .start else .none
                          resp := some (.accepted true) } }
      ∧ (∀ j, poolAt t j = if j = i then cutDesc s.cfg.maxw d else poolAt s j)
      ∧ (∀ j, usedAt t j = (decide (j = i) || usedAt s j))
      ∧ (∀ j, fifoAt t j = if j = (s.qHead + s.qCount) % s.cfg.qcap then i else fifoAt s j)

/-- R136 line 5 (R132). With no free slot and an empty queue, `ENQ` frees every slot but the active one, raises
PoolExhausted (repaired), and accepts in the least slot freed. -/
def Obligations.EnqReclaims : Prop :=
  ∀ (d : Desc) (s : State) (i : Nat),
    tablesWf s = true → flagSet s.err .poolFatal = false → s.qCount = 0 → s.cfg.qcap ≠ 0 →
    (∀ j < s.cfg.nslot, usedAt s j = true) → i = (if s.active = some 0 then 1 else 0) →
    ∃ t, exec (.enq d) s = .next t
      ∧ t = { s with
                pool := t.pool
                used := t.used
                fifo := t.fifo
                qCount := 1
                stage := if s.stage = .idle then .starting else s.stage
                err := (if s.cfg.maxw < d.wlen.toNat then s.err ||| 0x40 else s.err) ||| 0x02
                out := { Output.quiet with
                          bc := if s.stage = .idle then .start else .none
                          resp := some (.accepted true) } }
      ∧ (∀ j, poolAt t j = if j = i then cutDesc s.cfg.maxw d else poolAt s j)
      ∧ (∀ j < s.cfg.nslot, usedAt t j = (decide (j = i) || decide (s.active = some j)))
      ∧ (∀ j, fifoAt t j = if j = s.qHead % s.cfg.qcap then i else fifoAt s j)

/-- R137. No `ENQ`, in any state, raises PoolExhausted (fatal). -/
def Obligations.EnqNeverGoesFatal : Prop :=
  ∀ (d : Desc) (s : State), ∃ t, exec (.enq d) s = .next t ∧ flagSet t.err .poolFatal = flagSet s.err .poolFatal

/-- R146. Under the invariants `ENQ` is declined exactly when the queue is full, and no repair flag is raised. -/
def Obligations.EnqDeclinedIffFull : Prop :=
  ∀ (d : Desc) (s : State), s.Inv →
    ∃ t b, exec (.enq d) s = .next t ∧ t.out.resp = some (.accepted b) ∧ (b = false ↔ s.qCount = s.cfg.qcap)
      ∧ flagSet t.err .reclaim = false ∧ flagSet t.err .poolFatal = false

/-- R131. `ALLOC` marks and returns the least free slot; with none free it returns none and changes nothing. -/
def Obligations.AllocTakesLeastFree : Prop :=
  encodeIn .alloc = none ∧ encodeBc .alloc = none
  ∧ ∀ s : State, tablesWf s = true →
    (∀ i, i < s.cfg.nslot → usedAt s i = false → (∀ j < i, usedAt s j = true) →
      ∃ t, exec .alloc s = .next t ∧ t = { s with used := t.used, out := outRet (.slot (some i)) }
        ∧ ∀ j, usedAt t j = (decide (j = i) || usedAt s j))
    ∧ ((∀ i < s.cfg.nslot, usedAt s i = true) → exec .alloc s = .next { s with out := outRet (.slot none) })

/-- R132. `RECLAIM` frees every slot but the active one and raises PoolExhausted (repaired). -/
def Obligations.ReclaimFreesAllButActive : Prop :=
  encodeIn .reclaim = none ∧ encodeBc .reclaim = none
  ∧ ∀ s : State, ∃ t, exec .reclaim s = .next t
    ∧ t = { s with used := t.used, err := s.err ||| 0x02, out := Output.quiet }
    ∧ ∀ j < s.cfg.nslot, usedAt t j = (decide (s.active = some j) && usedAt s j)

/-- R133. `PUSH` appends a slot to the ring. -/
def Obligations.PushAppends : Prop :=
  (∀ slot, encodeIn (.push slot) = none ∧ encodeBc (.push slot) = none)
  ∧ ∀ (slot : Nat) (s : State), tablesWf s = true → s.qCount < s.cfg.qcap →
    ∃ t, exec (.push slot) s = .next t
      ∧ t = { s with fifo := t.fifo, qCount := s.qCount + 1, out := Output.quiet }
      ∧ (∀ j, fifoAt t j = if j = (s.qHead + s.qCount) % s.cfg.qcap then slot else fifoAt s j)
      ∧ queuedSlots t = queuedSlots s ++ [slot]

/-- R134. `DEQ` returns the oldest entry and leaves its slot used; of an empty queue it returns none. -/
def Obligations.DeqTakesOldest : Prop :=
  encodeIn .deq = none ∧ encodeBc .deq = none
  ∧ ∀ s : State,
    (s.qCount = 0 → exec .deq s = .next { s with out := outRet (.slot none) })
    ∧ (s.qCount ≠ 0 → s.qHead < s.cfg.qcap →
        ∃ t, exec .deq s = .next t
          ∧ t = { s with
                    qHead := (s.qHead + 1) % s.cfg.qcap
                    qCount := s.qCount - 1
                    out := outRet (.slot (some (fifoAt s s.qHead))) }
          ∧ queuedSlots s = fifoAt s s.qHead :: queuedSlots t)

/-- R135. `RELEASE` frees one slot. -/
def Obligations.ReleaseFreesSlot : Prop :=
  (∀ slot, encodeIn (.release slot) = none ∧ encodeBc (.release slot) = none)
  ∧ ∀ (slot : Nat) (s : State), tablesWf s = true → slot < s.cfg.nslot →
    ∃ t, exec (.release slot) s = .next t ∧ t = { s with used := t.used, out := Output.quiet }
      ∧ ∀ j, usedAt t j = (decide (j ≠ slot) && usedAt s j)

/-! ### The engine -/

/-- R170 to R173. `EV_START`: pop and address the next transaction; command a stop when there is none; re-send the address
with the read bit after a repeated start; elsewhere it is unexpected. -/
def Obligations.StartEventAddresses : Prop :=
  (∀ data : Byte, decodeEv (0b001#3 ++ data) = .ok .evStart)
  ∧ ∀ s : State,
    (∀ slot rw, s.stage = .starting → s.qCount ≠ 0 → slot = fifoAt s s.qHead → slot < s.cfg.nslot →
      rw = (if 0 < (poolAt s slot).wlen then Dir.write else (poolAt s slot).dir) →
      exec .evStart s = .next
        { s with
          qHead := (s.qHead + 1) % s.cfg.qcap
          qCount := s.qCount - 1
          active := some slot
          widx := 0
          rcount := 0
          sub := if rw = .write then .write else .read
          stage := .addressPhase
          out := outBus (.tx ((poolAt s slot).addr ++ rw.bit)) })
    ∧ (s.stage = .starting → s.qCount = 0 →
        exec .evStart s = .next { s with stage := .stopping, out := outBus .stop })
    ∧ (∀ i, s.stage = .dataPhase → s.sub = .reStart → s.active = some i → i < s.cfg.nslot →
        exec .evStart s = .next { s with sub := .reAddr, out := outBus (.tx ((poolAt s i).addr ++ 1#1)) })
    ∧ (s.stage ≠ .starting → ¬(s.stage = .dataPhase ∧ s.sub = .reStart) →
        exec .evStart s = .next { s with err := s.err ||| 0x20, out := Output.quiet })

/-- R175 with R176 and R177. `EV_TX_ACK`: the next write byte, the repeated start, the first receive or the stop; elsewhere it
is unexpected. -/
def Obligations.AckEventAdvances : Prop :=
  (∀ data : Byte, decodeEv (0b010#3 ++ data) = .ok .evTxAck)
  ∧ ∀ s : State,
    (∀ i, s.active = some i → i < s.cfg.nslot →
      ((s.stage = .addressPhase ∨ s.stage = .dataPhase) → s.sub = .write →
        (∀ b, (poolAt s i).wdata[s.widx.toNat]? = some b →
          exec .evTxAck s = .next
            { s with stage := .dataPhase, widx := s.widx + 1, out := outBus (.tx b) })
        ∧ ((poolAt s i).wlen.toNat ≤ s.widx.toNat → (poolAt s i).rlen ≠ 0 →
          exec .evTxAck s = .next { s with stage := .dataPhase, sub := .reStart, out := outBus .start })
        ∧ ((poolAt s i).wlen.toNat ≤ s.widx.toNat → (poolAt s i).rlen = 0 →
          exec .evTxAck s = .next { s with stage := .stopping, out := outBus .stop }))
      ∧ ((s.stage = .addressPhase ∧ s.sub = .read) ∨ (s.stage = .dataPhase ∧ s.sub = .reAddr) →
        ((poolAt s i).rlen = 0 → exec .evTxAck s = .next { s with stage := .stopping, out := outBus .stop })
        ∧ ((poolAt s i).rlen ≠ 0 →
          exec .evTxAck s = .next { s with stage := .dataPhase, sub := .read, out := outBus .rx })))
    ∧ (s.active = none ∨ ¬((s.stage = .addressPhase ∧ (s.sub = .write ∨ s.sub = .read))
          ∨ (s.stage = .dataPhase ∧ (s.sub = .write ∨ s.sub = .reAddr))) →
        exec .evTxAck s = .next { s with err := s.err ||| 0x20, out := Output.quiet })

/-- R176. `WRITE_NEXT` by itself, on the active transaction. -/
def Obligations.WriteNextSendsByte : Prop :=
  encodeIn .writeNext = none ∧ encodeBc .writeNext = none
  ∧ ∀ (s : State) (i : Nat), s.active = some i → i < s.cfg.nslot →
    (∀ b, (poolAt s i).wdata[s.widx.toNat]? = some b →
      exec .writeNext s = .next { s with widx := s.widx + 1, out := outBus (.tx b) })
    ∧ ((poolAt s i).wlen.toNat ≤ s.widx.toNat → (poolAt s i).rlen ≠ 0 →
      exec .writeNext s = .next { s with sub := .reStart, out := outBus .start })
    ∧ ((poolAt s i).wlen.toNat ≤ s.widx.toNat → (poolAt s i).rlen = 0 →
      exec .writeNext s = .next { s with stage := .stopping, out := outBus .stop })

/-- R177. `BEGIN_READ` by itself, on the active transaction. -/
def Obligations.BeginReadAsksFirstByte : Prop :=
  encodeIn .beginRead = none ∧ encodeBc .beginRead = none
  ∧ ∀ (s : State) (i : Nat), s.active = some i → i < s.cfg.nslot →
    ((poolAt s i).rlen = 0 → exec .beginRead s = .next { s with stage := .stopping, out := outBus .stop })
    ∧ ((poolAt s i).rlen ≠ 0 → exec .beginRead s = .next { s with sub := .read, out := outBus .rx })

/-- R180. `EV_TX_NACK` aborts the active transaction where a transmitted byte can be rejected; elsewhere it is
unexpected. -/
def Obligations.NackEventAborts : Prop :=
  (∀ data : Byte, decodeEv (0b011#3 ++ data) = .ok .evTxNack)
  ∧ ∀ s : State,
    (s.stage = .addressPhase ∨ (s.stage = .dataPhase ∧ (s.sub = .write ∨ s.sub = .reAddr)) →
      exec .evTxNack s = .next { s with err := s.err ||| 0x08, stage := .stopping, out := outBus .stop })
    ∧ (¬(s.stage = .addressPhase ∨ (s.stage = .dataPhase ∧ (s.sub = .write ∨ s.sub = .reAddr))) →
      exec .evTxNack s = .next { s with err := s.err ||| 0x20, out := Output.quiet })

/-- R185 to R187. `EV_RX`: count the byte, dispatch it with the bytes remaining, extend the read length in place
(saturating), and acknowledge; elsewhere it is unexpected. The dispatch is what `DISPATCH` by itself does. -/
def Obligations.ReceiveEventExtends : Prop :=
  (∀ data : Byte, decodeEv (0b100#3 ++ data) = .ok (.evRx data))
  ∧ ∀ (b : Byte) (s : State),
    (∀ (i : Nat) (u : State) (add : Half) (rlen : Nat),
      tablesWf s = true → s.stage = .dataPhase → s.sub = .read → s.active = some i → i < s.cfg.nslot →
      s.rcount.toNat + 1 ≤ (poolAt s i).rlen.toNat →
      exec (.dispatch (poolAt s i).addr b (BitVec.ofNat 16 ((poolAt s i).rlen.toNat - (s.rcount.toNat + 1))))
        { s with rcount := s.rcount + 1 } = .next u →
      u.out.ret = some (.add add) → rlen = min ((poolAt u i).rlen.toNat + add.toNat) 65535 →
      ∃ t, exec (.evRx b) s = .next t
        ∧ t = { u with
                  pool := t.pool
                  stage := if rlen ≤ s.rcount.toNat + 1 then .stopping else u.stage
                  out := { u.out with
                            bc := if rlen ≤ s.rcount.toNat + 1 then .nackStop else .ackRx
                            ret := none } }
        ∧ ∀ j, poolAt t j = if j = i then { poolAt u i with rlen := BitVec.ofNat 16 rlen } else poolAt u j)
    ∧ (¬(s.stage = .dataPhase ∧ s.sub = .read ∧ s.active.isSome = true) →
        exec (.evRx b) s = .next { s with err := s.err ||| 0x20, out := Output.quiet })

/-- R185, R188, R214. A byte from an address with no callback is counted, discarded and acknowledged. -/
def Obligations.ReceiveWithoutCallback : Prop :=
  ∀ (b : Byte) (s : State) (i : Nat),
    tablesWf s = true → s.stage = .dataPhase → s.sub = .read → s.active = some i → i < s.cfg.nslot →
    kindAt s (poolAt s i).addr = .none → s.rcount.toNat + 1 ≤ (poolAt s i).rlen.toNat →
    exec (.evRx b) s = .next
      { s with
        rcount := s.rcount + 1
        stage := if (poolAt s i).rlen.toNat = s.rcount.toNat + 1 then .stopping else .dataPhase
        out := outBus (if (poolAt s i).rlen.toNat = s.rcount.toNat + 1 then .nackStop else .ackRx) }

/-- R190. `EV_STOP`: release the active slot, then start the next transaction or go Idle; elsewhere it is unexpected. -/
def Obligations.StopEventReleases : Prop :=
  (∀ data : Byte, decodeEv (0b101#3 ++ data) = .ok .evStop)
  ∧ ∀ s : State, tablesWf s = true →
    (s.stage = .stopping → (∀ i, s.active = some i → i < s.cfg.nslot) →
      ∃ t, exec .evStop s = .next t
        ∧ t = { s with
                  used := t.used
                  active := none
                  stage := if s.qCount = 0 then .idle else .starting
                  out := outBus (if s.qCount = 0 then .none else .start) }
        ∧ ∀ j, usedAt t j = (decide (s.active ≠ some j) && usedAt s j))
    ∧ (s.stage ≠ .stopping → exec .evStop s = .next { s with err := s.err ||| 0x20, out := Output.quiet })

/-- R195. An event the position does not list, or with a reserved code, only raises PROTO. -/
def Obligations.UnexpectedEventIgnored : Prop :=
  (∀ w : PortWord, 6 ≤ (wordCode w).toNat → decodeEv w = .ok (.evReserved (wordCode w)))
  ∧ ∀ (i : Instr) (s : State), isEvent i = true → expectedAt s.stage s.sub i = false →
    exec i s = .next { s with err := s.err ||| 0x20, out := Output.quiet }

/-! ### Dispatch and framing -/

/-- R213, R214. `DISPATCH` asks the callback of the address; with none it returns 0 and changes nothing. -/
def Obligations.DispatchSelectsCallback : Prop :=
  (∀ addr b remaining, encodeIn (.dispatch addr b remaining) = none ∧ encodeBc (.dispatch addr b remaining) = none)
  ∧ ∀ (addr : BitVec 7) (b : Byte) (remaining : Half) (s : State),
    (kindAt s addr = .none → exec (.dispatch addr b remaining) s = .next { s with out := outRet (.add 0) })
    ∧ (kindAt s addr = .shtp → exec (.dispatch addr b remaining) s = exec (.shtpCb b remaining) s)

/-- R223. Byte 0 of a transfer is latched in `h0` and not stored; a transfer of one byte ends there with nothing delivered
(R234). -/
def Obligations.FirstByteIsLatched : Prop :=
  ∀ (b : Byte) (remaining : Half) (s : State), s.xfIdx = 0 →
    exec (.shtpCb b remaining) s = .next
      { s with h0 := b, xfIdx := if remaining = 0 then 0 else 1, out := outRet (.add 0) }

/-- R224, R226, R227, R232. Byte 1 in fresh mode: the buffer is emptied, the two length bytes are stored as received,
`frame_len` is the clamped length and the contribution is returned. More bytes are due, or are asked for. -/
def Obligations.FreshHeaderStartsFrame : Prop :=
  ∀ (b : Byte) (remaining : Half) (s : State) (claimed len : Nat),
    s.cfg.Valid → tablesWf s = true → s.xfIdx = 1 → ¬(b.getLsbD 7 = true ∧ s.rxCur ≠ 0) →
    claimed = (b.toNat % 128) * 256 + s.h0.toNat →
    len = (if s.cfg.rxcap < claimed then s.cfg.rxcap - 1 else claimed) → (remaining ≠ 0 ∨ 4 < len) →
    ∃ t, exec (.shtpCb b remaining) s = .next t
      ∧ t = { s with
                rxbuf := t.rxbuf
                rxCur := 2
                app := false
                frameLen := BitVec.ofNat 16 len
                xfIdx := 2
                err := if s.cfg.rxcap < claimed then s.err ||| 0x10 else s.err
                out := outRet (.add (BitVec.ofNat 16 (len - 4))) }
      ∧ rxAt t 0 = s.h0 ∧ rxAt t 1 = b ∧ ∀ k, 2 ≤ k → rxAt t k = rxAt s k

/-- R224, R226, R227. Byte 1 in append mode: nothing is stored, what is held stays, and `frame_len` is what is held plus the
announced payload, capped at the buffer. More bytes are due, or are asked for. -/
def Obligations.ContinuationHeaderAppends : Prop :=
  ∀ (b : Byte) (remaining : Half) (s : State) (claimed len : Nat),
    s.cfg.Valid → s.xfIdx = 1 → b.getLsbD 7 = true → s.rxCur ≠ 0 →
    claimed = (b.toNat % 128) * 256 + s.h0.toNat →
    len = (if s.cfg.rxcap < claimed then s.cfg.rxcap - 1 else claimed) → (remaining ≠ 0 ∨ 4 < len) →
    exec (.shtpCb b remaining) s = .next
      { s with
        app := true
        frameLen := BitVec.ofNat 16 (min (s.rxCur.toNat + (len - 4)) s.cfg.rxcap)
        xfIdx := 2
        err := if s.cfg.rxcap < claimed then s.err ||| 0x10 else s.err
        out := outRet (.add (BitVec.ofNat 16 (len - 4))) }

/-- R222, R225, R229. `SHTP_CB` has no encoding. Bytes 2 and 3 are stored in fresh mode and dropped in append mode, later
bytes are stored, and none asks for more; `STORE` by itself says what storing does. More bytes are due. -/
def Obligations.LaterBytesAreStored : Prop :=
  (∀ b remaining, encodeIn (.shtpCb b remaining) = none ∧ encodeBc (.shtpCb b remaining) = none)
  ∧ ∀ (b : Byte) (remaining : Half) (s : State), remaining ≠ 0 →
    (s.xfIdx = 2 ∨ s.xfIdx = 3 → s.app = true →
      exec (.shtpCb b remaining) s = .next { s with xfIdx := s.xfIdx + 1, out := outRet (.add 0) })
    ∧ (s.xfIdx = 2 ∨ s.xfIdx = 3 → s.app = false →
      ∃ u, exec (.store b) s = .next u
        ∧ exec (.shtpCb b remaining) s = .next { u with xfIdx := s.xfIdx + 1, out := outRet (.add 0) })
    ∧ (s.xfIdx = 4 →
      ∃ u, exec (.store b) s = .next u
        ∧ exec (.shtpCb b remaining) s = .next { u with out := outRet (.add 0) })

/-- R233, R234. The last byte of a transfer (none due, none asked for) does what it would do with a byte still due, then
delivers a complete frame, keeps an incomplete one, and leaves the next byte to be byte 0. A byte that asks for more is not
the last. -/
def Obligations.TransferEndDelivers : Prop :=
  ∀ (b : Byte) (s u : State), exec (.shtpCb b 1) s = .next u →
    (∀ add, u.out.ret = some (.add add) → add ≠ 0 → exec (.shtpCb b 0) s = .next u)
    ∧ (u.out.ret = some (.add 0) → ¬(s.xfIdx ≠ 0 ∧ u.frameLen ≤ u.rxCur) →
        exec (.shtpCb b 0) s = .next { u with xfIdx := 0 })
    ∧ (u.out.ret = some (.add 0) → s.xfIdx ≠ 0 → u.frameLen ≤ u.rxCur →
        ∀ v, exec .deliver u = .next v →
          exec (.shtpCb b 0) s = .next { v with xfIdx := 0, out := { v.out with ret := some (.add 0) } })

/-- R228. `STORE` writes at the cursor while there is room, else drops the byte and raises FrameOverflow. -/
def Obligations.StoreIsGuarded : Prop :=
  (∀ b, encodeIn (.store b) = none ∧ encodeBc (.store b) = none)
  ∧ ∀ (b : Byte) (s : State), tablesWf s = true →
    (s.rxCur.toNat < s.cfg.rxcap →
      ∃ t, exec (.store b) s = .next t
        ∧ t = { s with rxbuf := t.rxbuf, rxCur := s.rxCur + 1, out := Output.quiet }
        ∧ ∀ k, rxAt t k = if k = s.rxCur.toNat then b else rxAt s k)
    ∧ (s.cfg.rxcap ≤ s.rxCur.toNat →
      exec (.store b) s = .next { s with err := s.err ||| 0x10, out := Output.quiet })

/-- R235 to R237. `DELIVER`: the frame is what the buffer holds; SINK's descriptors go through ordinary `ENQ`s, which see
`awaiting` and the buffer as they were and kick no engine that is not Idle; then the buffer is emptied and `awaiting`
cleared. -/
def Obligations.DeliverHandsOver : Prop :=
  encodeIn .deliver = none ∧ encodeBc .deliver = none
  ∧ ∀ (s u : State) (answers : List Desc) (oks : List Bool) (f : Frame),
    s.rxCur.toNat ≤ s.cfg.rxcap → (s.stage ≠ .idle ∨ answers = []) → answers = s.sinkAnswers.headD [] →
    (oks, u) = runEnqs answers s → f.n = s.rxCur → f.bytes = (List.range s.rxCur.toNat).map (rxAt s) →
    exec .deliver s = .next
      { u with
        rxCur := 0
        frameLen := 0
        awaiting := false
        sinkAnswers := s.sinkAnswers.tail
        out := { Output.quiet with frame := some f, sinkResp := oks } }

/-! ### Bus commands and stops -/

/-- R99, R100. Each bus command as an operation emits its word and changes nothing else (log entry 13: the emission is the
model's reading of an output as an operation). -/
def Obligations.BusCommandsAreEmissions : Prop :=
  ∀ (s : State) (d : Byte),
    (exec .bcNone s = .next { s with out := outBus .none } ∧ busWord .none = 0x000#11)
    ∧ (exec .bcStart s = .next { s with out := outBus .start } ∧ busWord .start = 0x100#11)
    ∧ (exec (.bcTx d) s = .next { s with out := outBus (.tx d) } ∧ busWord (.tx d) = 0b010#3 ++ d)
    ∧ (exec .bcRx s = .next { s with out := outBus .rx } ∧ busWord .rx = 0x300#11)
    ∧ (exec .bcAckRx s = .next { s with out := outBus .ackRx } ∧ busWord .ackRx = 0x400#11)
    ∧ (exec .bcNackStop s = .next { s with out := outBus .nackStop } ∧ busWord .nackStop = 0x500#11)
    ∧ (exec .bcStop s = .next { s with out := outBus .stop } ∧ busWord .stop = 0x600#11)

/-- R100, R118. Command code `0b111` is never emitted; as an operation it is refused (log entry 12). -/
def Obligations.ReservedBusCommandRefused : Prop :=
  (∀ s : State, exec .bcReserved s = .refused .reservedBusCommand) ∧ ∀ c : BusCommand, wordCode (busWord c) ≠ 0b111

/-- Log entry 11 (the model's choice, for states that break the ranges of R21, R24, R30 and R36): an operation that reaches
for a slot outside the pool, or for a received byte past the receive buffer, faults. Log entry 28 (the model's choice for
states that break R30): a rule on the active transaction where there is none only raises PROTO. -/
def Obligations.MissingElementFaults : Prop :=
  ∀ (s : State) (b : Byte) (i : Nat),
    (s.cfg.nslot ≤ i → exec (.release i) s = .fault (.slotOutOfRange i))
    ∧ (s.stage = .starting → s.qCount ≠ 0 → fifoAt s s.qHead = i → s.cfg.nslot ≤ i →
        exec .evStart s = .fault (.slotOutOfRange i))
    ∧ (s.active = some i → s.cfg.nslot ≤ i →
        exec .writeNext s = .fault (.slotOutOfRange i) ∧ exec .beginRead s = .fault (.slotOutOfRange i)
        ∧ (s.stage = .dataPhase → s.sub = .reStart → exec .evStart s = .fault (.slotOutOfRange i))
        ∧ ((s.stage = .addressPhase ∧ (s.sub = .write ∨ s.sub = .read))
            ∨ (s.stage = .dataPhase ∧ (s.sub = .write ∨ s.sub = .reAddr)) →
          exec .evTxAck s = .fault (.slotOutOfRange i))
        ∧ (s.stage = .dataPhase → s.sub = .read → exec (.evRx b) s = .fault (.slotOutOfRange i))
        ∧ (s.stage = .stopping → exec .evStop s = .fault (.slotOutOfRange i)))
    ∧ (s.active = none →
        (∀ op : Instr, op = .writeNext ∨ op = .beginRead ∨ (op = .evStart ∧ s.stage = .dataPhase ∧ s.sub = .reStart) →
          exec op s = .next { s with err := s.err ||| 0x20, out := Output.quiet }))
    ∧ (s.cfg.rxcap < s.rxCur.toNat → exec .deliver s = .fault (.cursorOutOfRange s.rxCur))
    ∧ (∀ u, exec (.shtpCb b 1) s = .next u → u.out.ret = some (.add 0) → s.xfIdx ≠ 0 → u.frameLen ≤ u.rxCur →
        s.cfg.rxcap < u.rxCur.toNat → exec (.shtpCb b 0) s = .fault (.cursorOutOfRange u.rxCur))
    ∧ (∀ addr remaining f, kindAt s addr = .shtp → exec (.shtpCb b remaining) s = .fault f →
        exec (.dispatch addr b remaining) s = .fault f)
    ∧ (∀ f, s.stage = .dataPhase → s.sub = .read → s.active = some i → i < s.cfg.nslot →
        s.rcount.toNat + 1 ≤ (poolAt s i).rlen.toNat →
        exec (.dispatch (poolAt s i).addr b (BitVec.ofNat 16 ((poolAt s i).rlen.toNat - (s.rcount.toNat + 1))))
          { s with rcount := s.rcount + 1 } = .fault f →
        exec (.evRx b) s = .fault f)

/-! ### Encodings -/

/-- R91, R105, R107, R97, R100. Decoding what the encoder writes gives the operation back, with every operand at every value
it admits, and leaves the bytes that follow a host command. -/
def Obligations.DecodeEncode : Prop :=
  ∀ (c : Config) (i : Instr) (rest : List Byte), i.wf c = true →
    (∀ bytes, encodeIn i = some (.hc bytes) → decodeHc (bytes ++ rest) = .ok (i, rest))
    ∧ (∀ w, encodeIn i = some (.ev w) → decodeEv w = .ok i)
    ∧ (∀ w, encodeBc i = some w → decodeBc w = i)

/-- R92, R93, R106. The operands of `ENQ`, from any bytes: every pattern is accepted and `wlen` bytes are read before any
clamp. -/
def Obligations.EnqOperandAssembly : Prop :=
  ∀ (b0 b1 b2 b3 : Byte) (ws rest : List Byte), ws.length = b1.toNat →
    ∃ d : Desc, decodeHc (0x01 :: b0 :: b1 :: b2 :: b3 :: (ws ++ rest)) = .ok (.enq d, rest)
      ∧ d.addr.toNat = b0.toNat / 2 ∧ (d.dir = .read ↔ b0.toNat % 2 = 1)
      ∧ d.rlen.toNat = b3.toNat * 256 + b2.toNat ∧ d.wdata = ws ∧ d.wlen = b1

/-- R117. What is decoded is as long as the opcode (for `ENQ`, the third byte) says, and is well formed in every
configuration. -/
def Obligations.DecodedCommandLength : Prop :=
  ∀ (bytes rest : List Byte) (i : Instr), decodeHc bytes = .ok (i, rest) →
    (∃ pre, bytes = pre ++ rest ∧ pre.length = hcLength bytes) ∧ ∀ c : Config, i.wf c = true

/-- R106, R107, R94 and the code maps of R97, R100, R105: a few words of the spec, decoded. -/
def Obligations.SpecWordsDecode : Prop :=
  decodeHc [0x01, 0x95, 0x00, 0x04, 0x00]
    = .ok (.enq { addr := 0x4A, dir := .read, rlen := 4, wdata := [] }, [])
  ∧ decodeHc [0x01, 0xA0, 0x02, 0x02, 0x00, 0xAA, 0x55]
    = .ok (.enq { addr := 0x50, dir := .write, rlen := 2, wdata := [0xAA, 0x55] }, [])
  ∧ decodeHc [0x02, 0x4A, 0x01] = .ok (.regcb 0x4A 1, [])
  ∧ decodeEv 0x406#11 = .ok (.evRx 0x06) ∧ decodeEv 0x500#11 = .ok .evStop
  ∧ decodeBc 0x295#11 = .bcTx 0x95 ∧ decodeBc 0x500#11 = .bcNackStop

/-! ### The step -/

/-- R5, R12, R74. A step runs one operation, and the order of the operations is the environment's. That the order is a list of
pending inputs, of which a step takes the oldest and leaves the rest of a burst in front, is the model's choice (log
entry 1); so is that nothing pending, an idle EV word and an incomplete command are a quiet step, a quiet step and a refusal
(log entries 6 and 7). -/
def Obligations.StepRunsDecoded : Prop :=
  ∀ (s : State) (more : List InWord),
    (∀ bytes i rest, s.inbox = .hc bytes :: more → decodeHc bytes = .ok (i, rest) →
      step s = exec i { s with inbox := if rest = [] then more else .hc rest :: more })
    ∧ (∀ w i, s.inbox = .ev w :: more → decodeEv w = .ok i → step s = exec i { s with inbox := more })
    ∧ (s.inbox = [] → step s = .next { s with out := Output.quiet })
    ∧ (∀ w, s.inbox = .ev w :: more → decodeEv w = .error .noEvent →
      step s = .next { s with inbox := more, out := Output.quiet })
    ∧ (∀ bytes, s.inbox = .hc bytes :: more → decodeHc bytes = .error .incompleteCommand →
      step s = .refused .incompleteCommand)

/-! ### Invariants -/

/-- I1 to I8 of R49, the ranges of 10_state.md and the four clauses of log entry 23 (`addressSub`, `restartReads`,
`notYetRead`, `readingLeft`; DEDUCED) hold after reset, in every configuration of R6 to R8. That `writeBuffer` holds of every
slot leans on the model's choice that the pool reads zero at reset (log entry 5). -/
def Obligations.InvHoldsAtReset : Prop :=
  (∀ c : Config, c.Valid → (State.resetWith c).Inv) ∧ State.reset.Inv

/-- Every step keeps I1 to I8 of R49 with R25, R36 and the ranges of 10_state.md, and with them the four clauses of log entry
23 (DEDUCED from R28, R32, R176, R177, R185, R188): in AddressPhase `sub` is a direction (`addressSub`), a restart is
commanded only for a read (`restartReads`), nothing is received before the read sub-phase (`notYetRead`), and in it bytes
are still due (`readingLeft`). All of them are hypothesis and conclusion. -/
def Obligations.StepKeepsInv : Prop :=
  ∀ s t : State, s.Inv → step s = .next t → t.Inv

/-- R16, R130, R254. Under the invariants (log entry 23) every operation a port can carry completes, in every position. -/
def Obligations.PortOperationsComplete : Prop :=
  ∀ (i : Instr) (s : State), s.Inv → isPortOp i = true → ∃ t, exec i s = .next t

/-- R49, I4. The number of used slots. -/
def Obligations.UsedSlotsAreOwned : Prop :=
  ∀ s : State, s.Inv →
    usedCount s = s.qCount + (if s.active.isSome then 1 else 0) ∧ usedCount s ≤ s.cfg.qcap + 1
      ∧ usedCount s < s.cfg.nslot

/-- R49, I9. PROTO is raised by the events a position does not expect and by nothing else. -/
def Obligations.ProtoMarksBrokenHandshake : Prop :=
  ∀ (i : Instr) (s t : State), s.Inv → isPortOp i = true → i ≠ .reset → exec i s = .next t →
    flagSet t.err .proto = (flagSet s.err .proto || (isEvent i && !expectedAt s.stage s.sub i))

/-- R33, R102, R141, R317. A step that emits a bus command leaves the engine in a position that has that command outstanding;
a step that emits none leaves the position, or leaves the engine Idle. A command is emitted only by a completion event that
the position expects, the answer to the command before it, or by an `ENQ` that finds the engine Idle, with none outstanding:
so at most one is ever outstanding. -/
def Obligations.OneCommandOutstanding : Prop :=
  ∀ (i : Instr) (s t : State), s.Inv → isPortOp i = true → i ≠ .reset → exec i s = .next t →
    ((t.out.bc ≠ .none ∧ outstandingAt t.stage t.sub t.out.bc = true)
      ∨ (t.out.bc = .none ∧ ((t.stage = s.stage ∧ t.sub = s.sub) ∨ t.stage = .idle)))
    ∧ (t.out.bc ≠ .none →
        (isEvent i = true ∧ expectedAt s.stage s.sub i = true) ∨ ((∃ d, i = .enq d) ∧ s.stage = .idle))

/-- R26, R80, R143. A live descriptor is not changed, but for the active one's `rlen`, which only a byte received in the read
sub-phase changes, and only upwards. -/
def Obligations.LiveDescriptorsAreStable : Prop :=
  ∀ (i : Instr) (s t : State) (j : Nat), s.Inv → isPortOp i = true → i ≠ .reset → exec i s = .next t →
    (j ∈ queuedSlots s → poolAt t j = poolAt s j)
    ∧ (s.active = some j →
        poolAt t j = { poolAt s j with rlen := (poolAt t j).rlen } ∧ (poolAt s j).rlen ≤ (poolAt t j).rlen
        ∧ ((poolAt t j).rlen ≠ (poolAt s j).rlen → (∃ b, i = .evRx b) ∧ s.stage = .dataPhase ∧ s.sub = .read))

/-- R142, R143, R24. The queue is a FIFO: transactions are added at the end, only `EV_START` in Starting takes one, the
oldest, and makes it active. -/
def Obligations.QueueIsFifo : Prop :=
  ∀ (i : Instr) (s t : State), s.Inv → isPortOp i = true → i ≠ .reset → exec i s = .next t →
    ∃ new, queuedDescs t
        = (if i = .evStart ∧ s.stage = .starting then (queuedDescs s).tail else queuedDescs s) ++ new
      ∧ (i = .evStart → s.stage = .starting →
          ∃ a, t.active = some a ∧ (queuedDescs s).head? = some (poolAt t a))
      ∧ (∀ d, i = .enq d →
          new = if s.qCount < s.cfg.qcap then [cutDesc s.cfg.maxw d] else [])
      ∧ ((∀ d, i ≠ .enq d) → (∀ b, i ≠ .evRx b) → new = [])

/-! ### Rules about the whole machine -/

/-- R46. The flags of `err` other than POOL_FATAL gate nothing: a run of an operation on a state with other flags gives the
same state but for `err`. `STATUS` alone shows them. -/
def Obligations.DiagnosticFlagsGateNothing : Prop :=
  ∀ (i : Instr) (s t : State) (e : BitVec 8), i ≠ .status → flagSet e .poolFatal = flagSet s.err .poolFatal →
    exec i s = .next t →
    ∃ e', exec i { s with err := e } = .next { t with err := e' } ∧ flagSet e' .poolFatal = flagSet t.err .poolFatal

/-- R47, R300. A flag of `err`, once set, stays until `RESET`. -/
def Obligations.ErrorFlagsAreSticky : Prop :=
  ∀ (i : Instr) (s t : State) (k : ErrKind), i ≠ .reset → exec i s = .next t → flagSet s.err k = true →
    flagSet t.err k = true

/-- R75, R322. What host commands other than `RESET` can write; a completion event never writes the callback table. That no
operation, `RESET` included, changes the model's own fields `cfg` and `inbox` is no rule of the spec but the model's choice
(log entries 1, 2 and 27; R12 makes what is raised the environment's). -/
def Obligations.SingleWriter : Prop :=
  ∀ (i : Instr) (s t : State), exec i s = .next t →
    t.cfg = s.cfg ∧ t.inbox = s.inbox ∧ (isEvent i = true → t.cbtab = s.cbtab)
    ∧ (isHostCommand i = true → i ≠ .reset →
        t = { s with
                pool := t.pool
                used := t.used
                fifo := t.fifo
                qCount := t.qCount
                stage := t.stage
                cbtab := t.cbtab
                awaiting := t.awaiting
                err := t.err
                out := t.out }
        ∧ ((∀ d, i ≠ .enq d) → t.pool = s.pool ∧ t.used = s.used ∧ t.fifo = s.fifo ∧ t.qCount = s.qCount)
        ∧ (t.stage ≠ s.stage → (∃ d, i = .enq d) ∧ s.stage = .idle ∧ t.stage = .starting)
        ∧ (t.cbtab ≠ s.cbtab → ∃ addr kind, i = .regcb addr kind)
        ∧ (t.awaiting ≠ s.awaiting → i = .awaitSet))

/-- R241, R235. `awaiting` is cleared only by a delivery and by `RESET`, and every delivery clears it. -/
def Obligations.AwaitingClearedByDelivery : Prop :=
  ∀ (i : Instr) (s t : State), exec i s = .next t →
    (s.awaiting = true → t.awaiting = false → i = .reset ∨ t.out.frame.isSome = true)
    ∧ (t.out.frame.isSome = true → t.awaiting = false ∧ t.rxCur = 0 ∧ t.frameLen = 0)

/-! ### Transactions and frames end to end -/

/-- R103, R176. The write portion on the bus: after the address byte, every write byte in order, then a repeated start or a
stop, and nothing else is observed. -/
def Obligations.WriteSendsItsBytes : Prop :=
  ∀ (s : State) (i : Nat),
    s.stage = .addressPhase → s.sub = .write → s.active = some i → i < s.cfg.nslot → s.widx = 0 →
    observeOps (List.replicate ((poolAt s i).wlen.toNat + 1) .evTxAck) s
      = { bus := (poolAt s i).wdata.map BusCommand.tx ++ [if (poolAt s i).rlen = 0 then .stop else .start]
          responses := []
          frames := [] }

/-- R103, R188. A read whose address has no callback receives exactly `rlen` bytes: every byte but the last is acknowledged,
the last is answered by a negative acknowledge and the stop, and nothing else is observed. -/
def Obligations.ReadReceivesItsBytes : Prop :=
  ∀ (s : State) (i : Nat) (bs : List Byte),
    tablesWf s = true → s.stage = .dataPhase → s.sub = .read → s.active = some i → i < s.cfg.nslot →
    s.rcount = 0 → kindAt s (poolAt s i).addr = .none → bs ≠ [] → (poolAt s i).rlen.toNat = bs.length →
    runOps (bs.map .evRx) s = .next
      { s with rcount := (poolAt s i).rlen, stage := .stopping, out := outBus .nackStop }
    ∧ observeOps (bs.map .evRx) s
      = { bus := List.replicate (bs.length - 1) .ackRx ++ [.nackStop], responses := [], frames := [] }

/-- R230, R233, R235. A header read (a read of 4 bytes) from an address with the framing callback receives `max(len, 4)` bytes,
whatever length up to `RXCAP` its header announces, and delivers them once, at the last byte. Its header has no continuation
flag (a partial frame held is discarded, R232), or has one with nothing held (R224). -/
def Obligations.HeaderReadDeliversFrame : Prop :=
  ∀ (s : State) (i : Nat) (f : List Byte) (len flag : Nat),
    s.Inv → s.stage = .dataPhase → s.sub = .read → s.active = some i → (poolAt s i).rlen = 4 → s.rcount = 0 →
    kindAt s (poolAt s i).addr = .shtp → s.xfIdx = 0 →
    len ≤ s.cfg.rxcap → f.length = max len 4 → (flag = 0 ∨ (flag = 128 ∧ s.rxCur = 0)) →
    f.take 2 = [BitVec.ofNat 8 len, BitVec.ofNat 8 (len / 256 + flag)] →
    (∃ t, runOps (f.map .evRx) s = .next t ∧ t.stage = .stopping ∧ t.rcount.toNat = f.length
      ∧ t.awaiting = false ∧ t.rxCur = 0 ∧ t.xfIdx = 0)
    ∧ observeOps (f.map .evRx) s
      = { bus := List.replicate (f.length - 1) .ackRx ++ [.nackStop]
          responses := []
          frames := [{ n := BitVec.ofNat 16 f.length, bytes := f }] }

/-- R238, R226. A header read of a frame that announces more than `RXCAP` bytes receives `RXCAP - 1` bytes and delivers them,
with FrameOverflow raised. Its header has no continuation flag (a partial frame held is discarded, R232), or has one with
nothing held (R224). -/
def Obligations.OverlongFrameIsTruncated : Prop :=
  ∀ (s : State) (i : Nat) (f : List Byte) (len flag : Nat),
    s.Inv → s.stage = .dataPhase → s.sub = .read → s.active = some i → (poolAt s i).rlen = 4 → s.rcount = 0 →
    kindAt s (poolAt s i).addr = .shtp → s.xfIdx = 0 →
    s.cfg.rxcap < len → len < 32768 → f.length = s.cfg.rxcap - 1 → (flag = 0 ∨ (flag = 128 ∧ s.rxCur = 0)) →
    f.take 2 = [BitVec.ofNat 8 len, BitVec.ofNat 8 (len / 256 + flag)] →
    (∃ t, runOps (f.map .evRx) s = .next t ∧ t.stage = .stopping ∧ t.rcount.toNat = s.cfg.rxcap - 1
      ∧ flagSet t.err .ovf = true ∧ t.awaiting = false ∧ t.rxCur = 0 ∧ t.xfIdx = 0)
    ∧ observeOps (f.map .evRx) s
      = { bus := List.replicate (f.length - 1) .ackRx ++ [.nackStop]
          responses := []
          frames := [{ n := BitVec.ofNat 16 f.length, bytes := f }] }

/-- R239. Reassembly: a frame received in one transfer, or in a first transfer that ends after `k` bytes followed by a
continuation whose header announces the rest, is delivered once, with the same bytes. -/
def Obligations.SplitFrameReassembles : Prop :=
  ∀ (s : State) (f : List Byte) (k : Nat) (chan seq : Byte),
    s.cfg.Valid → tablesWf s = true → s.xfIdx = 0 → 4 ≤ k → k < f.length → f.length ≤ s.cfg.rxcap →
    f.take 2 = [BitVec.ofNat 8 f.length, BitVec.ofNat 8 (f.length / 256)] →
    (observeOps (transferOps f) s).frames = [{ n := BitVec.ofNat 16 f.length, bytes := f }]
    ∧ (observeOps
        (transferOps (f.take k)
          ++ transferOps
              ([BitVec.ofNat 8 (f.length - k + 4), BitVec.ofNat 8 (128 + (f.length - k + 4) / 256), chan, seq]
                ++ f.drop k)) s).frames
      = [{ n := BitVec.ofNat 16 f.length, bytes := f }]
end

