-- ==== Sys2Proof/Laws/Decode.lean ====
section
/-! SUPPORT. The bit fields of the encodings: what is put together is taken apart again. -/

namespace Sys2Proof

theorem extract_low {m n : Nat} (x : BitVec m) (y : BitVec n) : (x ++ y).extractLsb' 0 n = y := by
  ext i hi
  simp only [BitVec.getElem_extractLsb', Nat.zero_add, BitVec.getLsbD_append, hi, if_true, BitVec.getLsbD_eq_getElem]

theorem extract_high {m n : Nat} (x : BitVec m) (y : BitVec n) : (x ++ y).extractLsb' n m = x := by
  ext i hi
  simp only [BitVec.getElem_extractLsb', BitVec.getLsbD_append, Nat.not_lt.2 (Nat.le_add_right n i), if_false,
    Nat.add_sub_cancel_left, hi, BitVec.getLsbD_eq_getElem]

@[simp] theorem wordCode_portWord (c : BitVec 3) (d : Byte) : wordCode (portWord c d) = c := extract_high c d

@[simp] theorem wordData_portWord (c : BitVec 3) (d : Byte) : wordData (portWord c d) = d := extract_low c d

theorem portWord_eta (w : PortWord) : portWord (wordCode w) (wordData w) = w := by
  unfold portWord wordCode wordData
  ext i hi
  simp only [BitVec.getElem_append, BitVec.getElem_extractLsb']
  split
  · simp [BitVec.getLsbD_eq_getElem hi]
  · next h => simp [show 8 + (i - 8) = i by omega, BitVec.getLsbD_eq_getElem hi]

@[simp] theorem lowByte_half (lo hi : Byte) : lowByte (halfOfBytes lo hi) = lo := extract_low hi lo

@[simp] theorem highByte_half (lo hi : Byte) : highByte (halfOfBytes lo hi) = hi := extract_high hi lo

@[simp] theorem halfOfBytes_bytes (h : Half) : halfOfBytes (lowByte h) (highByte h) = h := by
  unfold highByte lowByte halfOfBytes
  ext i hi
  simp only [BitVec.getElem_append, BitVec.getElem_extractLsb']
  split
  · simp [BitVec.getLsbD_eq_getElem hi]
  · next h => simp [show 8 + (i - 8) = i by omega, BitVec.getLsbD_eq_getElem hi]

theorem halfOfBytes_toNat (lo hi : Byte) : (halfOfBytes lo hi).toNat = hi.toNat * 256 + lo.toNat := by
  unfold halfOfBytes
  have h1 := lo.isLt
  have h2 : hi.toNat <<< 8 = hi.toNat * 256 := by rw [Nat.shiftLeft_eq]
  rw [BitVec.toNat_append, ← Nat.shiftLeft_add_eq_or_of_lt h1, h2]

@[simp] theorem Dir.ofBit_bit (d : Dir) : Dir.ofBit d.bit = d := by cases d <;> rfl

@[simp] theorem addr_of_byte (a : BitVec 7) (b : BitVec 1) : (a ++ b).extractLsb' 1 7 = a := extract_high a b

@[simp] theorem bit_of_byte (a : BitVec 7) (b : BitVec 1) : (a ++ b).extractLsb' 0 1 = b := extract_low a b

end Sys2Proof
end

