-- ==== Sys2Proof/Laws/State.lean ====
section
/-! SUPPORT. One lemma per field per update of the state, each true by rfl, so that no later proof unfolds an update. -/

namespace Sys2Proof.Machine

variable (s : State)

/-! ### setPool -/

@[simp] theorem setPool_pool (i : Nat) (d : Desc) : (s.setPool i d).pool = tableSet Desc.zero s.pool i d := rfl
@[simp] theorem setPool_used (i : Nat) (d : Desc) : (s.setPool i d).used = s.used := rfl
@[simp] theorem setPool_fifo (i : Nat) (d : Desc) : (s.setPool i d).fifo = s.fifo := rfl
@[simp] theorem setPool_qHead (i : Nat) (d : Desc) : (s.setPool i d).qHead = s.qHead := rfl
@[simp] theorem setPool_qCount (i : Nat) (d : Desc) : (s.setPool i d).qCount = s.qCount := rfl
@[simp] theorem setPool_stage (i : Nat) (d : Desc) : (s.setPool i d).stage = s.stage := rfl
@[simp] theorem setPool_sub (i : Nat) (d : Desc) : (s.setPool i d).sub = s.sub := rfl
@[simp] theorem setPool_active (i : Nat) (d : Desc) : (s.setPool i d).active = s.active := rfl
@[simp] theorem setPool_widx (i : Nat) (d : Desc) : (s.setPool i d).widx = s.widx := rfl
@[simp] theorem setPool_rcount (i : Nat) (d : Desc) : (s.setPool i d).rcount = s.rcount := rfl
@[simp] theorem setPool_cbtab (i : Nat) (d : Desc) : (s.setPool i d).cbtab = s.cbtab := rfl
@[simp] theorem setPool_rxbuf (i : Nat) (d : Desc) : (s.setPool i d).rxbuf = s.rxbuf := rfl
@[simp] theorem setPool_rxCur (i : Nat) (d : Desc) : (s.setPool i d).rxCur = s.rxCur := rfl
@[simp] theorem setPool_xfIdx (i : Nat) (d : Desc) : (s.setPool i d).xfIdx = s.xfIdx := rfl
@[simp] theorem setPool_h0 (i : Nat) (d : Desc) : (s.setPool i d).h0 = s.h0 := rfl
@[simp] theorem setPool_app (i : Nat) (d : Desc) : (s.setPool i d).app = s.app := rfl
@[simp] theorem setPool_frameLen (i : Nat) (d : Desc) : (s.setPool i d).frameLen = s.frameLen := rfl
@[simp] theorem setPool_awaiting (i : Nat) (d : Desc) : (s.setPool i d).awaiting = s.awaiting := rfl
@[simp] theorem setPool_err (i : Nat) (d : Desc) : (s.setPool i d).err = s.err := rfl
@[simp] theorem setPool_cfg (i : Nat) (d : Desc) : (s.setPool i d).cfg = s.cfg := rfl
@[simp] theorem setPool_inbox (i : Nat) (d : Desc) : (s.setPool i d).inbox = s.inbox := rfl
@[simp] theorem setPool_sinkAnswers (i : Nat) (d : Desc) : (s.setPool i d).sinkAnswers = s.sinkAnswers := rfl
@[simp] theorem setPool_out (i : Nat) (d : Desc) : (s.setPool i d).out = s.out := rfl

/-! ### setUsed -/

@[simp] theorem setUsed_pool (i : Nat) (b : Bool) : (s.setUsed i b).pool = s.pool := rfl
@[simp] theorem setUsed_used (i : Nat) (b : Bool) : (s.setUsed i b).used = tableSet false s.used i b := rfl
@[simp] theorem setUsed_fifo (i : Nat) (b : Bool) : (s.setUsed i b).fifo = s.fifo := rfl
@[simp] theorem setUsed_qHead (i : Nat) (b : Bool) : (s.setUsed i b).qHead = s.qHead := rfl
@[simp] theorem setUsed_qCount (i : Nat) (b : Bool) : (s.setUsed i b).qCount = s.qCount := rfl
@[simp] theorem setUsed_stage (i : Nat) (b : Bool) : (s.setUsed i b).stage = s.stage := rfl
@[simp] theorem setUsed_sub (i : Nat) (b : Bool) : (s.setUsed i b).sub = s.sub := rfl
@[simp] theorem setUsed_active (i : Nat) (b : Bool) : (s.setUsed i b).active = s.active := rfl
@[simp] theorem setUsed_widx (i : Nat) (b : Bool) : (s.setUsed i b).widx = s.widx := rfl
@[simp] theorem setUsed_rcount (i : Nat) (b : Bool) : (s.setUsed i b).rcount = s.rcount := rfl
@[simp] theorem setUsed_cbtab (i : Nat) (b : Bool) : (s.setUsed i b).cbtab = s.cbtab := rfl
@[simp] theorem setUsed_rxbuf (i : Nat) (b : Bool) : (s.setUsed i b).rxbuf = s.rxbuf := rfl
@[simp] theorem setUsed_rxCur (i : Nat) (b : Bool) : (s.setUsed i b).rxCur = s.rxCur := rfl
@[simp] theorem setUsed_xfIdx (i : Nat) (b : Bool) : (s.setUsed i b).xfIdx = s.xfIdx := rfl
@[simp] theorem setUsed_h0 (i : Nat) (b : Bool) : (s.setUsed i b).h0 = s.h0 := rfl
@[simp] theorem setUsed_app (i : Nat) (b : Bool) : (s.setUsed i b).app = s.app := rfl
@[simp] theorem setUsed_frameLen (i : Nat) (b : Bool) : (s.setUsed i b).frameLen = s.frameLen := rfl
@[simp] theorem setUsed_awaiting (i : Nat) (b : Bool) : (s.setUsed i b).awaiting = s.awaiting := rfl
@[simp] theorem setUsed_err (i : Nat) (b : Bool) : (s.setUsed i b).err = s.err := rfl
@[simp] theorem setUsed_cfg (i : Nat) (b : Bool) : (s.setUsed i b).cfg = s.cfg := rfl
@[simp] theorem setUsed_inbox (i : Nat) (b : Bool) : (s.setUsed i b).inbox = s.inbox := rfl
@[simp] theorem setUsed_sinkAnswers (i : Nat) (b : Bool) : (s.setUsed i b).sinkAnswers = s.sinkAnswers := rfl
@[simp] theorem setUsed_out (i : Nat) (b : Bool) : (s.setUsed i b).out = s.out := rfl

/-! ### setFifo -/

@[simp] theorem setFifo_pool (i : Nat) (slot : Nat) : (s.setFifo i slot).pool = s.pool := rfl
@[simp] theorem setFifo_used (i : Nat) (slot : Nat) : (s.setFifo i slot).used = s.used := rfl
@[simp] theorem setFifo_fifo (i : Nat) (slot : Nat) : (s.setFifo i slot).fifo = tableSet 0 s.fifo i slot := rfl
@[simp] theorem setFifo_qHead (i : Nat) (slot : Nat) : (s.setFifo i slot).qHead = s.qHead := rfl
@[simp] theorem setFifo_qCount (i : Nat) (slot : Nat) : (s.setFifo i slot).qCount = s.qCount := rfl
@[simp] theorem setFifo_stage (i : Nat) (slot : Nat) : (s.setFifo i slot).stage = s.stage := rfl
@[simp] theorem setFifo_sub (i : Nat) (slot : Nat) : (s.setFifo i slot).sub = s.sub := rfl
@[simp] theorem setFifo_active (i : Nat) (slot : Nat) : (s.setFifo i slot).active = s.active := rfl
@[simp] theorem setFifo_widx (i : Nat) (slot : Nat) : (s.setFifo i slot).widx = s.widx := rfl
@[simp] theorem setFifo_rcount (i : Nat) (slot : Nat) : (s.setFifo i slot).rcount = s.rcount := rfl
@[simp] theorem setFifo_cbtab (i : Nat) (slot : Nat) : (s.setFifo i slot).cbtab = s.cbtab := rfl
@[simp] theorem setFifo_rxbuf (i : Nat) (slot : Nat) : (s.setFifo i slot).rxbuf = s.rxbuf := rfl
@[simp] theorem setFifo_rxCur (i : Nat) (slot : Nat) : (s.setFifo i slot).rxCur = s.rxCur := rfl
@[simp] theorem setFifo_xfIdx (i : Nat) (slot : Nat) : (s.setFifo i slot).xfIdx = s.xfIdx := rfl
@[simp] theorem setFifo_h0 (i : Nat) (slot : Nat) : (s.setFifo i slot).h0 = s.h0 := rfl
@[simp] theorem setFifo_app (i : Nat) (slot : Nat) : (s.setFifo i slot).app = s.app := rfl
@[simp] theorem setFifo_frameLen (i : Nat) (slot : Nat) : (s.setFifo i slot).frameLen = s.frameLen := rfl
@[simp] theorem setFifo_awaiting (i : Nat) (slot : Nat) : (s.setFifo i slot).awaiting = s.awaiting := rfl
@[simp] theorem setFifo_err (i : Nat) (slot : Nat) : (s.setFifo i slot).err = s.err := rfl
@[simp] theorem setFifo_cfg (i : Nat) (slot : Nat) : (s.setFifo i slot).cfg = s.cfg := rfl
@[simp] theorem setFifo_inbox (i : Nat) (slot : Nat) : (s.setFifo i slot).inbox = s.inbox := rfl
@[simp] theorem setFifo_sinkAnswers (i : Nat) (slot : Nat) : (s.setFifo i slot).sinkAnswers = s.sinkAnswers := rfl
@[simp] theorem setFifo_out (i : Nat) (slot : Nat) : (s.setFifo i slot).out = s.out := rfl

/-! ### setKind -/

@[simp] theorem setKind_pool (addr : BitVec 7) (k : Kind) : (s.setKind addr k).pool = s.pool := rfl
@[simp] theorem setKind_used (addr : BitVec 7) (k : Kind) : (s.setKind addr k).used = s.used := rfl
@[simp] theorem setKind_fifo (addr : BitVec 7) (k : Kind) : (s.setKind addr k).fifo = s.fifo := rfl
@[simp] theorem setKind_qHead (addr : BitVec 7) (k : Kind) : (s.setKind addr k).qHead = s.qHead := rfl
@[simp] theorem setKind_qCount (addr : BitVec 7) (k : Kind) : (s.setKind addr k).qCount = s.qCount := rfl
@[simp] theorem setKind_stage (addr : BitVec 7) (k : Kind) : (s.setKind addr k).stage = s.stage := rfl
@[simp] theorem setKind_sub (addr : BitVec 7) (k : Kind) : (s.setKind addr k).sub = s.sub := rfl
@[simp] theorem setKind_active (addr : BitVec 7) (k : Kind) : (s.setKind addr k).active = s.active := rfl
@[simp] theorem setKind_widx (addr : BitVec 7) (k : Kind) : (s.setKind addr k).widx = s.widx := rfl
@[simp] theorem setKind_rcount (addr : BitVec 7) (k : Kind) : (s.setKind addr k).rcount = s.rcount := rfl
@[simp] theorem setKind_cbtab (addr : BitVec 7) (k : Kind) : (s.setKind addr k).cbtab = tableSet Kind.none s.cbtab addr.toNat k := rfl
@[simp] theorem setKind_rxbuf (addr : BitVec 7) (k : Kind) : (s.setKind addr k).rxbuf = s.rxbuf := rfl
@[simp] theorem setKind_rxCur (addr : BitVec 7) (k : Kind) : (s.setKind addr k).rxCur = s.rxCur := rfl
@[simp] theorem setKind_xfIdx (addr : BitVec 7) (k : Kind) : (s.setKind addr k).xfIdx = s.xfIdx := rfl
@[simp] theorem setKind_h0 (addr : BitVec 7) (k : Kind) : (s.setKind addr k).h0 = s.h0 := rfl
@[simp] theorem setKind_app (addr : BitVec 7) (k : Kind) : (s.setKind addr k).app = s.app := rfl
@[simp] theorem setKind_frameLen (addr : BitVec 7) (k : Kind) : (s.setKind addr k).frameLen = s.frameLen := rfl
@[simp] theorem setKind_awaiting (addr : BitVec 7) (k : Kind) : (s.setKind addr k).awaiting = s.awaiting := rfl
@[simp] theorem setKind_err (addr : BitVec 7) (k : Kind) : (s.setKind addr k).err = s.err := rfl
@[simp] theorem setKind_cfg (addr : BitVec 7) (k : Kind) : (s.setKind addr k).cfg = s.cfg := rfl
@[simp] theorem setKind_inbox (addr : BitVec 7) (k : Kind) : (s.setKind addr k).inbox = s.inbox := rfl
@[simp] theorem setKind_sinkAnswers (addr : BitVec 7) (k : Kind) : (s.setKind addr k).sinkAnswers = s.sinkAnswers := rfl
@[simp] theorem setKind_out (addr : BitVec 7) (k : Kind) : (s.setKind addr k).out = s.out := rfl

/-! ### setRx -/

@[simp] theorem setRx_pool (i : Nat) (b : Byte) : (s.setRx i b).pool = s.pool := rfl
@[simp] theorem setRx_used (i : Nat) (b : Byte) : (s.setRx i b).used = s.used := rfl
@[simp] theorem setRx_fifo (i : Nat) (b : Byte) : (s.setRx i b).fifo = s.fifo := rfl
@[simp] theorem setRx_qHead (i : Nat) (b : Byte) : (s.setRx i b).qHead = s.qHead := rfl
@[simp] theorem setRx_qCount (i : Nat) (b : Byte) : (s.setRx i b).qCount = s.qCount := rfl
@[simp] theorem setRx_stage (i : Nat) (b : Byte) : (s.setRx i b).stage = s.stage := rfl
@[simp] theorem setRx_sub (i : Nat) (b : Byte) : (s.setRx i b).sub = s.sub := rfl
@[simp] theorem setRx_active (i : Nat) (b : Byte) : (s.setRx i b).active = s.active := rfl
@[simp] theorem setRx_widx (i : Nat) (b : Byte) : (s.setRx i b).widx = s.widx := rfl
@[simp] theorem setRx_rcount (i : Nat) (b : Byte) : (s.setRx i b).rcount = s.rcount := rfl
@[simp] theorem setRx_cbtab (i : Nat) (b : Byte) : (s.setRx i b).cbtab = s.cbtab := rfl
@[simp] theorem setRx_rxbuf (i : Nat) (b : Byte) : (s.setRx i b).rxbuf = Memory.write s.rxbuf i b := rfl
@[simp] theorem setRx_rxCur (i : Nat) (b : Byte) : (s.setRx i b).rxCur = s.rxCur := rfl
@[simp] theorem setRx_xfIdx (i : Nat) (b : Byte) : (s.setRx i b).xfIdx = s.xfIdx := rfl
@[simp] theorem setRx_h0 (i : Nat) (b : Byte) : (s.setRx i b).h0 = s.h0 := rfl
@[simp] theorem setRx_app (i : Nat) (b : Byte) : (s.setRx i b).app = s.app := rfl
@[simp] theorem setRx_frameLen (i : Nat) (b : Byte) : (s.setRx i b).frameLen = s.frameLen := rfl
@[simp] theorem setRx_awaiting (i : Nat) (b : Byte) : (s.setRx i b).awaiting = s.awaiting := rfl
@[simp] theorem setRx_err (i : Nat) (b : Byte) : (s.setRx i b).err = s.err := rfl
@[simp] theorem setRx_cfg (i : Nat) (b : Byte) : (s.setRx i b).cfg = s.cfg := rfl
@[simp] theorem setRx_inbox (i : Nat) (b : Byte) : (s.setRx i b).inbox = s.inbox := rfl
@[simp] theorem setRx_sinkAnswers (i : Nat) (b : Byte) : (s.setRx i b).sinkAnswers = s.sinkAnswers := rfl
@[simp] theorem setRx_out (i : Nat) (b : Byte) : (s.setRx i b).out = s.out := rfl

/-! ### beginStep -/

@[simp] theorem beginStep_pool : (s.beginStep).pool = s.pool := rfl
@[simp] theorem beginStep_used : (s.beginStep).used = s.used := rfl
@[simp] theorem beginStep_fifo : (s.beginStep).fifo = s.fifo := rfl
@[simp] theorem beginStep_qHead : (s.beginStep).qHead = s.qHead := rfl
@[simp] theorem beginStep_qCount : (s.beginStep).qCount = s.qCount := rfl
@[simp] theorem beginStep_stage : (s.beginStep).stage = s.stage := rfl
@[simp] theorem beginStep_sub : (s.beginStep).sub = s.sub := rfl
@[simp] theorem beginStep_active : (s.beginStep).active = s.active := rfl
@[simp] theorem beginStep_widx : (s.beginStep).widx = s.widx := rfl
@[simp] theorem beginStep_rcount : (s.beginStep).rcount = s.rcount := rfl
@[simp] theorem beginStep_cbtab : (s.beginStep).cbtab = s.cbtab := rfl
@[simp] theorem beginStep_rxbuf : (s.beginStep).rxbuf = s.rxbuf := rfl
@[simp] theorem beginStep_rxCur : (s.beginStep).rxCur = s.rxCur := rfl
@[simp] theorem beginStep_xfIdx : (s.beginStep).xfIdx = s.xfIdx := rfl
@[simp] theorem beginStep_h0 : (s.beginStep).h0 = s.h0 := rfl
@[simp] theorem beginStep_app : (s.beginStep).app = s.app := rfl
@[simp] theorem beginStep_frameLen : (s.beginStep).frameLen = s.frameLen := rfl
@[simp] theorem beginStep_awaiting : (s.beginStep).awaiting = s.awaiting := rfl
@[simp] theorem beginStep_err : (s.beginStep).err = s.err := rfl
@[simp] theorem beginStep_cfg : (s.beginStep).cfg = s.cfg := rfl
@[simp] theorem beginStep_inbox : (s.beginStep).inbox = s.inbox := rfl
@[simp] theorem beginStep_sinkAnswers : (s.beginStep).sinkAnswers = s.sinkAnswers := rfl
@[simp] theorem beginStep_out : (s.beginStep).out = Output.quiet := rfl

/-! ### emit -/

@[simp] theorem emit_pool (c : BusCommand) : (s.emit c).pool = s.pool := rfl
@[simp] theorem emit_used (c : BusCommand) : (s.emit c).used = s.used := rfl
@[simp] theorem emit_fifo (c : BusCommand) : (s.emit c).fifo = s.fifo := rfl
@[simp] theorem emit_qHead (c : BusCommand) : (s.emit c).qHead = s.qHead := rfl
@[simp] theorem emit_qCount (c : BusCommand) : (s.emit c).qCount = s.qCount := rfl
@[simp] theorem emit_stage (c : BusCommand) : (s.emit c).stage = s.stage := rfl
@[simp] theorem emit_sub (c : BusCommand) : (s.emit c).sub = s.sub := rfl
@[simp] theorem emit_active (c : BusCommand) : (s.emit c).active = s.active := rfl
@[simp] theorem emit_widx (c : BusCommand) : (s.emit c).widx = s.widx := rfl
@[simp] theorem emit_rcount (c : BusCommand) : (s.emit c).rcount = s.rcount := rfl
@[simp] theorem emit_cbtab (c : BusCommand) : (s.emit c).cbtab = s.cbtab := rfl
@[simp] theorem emit_rxbuf (c : BusCommand) : (s.emit c).rxbuf = s.rxbuf := rfl
@[simp] theorem emit_rxCur (c : BusCommand) : (s.emit c).rxCur = s.rxCur := rfl
@[simp] theorem emit_xfIdx (c : BusCommand) : (s.emit c).xfIdx = s.xfIdx := rfl
@[simp] theorem emit_h0 (c : BusCommand) : (s.emit c).h0 = s.h0 := rfl
@[simp] theorem emit_app (c : BusCommand) : (s.emit c).app = s.app := rfl
@[simp] theorem emit_frameLen (c : BusCommand) : (s.emit c).frameLen = s.frameLen := rfl
@[simp] theorem emit_awaiting (c : BusCommand) : (s.emit c).awaiting = s.awaiting := rfl
@[simp] theorem emit_err (c : BusCommand) : (s.emit c).err = s.err := rfl
@[simp] theorem emit_cfg (c : BusCommand) : (s.emit c).cfg = s.cfg := rfl
@[simp] theorem emit_inbox (c : BusCommand) : (s.emit c).inbox = s.inbox := rfl
@[simp] theorem emit_sinkAnswers (c : BusCommand) : (s.emit c).sinkAnswers = s.sinkAnswers := rfl
@[simp] theorem emit_out (c : BusCommand) : (s.emit c).out = { s.out with bc := c } := rfl

/-! ### respond -/

@[simp] theorem respond_pool (r : Response) : (s.respond r).pool = s.pool := rfl
@[simp] theorem respond_used (r : Response) : (s.respond r).used = s.used := rfl
@[simp] theorem respond_fifo (r : Response) : (s.respond r).fifo = s.fifo := rfl
@[simp] theorem respond_qHead (r : Response) : (s.respond r).qHead = s.qHead := rfl
@[simp] theorem respond_qCount (r : Response) : (s.respond r).qCount = s.qCount := rfl
@[simp] theorem respond_stage (r : Response) : (s.respond r).stage = s.stage := rfl
@[simp] theorem respond_sub (r : Response) : (s.respond r).sub = s.sub := rfl
@[simp] theorem respond_active (r : Response) : (s.respond r).active = s.active := rfl
@[simp] theorem respond_widx (r : Response) : (s.respond r).widx = s.widx := rfl
@[simp] theorem respond_rcount (r : Response) : (s.respond r).rcount = s.rcount := rfl
@[simp] theorem respond_cbtab (r : Response) : (s.respond r).cbtab = s.cbtab := rfl
@[simp] theorem respond_rxbuf (r : Response) : (s.respond r).rxbuf = s.rxbuf := rfl
@[simp] theorem respond_rxCur (r : Response) : (s.respond r).rxCur = s.rxCur := rfl
@[simp] theorem respond_xfIdx (r : Response) : (s.respond r).xfIdx = s.xfIdx := rfl
@[simp] theorem respond_h0 (r : Response) : (s.respond r).h0 = s.h0 := rfl
@[simp] theorem respond_app (r : Response) : (s.respond r).app = s.app := rfl
@[simp] theorem respond_frameLen (r : Response) : (s.respond r).frameLen = s.frameLen := rfl
@[simp] theorem respond_awaiting (r : Response) : (s.respond r).awaiting = s.awaiting := rfl
@[simp] theorem respond_err (r : Response) : (s.respond r).err = s.err := rfl
@[simp] theorem respond_cfg (r : Response) : (s.respond r).cfg = s.cfg := rfl
@[simp] theorem respond_inbox (r : Response) : (s.respond r).inbox = s.inbox := rfl
@[simp] theorem respond_sinkAnswers (r : Response) : (s.respond r).sinkAnswers = s.sinkAnswers := rfl
@[simp] theorem respond_out (r : Response) : (s.respond r).out = { s.out with resp := some r } := rfl

/-! ### returnValue -/

@[simp] theorem returnValue_pool (r : PrimResult) : (s.returnValue r).pool = s.pool := rfl
@[simp] theorem returnValue_used (r : PrimResult) : (s.returnValue r).used = s.used := rfl
@[simp] theorem returnValue_fifo (r : PrimResult) : (s.returnValue r).fifo = s.fifo := rfl
@[simp] theorem returnValue_qHead (r : PrimResult) : (s.returnValue r).qHead = s.qHead := rfl
@[simp] theorem returnValue_qCount (r : PrimResult) : (s.returnValue r).qCount = s.qCount := rfl
@[simp] theorem returnValue_stage (r : PrimResult) : (s.returnValue r).stage = s.stage := rfl
@[simp] theorem returnValue_sub (r : PrimResult) : (s.returnValue r).sub = s.sub := rfl
@[simp] theorem returnValue_active (r : PrimResult) : (s.returnValue r).active = s.active := rfl
@[simp] theorem returnValue_widx (r : PrimResult) : (s.returnValue r).widx = s.widx := rfl
@[simp] theorem returnValue_rcount (r : PrimResult) : (s.returnValue r).rcount = s.rcount := rfl
@[simp] theorem returnValue_cbtab (r : PrimResult) : (s.returnValue r).cbtab = s.cbtab := rfl
@[simp] theorem returnValue_rxbuf (r : PrimResult) : (s.returnValue r).rxbuf = s.rxbuf := rfl
@[simp] theorem returnValue_rxCur (r : PrimResult) : (s.returnValue r).rxCur = s.rxCur := rfl
@[simp] theorem returnValue_xfIdx (r : PrimResult) : (s.returnValue r).xfIdx = s.xfIdx := rfl
@[simp] theorem returnValue_h0 (r : PrimResult) : (s.returnValue r).h0 = s.h0 := rfl
@[simp] theorem returnValue_app (r : PrimResult) : (s.returnValue r).app = s.app := rfl
@[simp] theorem returnValue_frameLen (r : PrimResult) : (s.returnValue r).frameLen = s.frameLen := rfl
@[simp] theorem returnValue_awaiting (r : PrimResult) : (s.returnValue r).awaiting = s.awaiting := rfl
@[simp] theorem returnValue_err (r : PrimResult) : (s.returnValue r).err = s.err := rfl
@[simp] theorem returnValue_cfg (r : PrimResult) : (s.returnValue r).cfg = s.cfg := rfl
@[simp] theorem returnValue_inbox (r : PrimResult) : (s.returnValue r).inbox = s.inbox := rfl
@[simp] theorem returnValue_sinkAnswers (r : PrimResult) : (s.returnValue r).sinkAnswers = s.sinkAnswers := rfl
@[simp] theorem returnValue_out (r : PrimResult) : (s.returnValue r).out = { s.out with ret := some r } := rfl

/-! ### raise -/

@[simp] theorem raise_pool (k : ErrKind) : (s.raise k).pool = s.pool := rfl
@[simp] theorem raise_used (k : ErrKind) : (s.raise k).used = s.used := rfl
@[simp] theorem raise_fifo (k : ErrKind) : (s.raise k).fifo = s.fifo := rfl
@[simp] theorem raise_qHead (k : ErrKind) : (s.raise k).qHead = s.qHead := rfl
@[simp] theorem raise_qCount (k : ErrKind) : (s.raise k).qCount = s.qCount := rfl
@[simp] theorem raise_stage (k : ErrKind) : (s.raise k).stage = s.stage := rfl
@[simp] theorem raise_sub (k : ErrKind) : (s.raise k).sub = s.sub := rfl
@[simp] theorem raise_active (k : ErrKind) : (s.raise k).active = s.active := rfl
@[simp] theorem raise_widx (k : ErrKind) : (s.raise k).widx = s.widx := rfl
@[simp] theorem raise_rcount (k : ErrKind) : (s.raise k).rcount = s.rcount := rfl
@[simp] theorem raise_cbtab (k : ErrKind) : (s.raise k).cbtab = s.cbtab := rfl
@[simp] theorem raise_rxbuf (k : ErrKind) : (s.raise k).rxbuf = s.rxbuf := rfl
@[simp] theorem raise_rxCur (k : ErrKind) : (s.raise k).rxCur = s.rxCur := rfl
@[simp] theorem raise_xfIdx (k : ErrKind) : (s.raise k).xfIdx = s.xfIdx := rfl
@[simp] theorem raise_h0 (k : ErrKind) : (s.raise k).h0 = s.h0 := rfl
@[simp] theorem raise_app (k : ErrKind) : (s.raise k).app = s.app := rfl
@[simp] theorem raise_frameLen (k : ErrKind) : (s.raise k).frameLen = s.frameLen := rfl
@[simp] theorem raise_awaiting (k : ErrKind) : (s.raise k).awaiting = s.awaiting := rfl
@[simp] theorem raise_err (k : ErrKind) : (s.raise k).err = s.err ||| errMask k := rfl
@[simp] theorem raise_cfg (k : ErrKind) : (s.raise k).cfg = s.cfg := rfl
@[simp] theorem raise_inbox (k : ErrKind) : (s.raise k).inbox = s.inbox := rfl
@[simp] theorem raise_sinkAnswers (k : ErrKind) : (s.raise k).sinkAnswers = s.sinkAnswers := rfl
@[simp] theorem raise_out (k : ErrKind) : (s.raise k).out = s.out := rfl

end Sys2Proof.Machine
end

