-- ==== Sys2Proof/Laws/Table.lean ====
section
/-! SUPPORT. The laws of the storage arrays: reading after writing, and that every write keeps the canonical form. -/

namespace Sys2Proof.Machine

variable {α : Type} [DecidableEq α] {d : α}

omit [DecidableEq α] in
@[simp] theorem tableGet_nil (i : Nat) : tableGet d [] i = d := rfl

omit [DecidableEq α] in
theorem tableGet_cons (k : Nat) (v : α) (t : Table α) (i : Nat) :
    tableGet d ((k, v) :: t) i = if k = i then v else tableGet d t i := rfl

theorem tableWfFrom_cons (lo k : Nat) (v : α) (t : Table α) :
    tableWfFrom d lo ((k, v) :: t) = true ↔ lo ≤ k ∧ v ≠ d ∧ tableWfFrom d (k + 1) t = true := by
  simp [tableWfFrom, and_assoc]

theorem tableWfFrom_mono {lo lo' : Nat} (h : lo' ≤ lo) :
    ∀ {t : Table α}, tableWfFrom d lo t = true → tableWfFrom d lo' t = true
  | [], _ => rfl
  | (k, v) :: t, ht => by
    rw [tableWfFrom_cons] at ht ⊢
    exact ⟨h.trans ht.1, ht.2⟩

/-- A canonical array that starts above `i` reads as its default at `i`. -/
theorem tableGet_below : ∀ {t : Table α} {lo i : Nat}, tableWfFrom d lo t = true → i < lo → tableGet d t i = d
  | [], _, _, _, _ => rfl
  | (k, v) :: t, lo, i, h, hi => by
    rw [tableWfFrom_cons] at h
    rw [tableGet_cons, if_neg (by omega)]
    exact tableGet_below h.2.2 (by omega)

/-- A write leaves every other element alone. -/
theorem tableGet_set_ne {i j : Nat} (hij : j ≠ i) (v : α) :
    ∀ t : Table α, tableGet d (tableSet d t i v) j = tableGet d t j
  | [] => by
    unfold tableSet
    split <;> simp [tableGet_cons, hij.symm]
  | (k, w) :: t => by
    unfold tableSet
    split
    · split <;> simp [tableGet_cons, hij.symm]
    · split
      · next hk => split <;> simp [tableGet_cons, hij.symm, ← hk]
      · simp only [tableGet_cons, tableGet_set_ne hij v t]

/-- A read after a write to the same element gives the value written. -/
theorem tableGet_set_self {i : Nat} (v : α) :
    ∀ {t : Table α} {lo : Nat}, tableWfFrom d lo t = true → tableGet d (tableSet d t i v) i = v
  | [], _, _ => by
    unfold tableSet
    split <;> simp_all [tableGet_cons]
  | (k, w) :: t, lo, h => by
    rw [tableWfFrom_cons] at h
    unfold tableSet
    split
    · next hk =>
      split
      · next hv => rw [tableGet_cons, if_neg (by omega), tableGet_below h.2.2 (by omega), hv]
      · simp [tableGet_cons]
    · split
      · next hk =>
        split
        · next hv => rw [tableGet_below h.2.2 (by omega), hv]
        · simp [tableGet_cons]
      · rw [tableGet_cons, if_neg (by omega), tableGet_set_self v h.2.2]

theorem tableGet_set {t : Table α} (h : tableWf d t = true) (i j : Nat) (v : α) :
    tableGet d (tableSet d t i v) j = if j = i then v else tableGet d t j := by
  split
  · next hj => rw [hj, tableGet_set_self v h]
  · next hj => rw [tableGet_set_ne hj]

theorem tableSet_wfFrom {i : Nat} (v : α) :
    ∀ {t : Table α} {lo : Nat}, lo ≤ i → tableWfFrom d lo t = true → tableWfFrom d lo (tableSet d t i v) = true
  | [], lo, hi, _ => by
    unfold tableSet
    split
    · rfl
    · next hv => simpa [tableWfFrom_cons, hv, tableWfFrom] using hi
  | (k, w) :: t, lo, hi, h => by
    have h' := (tableWfFrom_cons lo k w t).1 h
    unfold tableSet
    split
    · next hk =>
      split
      · exact h
      · next hv =>
        rw [tableWfFrom_cons, tableWfFrom_cons]
        exact ⟨hi, hv, by omega, h'.2⟩
    · split
      · next hk =>
        split
        · exact tableWfFrom_mono (by omega) h'.2.2
        · next hv =>
          rw [tableWfFrom_cons, hk]
          exact ⟨h'.1, hv, h'.2.2⟩
      · rw [tableWfFrom_cons]
        exact ⟨h'.1, h'.2.1, tableSet_wfFrom v (by omega) h'.2.2⟩

/-- Every write keeps the canonical form. -/
theorem tableSet_wf {t : Table α} (h : tableWf d t = true) (i : Nat) (v : α) : tableWf d (tableSet d t i v) = true :=
  tableSet_wfFrom v (Nat.zero_le i) h

/-- Writing what is already there changes nothing. -/
theorem tableSet_get_self : ∀ {t : Table α} {lo : Nat} (i : Nat), tableWfFrom d lo t = true →
    tableSet d t i (tableGet d t i) = t
  | [], _, _, _ => by simp [tableSet]
  | (k, w) :: t, lo, i, h => by
    rw [tableWfFrom_cons] at h
    unfold tableSet
    rw [tableGet_cons]
    split
    · next hk =>
      have hne : ¬k = i := by omega
      have hd : tableGet d t i = d := tableGet_below h.2.2 (by omega)
      simp [hne, hd]
    · split
      · next hk =>
        rw [if_pos hk.symm, if_neg h.2.1, hk]
      · next hk =>
        rw [if_neg (Ne.symm hk), tableSet_get_self i h.2.2]

/-- Two canonical arrays that read alike everywhere are equal. -/
theorem table_ext : ∀ {t u : Table α} {lo : Nat}, tableWfFrom d lo t = true → tableWfFrom d lo u = true →
    (∀ i, tableGet d t i = tableGet d u i) → t = u
  | [], [], _, _, _, _ => rfl
  | [], (k, v) :: u, _, _, hu, h => by
    have := h k
    rw [tableWfFrom_cons] at hu
    simp only [tableGet_nil, tableGet_cons, if_true] at this
    exact absurd this.symm hu.2.1
  | (k, v) :: t, [], _, ht, _, h => by
    have := h k
    rw [tableWfFrom_cons] at ht
    simp only [tableGet_nil, tableGet_cons, if_true] at this
    exact absurd this ht.2.1
  | (k, v) :: t, (l, w) :: u, lo, ht, hu, h => by
    rw [tableWfFrom_cons] at ht hu
    have hk := h k
    have hl := h l
    simp only [tableGet_cons, if_true] at hk hl
    have hkl : k = l := by
      by_contra hne
      rcases Nat.lt_or_gt_of_ne hne with hlt | hgt
      · rw [if_neg (by omega), tableGet_below hu.2.2 (by omega)] at hk
        exact ht.2.1 hk
      · rw [if_neg (by omega), tableGet_below ht.2.2 (by omega)] at hl
        exact hu.2.1 hl.symm
    subst hkl
    simp only [if_true] at hk
    subst hk
    rw [table_ext ht.2.2 hu.2.2 fun i => by
      by_cases hi : i < k + 1
      · rw [tableGet_below ht.2.2 hi, tableGet_below hu.2.2 hi]
      · have := h i
        rwa [tableGet_cons, tableGet_cons, if_neg (by omega), if_neg (by omega)] at this]

/-- Keeping only some entries keeps the canonical form. -/
theorem tableFilter_wfFrom (p : Nat × α → Bool) :
    ∀ {t : Table α} {lo : Nat}, tableWfFrom d lo t = true → tableWfFrom d lo (t.filter p) = true
  | [], _, _ => rfl
  | (k, v) :: t, lo, h => by
    rw [tableWfFrom_cons] at h
    rw [List.filter_cons]
    split
    · rw [tableWfFrom_cons]
      exact ⟨h.1, h.2.1, tableFilter_wfFrom p h.2.2⟩
    · exact tableWfFrom_mono (by omega) (tableFilter_wfFrom p h.2.2)

omit [DecidableEq α] in
/-- Keeping the entries whose keys satisfy `p`: the others read as the default. -/
theorem tableGet_filter (p : Nat → Bool) (i : Nat) :
    ∀ t : Table α, tableGet d (t.filter fun e => p e.1) i = if p i then tableGet d t i else d
  | [] => by simp
  | (k, v) :: t => by
    have ih := tableGet_filter p i t
    rw [List.filter_cons]
    by_cases hk : k = i
    · subst hk
      by_cases hp : p k
      · simp [hp, tableGet_cons]
      · simp only [hp, Bool.false_eq_true, if_false] at ih ⊢
        exact ih
    · by_cases hp : p k
      · simp [hp, tableGet_cons, hk, ih]
      · simp [hp, tableGet_cons, hk, ih]

/-- The elements written after a write are the new one and old ones. -/
theorem tableSet_mem {i : Nat} {v : α} {e : Nat × α} :
    ∀ {t : Table α}, e ∈ tableSet d t i v → e = (i, v) ∨ e ∈ t
  | [], h => by
    unfold tableSet at h
    split at h <;> simp_all
  | (k, w) :: t, h => by
    unfold tableSet at h
    split at h
    · split at h
      · exact .inr h
      · simpa using h
    · split at h
      · split at h
        · exact .inr (by simp [h])
        · simp only [List.mem_cons] at h ⊢
          rcases h with h | h
          · exact .inl h
          · exact .inr (.inr h)
      · simp only [List.mem_cons] at h ⊢
        rcases h with h | h
        · exact .inr (.inl h)
        · rcases tableSet_mem h with h | h
          · exact .inl h
          · exact .inr (.inr h)

/-! ### The receive buffer -/

theorem Memory.write_wf {m : Memory} (h : m.wf = true) (i : Nat) (b : Byte) : (m.write i b).wf = true :=
  tableSet_wf h i b

theorem Memory.read_write {m : Memory} (h : m.wf = true) (i j : Nat) (b : Byte) :
    (m.write i b).read j = if j = i then b else m.read j := tableGet_set h i j b

theorem Memory.read_write_ne (m : Memory) {i j : Nat} (h : j ≠ i) (b : Byte) : (m.write i b).read j = m.read j :=
  tableGet_set_ne h b m

theorem Memory.write_bound {m : Memory} {n i : Nat} {b : Byte} (hi : i < n) (h : ∀ e ∈ m, e.1 < n) :
    ∀ e ∈ m.write i b, e.1 < n := by
  intro e he
  rcases tableSet_mem he with rfl | he
  · exact hi
  · exact h e he

end Sys2Proof.Machine
end

