-- ==== Sys2Proof/Laws/Queue.lean ====
section
/-! SUPPORT. What each operation of the queue can do, said once (40_queue_ops.md). -/

namespace Sys2Proof.Machine

variable (s : State)

/-! ### Reading a storage array after a write -/

theorem usedAt_setUsed_ne {i j : Nat} (h : j ≠ i) (b : Bool) : usedAt (s.setUsed i b) j = usedAt s j :=
  tableGet_set_ne h b s.used

theorem usedAt_setUsed {s : State} (h : tableWf false s.used = true) (i j : Nat) (b : Bool) :
    usedAt (s.setUsed i b) j = if j = i then b else usedAt s j := tableGet_set h i j b

/-- A slot marked used reads as used, whatever the form of the array. -/
theorem usedAt_setUsed_true (i : Nat) : usedAt (s.setUsed i true) i = true := by
  have : ∀ t : Table Bool, tableGet false (tableSet false t i true) i = true := by
    intro t
    induction t with
    | nil => simp [tableSet, tableGet]
    | cons e t ih =>
      unfold tableSet
      split
      · simp [tableGet]
      · split
        · simp [tableGet]
        · simp only [tableGet]
          split
          · omega
          · exact ih
  exact this s.used

theorem poolAt_setPool_ne {i j : Nat} (h : j ≠ i) (d : Desc) : poolAt (s.setPool i d) j = poolAt s j :=
  tableGet_set_ne h d s.pool

theorem poolAt_setPool {s : State} (h : tableWf Desc.zero s.pool = true) (i j : Nat) (d : Desc) :
    poolAt (s.setPool i d) j = if j = i then d else poolAt s j := tableGet_set h i j d

theorem fifoAt_setFifo_ne {i j : Nat} (h : j ≠ i) (slot : Nat) : fifoAt (s.setFifo i slot) j = fifoAt s j :=
  tableGet_set_ne h slot s.fifo

theorem fifoAt_setFifo {s : State} (h : tableWf 0 s.fifo = true) (i j slot : Nat) :
    fifoAt (s.setFifo i slot) j = if j = i then slot else fifoAt s j := tableGet_set h i j slot

theorem kindAt_setKind {s : State} (h : tableWf Kind.none s.cbtab = true) (a b : BitVec 7) (k : Kind) :
    kindAt (s.setKind a k) b = if b = a then k else kindAt s b := by
  unfold kindAt
  rw [setKind_cbtab, tableGet_set h]
  simp only [BitVec.toNat_inj]

/-! ### ALLOC, RECLAIM, PUSH, DEQ, RELEASE -/

/-- All `ALLOC` can do (R131). -/
theorem alloc_cases :
    (∃ i, i < s.cfg.nslot ∧ usedAt s i = false ∧ (∀ j < i, usedAt s j = true) ∧ alloc s = (some i, s.setUsed i true)) ∨
    ((∀ j < s.cfg.nslot, usedAt s j = true) ∧ alloc s = (none, s)) := by
  unfold alloc
  cases hf : (List.range s.cfg.nslot).find? (fun i => !usedAt s i) with
  | none =>
    right
    rw [List.find?_range_eq_none] at hf
    exact ⟨fun j hj => by simpa using hf j hj, rfl⟩
  | some i =>
    left
    rw [List.find?_range_eq_some] at hf
    obtain ⟨hu, hi, hl⟩ := hf
    exact ⟨i, by simpa using hi, by simpa using hu, fun j hj => by simpa using hl j hj, rfl⟩

/-- The used bits after `RECLAIM` (R132). -/
theorem usedAt_reclaim (i : Nat) :
    usedAt (reclaim s) i = if s.active = some i ∨ s.cfg.nslot ≤ i then usedAt s i else false := by
  have := tableGet_filter (d := false)
    (fun k => decide (s.active = some k) || decide (s.cfg.nslot ≤ k)) i s.used
  simpa [usedAt, reclaim, State.raise] using this

/-- `RECLAIM` writes `used` and `err` only. -/
theorem reclaim_frame : reclaim s = { s with used := (reclaim s).used, err := s.err ||| errMask .reclaim } := rfl

/-- After `RECLAIM` a slot is free, so the fatal branch of `ENQ` is never taken (R137). -/
theorem alloc_reclaim_ne_none : (alloc (reclaim s)).1 ≠ none := by
  rcases alloc_cases (reclaim s) with ⟨i, -, -, -, h⟩ | ⟨h, -⟩
  · simp [h]
  · exfalso
    have h0 := h 0 (by simp [Config.nslot])
    have h1 := h 1 (by simp [Config.nslot])
    rw [usedAt_reclaim] at h0 h1
    have hn0 : ¬ s.cfg.nslot ≤ 0 := by simp [Config.nslot]
    have hn1 : ¬ s.cfg.nslot ≤ 1 := by simp [Config.nslot]
    simp only [hn0, hn1, or_false] at h0 h1
    split at h0 <;> split at h1 <;> simp_all

/-- `DEQ` on an empty queue (R134). -/
theorem deq_empty (h : s.qCount = 0) : deq s = (none, s) := by simp [deq, h]

/-- `DEQ` on a queue that holds something (R134). -/
theorem deq_some (h : s.qCount ≠ 0) :
    deq s = (some (fifoAt s s.qHead), { s with qHead := (s.qHead + 1) % s.cfg.qcap, qCount := s.qCount - 1 }) := by
  simp [deq, h]

/-- All `RELEASE` can do (R135). -/
theorem release_cases (i : Nat) :
    (i < s.cfg.nslot ∧ release i s = .ok (s.setUsed i false)) ∨
    (s.cfg.nslot ≤ i ∧ release i s = .error (.slotOutOfRange i)) := by
  unfold release
  split
  · next h => exact .inl ⟨h, rfl⟩
  · next h => exact .inr ⟨by omega, rfl⟩

/-! ### ENQ -/

/-- The idle kick in one equation (R141). -/
theorem idleKick_eq :
    idleKick s = { s with stage := if s.stage = .idle then .starting else s.stage,
                          out := if s.stage = .idle then { s.out with bc := .start } else s.out } := by
  unfold idleKick State.emit
  split <;> simp_all

/-- What an accepted `ENQ` does with its slot (lines 7 and 8 of R136). -/
theorem acceptDesc_eq (d : Desc) (slot : Nat) :
    acceptDesc d slot s =
      { s with pool := tableSet Desc.zero s.pool slot d,
               fifo := tableSet 0 s.fifo (tailPos s) slot,
               qCount := s.qCount + 1,
               stage := if s.stage = .idle then .starting else s.stage,
               out := if s.stage = .idle then { s.out with bc := .start } else s.out } := by
  unfold acceptDesc
  rw [idleKick_eq]
  rfl

/-! ### The clamp of line 3 -/

/-- `wlen` counts the write bytes: 8 bits hold every count (R9, R22). -/
theorem wlen_toNat (d : Desc) : d.wlen.toNat = d.wdata.length := by
  have := d.wlenFits
  simp only [Desc.wlen, BitVec.toNat_ofNat]
  omega

theorem cutDesc_wlen (n : Nat) (d : Desc) : (cutDesc n d).wlen.toNat = min n d.wlen.toNat := by
  rw [wlen_toNat, wlen_toNat]
  exact List.length_take

/-- The clamp keeps the first `MAXW` write bytes; a shorter write is not changed (R139). -/
theorem clampDesc_eq (c : Config) (d : Desc) : clampDesc c d = cutDesc c.maxw d := by
  unfold clampDesc cutDesc
  rw [wlen_toNat]
  split
  · rfl
  · next h => simp only [List.take_of_length_le (Nat.not_lt.1 h)]

theorem clampDesc_wlen_le (c : Config) (d : Desc) : (clampDesc c d).wlen.toNat ≤ c.maxw := by
  rw [clampDesc_eq, cutDesc_wlen]
  exact Nat.min_le_left ..

/-- `err` after the clamp of line 3 (R139). -/
theorem noteClamp_eq (d : Desc) :
    noteClamp d s = { s with err := if s.cfg.maxw < d.wlen.toNat then s.err ||| errMask .desc else s.err } := by
  unfold noteClamp State.raise
  split <;> rfl

/-- The least free slot, which `ALLOC` takes (R131). -/
def LeastFree (s : State) (i : Nat) : Prop := i < s.cfg.nslot ∧ usedAt s i = false ∧ ∀ j < i, usedAt s j = true

/-- All lines 4 to 8 of R136 can do. -/
theorem allocAndAccept_cases (d : Desc) :
    (∃ i, LeastFree s i ∧ allocAndAccept d s = (true, acceptDesc d i (s.setUsed i true))) ∨
    ((∀ j < s.cfg.nslot, usedAt s j = true) ∧ s.qCount = 0 ∧
      ∃ i, LeastFree (reclaim s) i ∧ allocAndAccept d s = (true, acceptDesc d i ((reclaim s).setUsed i true))) ∨
    ((∀ j < s.cfg.nslot, usedAt s j = true) ∧ s.qCount ≠ 0 ∧ allocAndAccept d s = (false, s)) := by
  rcases alloc_cases s with ⟨i, hi, hu, hl, h⟩ | ⟨hu, h⟩
  · exact .inl ⟨i, ⟨hi, hu, hl⟩, by simp [allocAndAccept, h]⟩
  · right
    by_cases hq : s.qCount = 0
    · left
      rcases alloc_cases (reclaim s) with ⟨i, hi, hu', hl, h'⟩ | ⟨-, h'⟩
      · exact ⟨hu, hq, i, ⟨hi, hu', hl⟩, by simp [allocAndAccept, h, hq, h']⟩
      · exact absurd (by rw [h']) (alloc_reclaim_ne_none s)
    · exact .inr ⟨hu, hq, by simp [allocAndAccept, h, hq]⟩

/-- All `ENQ` can do (R136 to R139, R145): declined for ever, declined for a full queue, accepted, accepted after a repair,
declined for want of a slot. -/
theorem enqueue_cases (d : Desc) :
    (flagSet s.err .poolFatal = true ∧ enqueue d s = (false, s)) ∨
    (flagSet s.err .poolFatal = false ∧ s.qCount = s.cfg.qcap ∧ enqueue d s = (false, s.raise .qfull)) ∨
    (flagSet s.err .poolFatal = false ∧ s.qCount ≠ s.cfg.qcap ∧
      enqueue d s = allocAndAccept (clampDesc s.cfg d) (noteClamp d s)) := by
  unfold enqueue
  cases hf : flagSet s.err .poolFatal with
  | true => simp
  | false =>
    by_cases hq : s.qCount = s.cfg.qcap
    · simp [hq]
    · simp [hq]

/-- `t` differs from `s` at most in the queue, the pool, `stage`, `err` and the BC word: what `ENQ` may write
(20_memory.md R75). -/
structure QueueFrame (s t : State) : Prop where
  qHead : t.qHead = s.qHead
  sub : t.sub = s.sub
  active : t.active = s.active
  widx : t.widx = s.widx
  rcount : t.rcount = s.rcount
  cbtab : t.cbtab = s.cbtab
  rxbuf : t.rxbuf = s.rxbuf
  rxCur : t.rxCur = s.rxCur
  xfIdx : t.xfIdx = s.xfIdx
  h0 : t.h0 = s.h0
  app : t.app = s.app
  frameLen : t.frameLen = s.frameLen
  awaiting : t.awaiting = s.awaiting
  cfg : t.cfg = s.cfg
  inbox : t.inbox = s.inbox
  sinkAnswers : t.sinkAnswers = s.sinkAnswers
  resp : t.out.resp = s.out.resp
  frame : t.out.frame = s.out.frame
  sinkResp : t.out.sinkResp = s.out.sinkResp
  ret : t.out.ret = s.out.ret

theorem QueueFrame.refl : QueueFrame s s := by constructor <;> rfl

theorem QueueFrame.trans {s t u : State} (h1 : QueueFrame s t) (h2 : QueueFrame t u) : QueueFrame s u where
  qHead := h2.qHead.trans h1.qHead
  sub := h2.sub.trans h1.sub
  active := h2.active.trans h1.active
  widx := h2.widx.trans h1.widx
  rcount := h2.rcount.trans h1.rcount
  cbtab := h2.cbtab.trans h1.cbtab
  rxbuf := h2.rxbuf.trans h1.rxbuf
  rxCur := h2.rxCur.trans h1.rxCur
  xfIdx := h2.xfIdx.trans h1.xfIdx
  h0 := h2.h0.trans h1.h0
  app := h2.app.trans h1.app
  frameLen := h2.frameLen.trans h1.frameLen
  awaiting := h2.awaiting.trans h1.awaiting
  cfg := h2.cfg.trans h1.cfg
  inbox := h2.inbox.trans h1.inbox
  sinkAnswers := h2.sinkAnswers.trans h1.sinkAnswers
  resp := h2.resp.trans h1.resp
  frame := h2.frame.trans h1.frame
  sinkResp := h2.sinkResp.trans h1.sinkResp
  ret := h2.ret.trans h1.ret

/-- The frame as one equation. -/
theorem QueueFrame.eq {s t : State} (h : QueueFrame s t) :
    t = { s with pool := t.pool, used := t.used, fifo := t.fifo, qCount := t.qCount, stage := t.stage, err := t.err,
                 out := { s.out with bc := t.out.bc } } := by
  exact State.ext rfl rfl rfl h.qHead rfl rfl h.sub h.active h.widx h.rcount h.cbtab h.rxbuf h.rxCur h.xfIdx h.h0 h.app
    h.frameLen h.awaiting rfl h.cfg h.inbox h.sinkAnswers (Output.ext rfl h.resp h.frame h.sinkResp h.ret)

theorem queueFrame_acceptDesc (d : Desc) (i : Nat) : QueueFrame s (acceptDesc d i s) := by
  rw [acceptDesc_eq]
  by_cases h : s.stage = .idle <;> constructor <;> simp [h]

theorem queueFrame_raise (k : ErrKind) : QueueFrame s (s.raise k) := by constructor <;> rfl

theorem queueFrame_noteClamp (d : Desc) : QueueFrame s (noteClamp d s) := by rw [noteClamp_eq]; constructor <;> rfl

theorem queueFrame_setUsed (i : Nat) (b : Bool) : QueueFrame s (s.setUsed i b) := by constructor <;> rfl

theorem queueFrame_reclaim : QueueFrame s (reclaim s) := by constructor <;> rfl

/-- All an `ENQ` can write. -/
theorem queueFrame_enqueue (d : Desc) : QueueFrame s (enqueue d s).2 := by
  rcases enqueue_cases s d with ⟨-, h⟩ | ⟨-, -, h⟩ | ⟨-, -, h⟩
  · rw [h]; exact .refl s
  · rw [h]; exact queueFrame_raise s .qfull
  · rw [h]
    refine (queueFrame_noteClamp s d).trans ?_
    generalize noteClamp d s = u
    rcases allocAndAccept_cases u (clampDesc s.cfg d) with ⟨i, -, h⟩ | ⟨-, -, i, -, h⟩ | ⟨-, -, h⟩
    · rw [h]; exact (queueFrame_setUsed u i true).trans (queueFrame_acceptDesc _ _ _)
    · rw [h]; exact ((queueFrame_reclaim u).trans (queueFrame_setUsed _ i true)).trans (queueFrame_acceptDesc _ _ _)
    · rw [h]; exact .refl u

section
variable (d : Desc)
@[simp] theorem enqueue_qHead : (enqueue d s).2.qHead = s.qHead := (queueFrame_enqueue s d).qHead
@[simp] theorem enqueue_sub : (enqueue d s).2.sub = s.sub := (queueFrame_enqueue s d).sub
@[simp] theorem enqueue_active : (enqueue d s).2.active = s.active := (queueFrame_enqueue s d).active
@[simp] theorem enqueue_widx : (enqueue d s).2.widx = s.widx := (queueFrame_enqueue s d).widx
@[simp] theorem enqueue_rcount : (enqueue d s).2.rcount = s.rcount := (queueFrame_enqueue s d).rcount
@[simp] theorem enqueue_cbtab : (enqueue d s).2.cbtab = s.cbtab := (queueFrame_enqueue s d).cbtab
@[simp] theorem enqueue_rxbuf : (enqueue d s).2.rxbuf = s.rxbuf := (queueFrame_enqueue s d).rxbuf
@[simp] theorem enqueue_rxCur : (enqueue d s).2.rxCur = s.rxCur := (queueFrame_enqueue s d).rxCur
@[simp] theorem enqueue_xfIdx : (enqueue d s).2.xfIdx = s.xfIdx := (queueFrame_enqueue s d).xfIdx
@[simp] theorem enqueue_h0 : (enqueue d s).2.h0 = s.h0 := (queueFrame_enqueue s d).h0
@[simp] theorem enqueue_app : (enqueue d s).2.app = s.app := (queueFrame_enqueue s d).app
@[simp] theorem enqueue_frameLen : (enqueue d s).2.frameLen = s.frameLen := (queueFrame_enqueue s d).frameLen
@[simp] theorem enqueue_awaiting : (enqueue d s).2.awaiting = s.awaiting := (queueFrame_enqueue s d).awaiting
@[simp] theorem enqueue_cfg : (enqueue d s).2.cfg = s.cfg := (queueFrame_enqueue s d).cfg
@[simp] theorem enqueue_inbox : (enqueue d s).2.inbox = s.inbox := (queueFrame_enqueue s d).inbox
@[simp] theorem enqueue_sinkAnswers : (enqueue d s).2.sinkAnswers = s.sinkAnswers := (queueFrame_enqueue s d).sinkAnswers
end

/-! ### Several ENQs -/

/-- What every `ENQ` keeps, a list of them keeps. -/
theorem enqueueAll_induct {P : State → Prop} (h : ∀ d t, P t → P (enqueue d t).2) :
    ∀ (ds : List Desc) (s : State), P s → P (enqueueAll ds s).2
  | [], _, hs => hs
  | d :: ds, s, hs => enqueueAll_induct h ds _ (h d s hs)

theorem enqueueAll_length : ∀ (ds : List Desc) (s : State), (enqueueAll ds s).1.length = ds.length
  | [], _ => rfl
  | d :: ds, s => by simp [enqueueAll, enqueueAll_length ds]

/-- All a list of `ENQ`s can write. -/
theorem queueFrame_enqueueAll : ∀ (ds : List Desc) (s : State), QueueFrame s (enqueueAll ds s).2
  | [], s => .refl s
  | d :: ds, s => (queueFrame_enqueue s d).trans (queueFrame_enqueueAll ds _)

end Sys2Proof.Machine
end

