-- ==== Sys2Proof/Laws/Invariant.lean ====
section
/-! SUPPORT. The part of the invariants (10_state.md R49) that speaks of the queue and the pool, and what `ENQ`, `DEQ` and
`RELEASE` do to it. -/

namespace Sys2Proof.Machine

/-! ### Sticky flags -/

theorem flagSet_raise (e : BitVec 8) (k j : ErrKind) :
    flagSet (e ||| errMask k) j = (flagSet e j || decide (k = j)) := by
  cases k <;> cases j <;> simp [flagSet, errMask, errCode]

theorem bit7_raise (e : BitVec 8) (k : ErrKind) : (e ||| errMask k).getLsbD 7 = e.getLsbD 7 := by
  cases k <;> simp [errMask, errCode]

/-! ### The ring -/

/-- Distinct offsets below the capacity are distinct ring positions. -/
theorem ring_ne {q h a b : Nat} (hab : a < b) (hb : b - a < q) : (h + a) % q ≠ (h + b) % q := by
  intro heq
  have h1 : (h + b - (h + a)) % q = 0 := Nat.sub_mod_eq_zero_of_mod_eq heq.symm
  have h2 : h + b - (h + a) = b - a := by omega
  rw [h2, Nat.mod_eq_of_lt hb] at h1
  omega

/-- The queue as a function of the ring (R24). -/
theorem queuedSlots_congr {s t : State} (hc : t.qCount = s.qCount)
    (h : ∀ k < s.qCount, fifoAt t ((t.qHead + k) % t.cfg.qcap) = fifoAt s ((s.qHead + k) % s.cfg.qcap)) :
    queuedSlots t = queuedSlots s := by
  unfold queuedSlots
  rw [hc]
  exact List.map_congr_left fun k hk => h k (List.mem_range.1 hk)

/-- `PUSH` appends (R133). -/
theorem queuedSlots_push {s : State} (hw : tableWf 0 s.fifo = true) (hq : s.qCount < s.cfg.qcap) (i : Nat) :
    queuedSlots (push i s) = queuedSlots s ++ [i] := by
  unfold queuedSlots push
  simp only [setFifo_cfg, setFifo_qHead, List.range_succ, List.map_append, List.map_cons, List.map_nil]
  congr 1
  · refine List.map_congr_left fun k hk => ?_
    have hk' := List.mem_range.1 hk
    exact tableGet_set_ne (ring_ne hk' (by omega)) i s.fifo
  · exact congrArg (fun x => [x]) (tableGet_set_self i hw)

/-- `DEQ` takes the oldest (R134). -/
theorem queuedSlots_deq {s : State} (hq : s.qCount ≠ 0) :
    queuedSlots s = fifoAt s (s.qHead % s.cfg.qcap) ::
      queuedSlots { s with qHead := (s.qHead + 1) % s.cfg.qcap, qCount := s.qCount - 1 } := by
  unfold queuedSlots
  obtain ⟨n, hn⟩ := Nat.exists_eq_succ_of_ne_zero hq
  simp only [hn, Nat.succ_eq_add_one, Nat.add_sub_cancel, List.range_succ_eq_map, List.map_cons, List.map_map,
    Nat.add_zero]
  refine congrArg _ (List.map_congr_left fun k _ => ?_)
  show fifoAt s ((s.qHead + (k + 1)) % s.cfg.qcap) = fifoAt s (((s.qHead + 1) % s.cfg.qcap + k) % s.cfg.qcap)
  rw [Nat.mod_add_mod, Nat.add_assoc, Nat.add_comm 1 k]

/-! ### The queue's invariant -/

/-- The invariants of the queue and the pool: I4, I5 and I8 of R49 with the ranges of R21 to R24. -/
structure QueueInv (s : State) : Prop where
  cfgValid : s.cfg.Valid
  poolWf : tableWf Desc.zero s.pool = true
  usedWf : tableWf false s.used = true
  fifoWf : tableWf 0 s.fifo = true
  poolBound : ∀ e ∈ s.pool, e.1 < s.cfg.nslot
  usedBound : ∀ e ∈ s.used, e.1 < s.cfg.nslot
  fifoBound : ∀ e ∈ s.fifo, e.1 < s.cfg.qcap
  headRange : s.qHead < s.cfg.qcap
  countRange : s.qCount ≤ s.cfg.qcap
  distinct : (liveSlots s).Nodup
  owned : ∀ i, usedAt s i = true ↔ i ∈ liveSlots s
  writeBuffer : ∀ i, (poolAt s i).wlen.toNat ≤ s.cfg.maxw
  noRepair : flagSet s.err .reclaim = false ∧ flagSet s.err .poolFatal = false

theorem State.Inv.queueInv {s : State} (h : s.Inv) : QueueInv s := by
  have hc := h.canonical
  simp only [tablesWf, Bool.and_eq_true] at hc
  exact
    { cfgValid := h.cfgValid, poolWf := hc.1.1.1.1, usedWf := hc.1.1.1.2, fifoWf := hc.1.1.2
      poolBound := h.bounded.1, usedBound := h.bounded.2.1, fifoBound := h.bounded.2.2.1
      headRange := h.headRange, countRange := h.countRange, distinct := h.distinct, owned := h.owned
      writeBuffer := h.writeBuffer, noRepair := ⟨h.errFlags.1, h.errFlags.2.1⟩ }

theorem tableGet_of_bound {α : Type} [DecidableEq α] {d : α} {n i : Nat} (hi : n ≤ i) :
    ∀ {t : Table α}, (∀ e ∈ t, e.1 < n) → tableGet d t i = d
  | [], _ => rfl
  | (k, v) :: t, h => by
    have hk := h (k, v) (by simp)
    simp only at hk
    rw [tableGet_cons, if_neg (by omega)]
    exact tableGet_of_bound hi fun e he => h e (by simp [he])

theorem tableSet_bound {α : Type} [DecidableEq α] {d : α} {n i : Nat} {v : α} {t : Table α} (hi : i < n)
    (h : ∀ e ∈ t, e.1 < n) : ∀ e ∈ tableSet d t i v, e.1 < n := by
  intro e he
  rcases tableSet_mem he with rfl | he
  · exact hi
  · exact h e he

namespace QueueInv

variable {s : State}

/-- A live slot is a pool slot. -/
theorem live_lt (h : QueueInv s) {i : Nat} (hi : i ∈ liveSlots s) : i < s.cfg.nslot := by
  by_contra hn
  have hu := (h.owned i).2 hi
  rw [usedAt, tableGet_of_bound (Nat.le_of_not_lt hn) h.usedBound] at hu
  exact absurd hu (by simp)

theorem length_live_le (s : State) : (liveSlots s).length ≤ s.qCount + 1 := by
  unfold liveSlots queuedSlots
  cases s.active <;> simp

/-- While the queue is not full a slot is free (R146). -/
theorem exists_free (h : QueueInv s) : ∃ j < s.cfg.nslot, usedAt s j = false := by
  by_contra hall
  push Not at hall
  have hsub : List.range s.cfg.nslot ⊆ liveSlots s := fun j hj =>
    (h.owned j).1 (by simpa using hall j (List.mem_range.1 hj))
  have hle := (List.nodup_range.subperm hsub).length_le
  have := length_live_le s
  have := h.countRange
  rw [List.length_range, Config.nslot] at hle
  omega

/-- What `ENQ` does under the invariants: declined exactly for a full queue, else accepted into the least free slot at the
first attempt (R136, R146). -/
theorem enqueue_cases (h : QueueInv s) (d : Desc) :
    (s.qCount = s.cfg.qcap ∧ enqueue d s = (false, s.raise .qfull)) ∨
    (s.qCount < s.cfg.qcap ∧ ∃ i, LeastFree s i ∧
      enqueue d s = (true, acceptDesc (clampDesc s.cfg d) i ((noteClamp d s).setUsed i true))) := by
  rcases Machine.enqueue_cases s d with ⟨hf, -⟩ | ⟨-, hq, he⟩ | ⟨-, hq, he⟩
  · rw [h.noRepair.2] at hf
    exact absurd hf (by simp)
  · exact .inl ⟨hq, he⟩
  · refine .inr ⟨lt_of_le_of_ne h.countRange hq, ?_⟩
    have hn := noteClamp_eq s d
    have hfree : ∃ j < (noteClamp d s).cfg.nslot, usedAt (noteClamp d s) j = false := by
      rw [hn]; exact h.exists_free
    rcases allocAndAccept_cases (noteClamp d s) (clampDesc s.cfg d) with ⟨i, hi, ha⟩ | ⟨hall, -, -⟩ | ⟨hall, -⟩
    · refine ⟨i, ?_, by rw [he, ha]⟩
      rw [hn] at hi
      exact hi
    · obtain ⟨j, hj, hju⟩ := hfree
      rw [hall j hj] at hju
      exact absurd hju (by simp)
    · obtain ⟨j, hj, hju⟩ := hfree
      rw [hall j hj] at hju
      exact absurd hju (by simp)

/-- Accepting a descriptor into a free slot keeps the invariants, appends to the queue and leaves every live slot's
descriptor alone. -/
theorem accept (h : QueueInv s) {i : Nat} (hi : LeastFree s i) (hq : s.qCount < s.cfg.qcap) (d : Desc) :
    let t := acceptDesc (clampDesc s.cfg d) i ((noteClamp d s).setUsed i true)
    QueueInv t ∧ queuedSlots t = queuedSlots s ++ [i] ∧ poolAt t i = clampDesc s.cfg d ∧
      ∀ j, j ≠ i → poolAt t j = poolAt s j := by
  intro t
  have hni : i ∉ liveSlots s := fun hm => by
    have := (h.owned i).2 hm
    rw [hi.2.1] at this
    exact absurd this (by simp)
  have ht : t = { s with
      pool := tableSet Desc.zero s.pool i (clampDesc s.cfg d)
      used := tableSet false s.used i true
      fifo := tableSet 0 s.fifo (tailPos s) i
      qCount := s.qCount + 1
      stage := if s.stage = .idle then .starting else s.stage
      err := if s.cfg.maxw < d.wlen.toNat then s.err ||| errMask .desc else s.err
      out := if s.stage = .idle then { s.out with bc := .start } else s.out } := by
    simp only [t, acceptDesc_eq, noteClamp_eq, setUsed_pool, setUsed_fifo, setUsed_qCount, setUsed_stage, setUsed_out]
    rfl
  have hqs : queuedSlots t = queuedSlots s ++ [i] := by
    rw [← queuedSlots_push h.fifoWf hq i]
    refine queuedSlots_congr (by rw [ht]; rfl) fun k _ => ?_
    rw [ht]
    rfl
  have hlive : liveSlots t = liveSlots s ++ [i] := by
    unfold liveSlots
    rw [hqs, show t.active = s.active by rw [ht], List.append_assoc]
  have hpool : ∀ j, poolAt t j = if j = i then clampDesc s.cfg d else poolAt s j := fun j => by
    rw [ht]; exact tableGet_set h.poolWf i j _
  have hused : ∀ j, usedAt t j = if j = i then true else usedAt s j := fun j => by
    rw [ht]; exact tableGet_set h.usedWf i j _
  have htail : tailPos s < s.cfg.qcap := Nat.mod_lt _ (by have := h.cfgValid.1; omega)
  have hcfg : t.cfg = s.cfg := by rw [ht]
  refine ⟨?_, hqs, by simp [hpool], fun j hj => by simp [hpool, hj]⟩
  exact
    { cfgValid := by rw [hcfg]; exact h.cfgValid
      poolWf := by rw [ht]; exact tableSet_wf h.poolWf i _
      usedWf := by rw [ht]; exact tableSet_wf h.usedWf i _
      fifoWf := by rw [ht]; exact tableSet_wf h.fifoWf _ _
      poolBound := by rw [ht]; exact tableSet_bound hi.1 h.poolBound
      usedBound := by rw [ht]; exact tableSet_bound hi.1 h.usedBound
      fifoBound := by rw [ht]; exact tableSet_bound htail h.fifoBound
      headRange := by rw [ht]; exact h.headRange
      countRange := by rw [ht]; exact hq
      distinct := by
        rw [hlive, List.nodup_append]
        exact ⟨h.distinct, by simp, by rintro a ha b hb rfl; simp only [List.mem_singleton] at hb; exact hni (hb ▸ ha)⟩
      owned := fun j => by
        rw [hused, hlive, List.mem_append, List.mem_singleton, ← h.owned j]
        by_cases hj : j = i <;> simp [hj]
      writeBuffer := fun j => by
        rw [hpool, hcfg]
        split
        · exact clampDesc_wlen_le s.cfg d
        · exact h.writeBuffer j
      noRepair := by
        rw [ht]
        have := h.noRepair
        simp only
        split <;> simp [flagSet_raise, this] }

/-- `ENQ` keeps the queue's invariants and leaves the descriptors of live slots alone. -/
theorem enqueue (h : QueueInv s) (d : Desc) :
    QueueInv (enqueue d s).2 ∧ ∀ j ∈ liveSlots s, j ∈ liveSlots (Machine.enqueue d s).2 ∧
      poolAt (Machine.enqueue d s).2 j = poolAt s j := by
  rcases h.enqueue_cases d with ⟨-, he⟩ | ⟨hq, i, hi, he⟩
  · rw [he]
    refine ⟨?_, fun j hj => ⟨hj, rfl⟩⟩
    exact { h with noRepair := by simp [flagSet_raise, h.noRepair] }
  · have ha := h.accept hi hq d
    rw [he]
    refine ⟨ha.1, fun j hj => ⟨?_, ha.2.2.2 j ?_⟩⟩
    · have hact : (acceptDesc (clampDesc s.cfg d) i ((noteClamp d s).setUsed i true)).active = s.active := by
        rw [acceptDesc_eq, noteClamp_eq]; rfl
      unfold liveSlots at hj ⊢
      rw [ha.2.1, hact]
      simp only [List.mem_append] at hj ⊢
      rcases hj with hj | hj
      · exact .inl hj
      · exact .inr (.inl hj)
    · rintro rfl
      have := (h.owned j).2 hj
      rw [hi.2.1] at this
      exact absurd this (by simp)

/-- A list of `ENQ`s keeps the queue's invariants and leaves the descriptors of live slots alone. -/
theorem enqueueAll : ∀ (ds : List Desc) {s : State}, QueueInv s →
    QueueInv (enqueueAll ds s).2 ∧ ∀ j ∈ liveSlots s, j ∈ liveSlots (Machine.enqueueAll ds s).2 ∧
      poolAt (Machine.enqueueAll ds s).2 j = poolAt s j
  | [], _, h => ⟨h, fun _ hj => ⟨hj, rfl⟩⟩
  | d :: ds, s, h => by
    have h1 := h.enqueue d
    have h2 := QueueInv.enqueueAll ds h1.1
    refine ⟨h2.1, fun j hj => ?_⟩
    have hj1 := h1.2 j hj
    have hj2 := h2.2 j hj1.1
    exact ⟨hj2.1, hj2.2.trans hj1.2⟩

end QueueInv

end Sys2Proof.Machine
end

