-- ==== Sys2Proof/Laws/Framing.lean ====
section
/-! SUPPORT. What each operation of dispatch and framing can do, said once (42_dispatch_framing.md). -/

namespace Sys2Proof.Machine

variable (s : State)

/-! ### Assembled values -/

theorem headerLen_lt (raw : Half) : headerLen raw < 32768 := (raw.extractLsb' 0 15).isLt

theorem clampLen_le (c : Config) (len : Nat) : clampLen c len ≤ c.rxcap := by unfold clampLen; split <;> omega

theorem contribution_le (len : Nat) : contribution len ≤ len := by unfold contribution; split <;> omega

theorem sat16_toNat (n : Nat) : (sat16 n).toNat = min n 65535 := by
  simp only [sat16, BitVec.toNat_ofNat]
  omega

/-- The extended read length (R187). -/
theorem extendRlen_toNat (rlen add : Half) : (extendRlen rlen add).toNat = min (rlen.toNat + add.toNat) 65535 :=
  sat16_toNat _

theorem extendRlen_zero (rlen : Half) : extendRlen rlen 0 = rlen := by
  apply BitVec.eq_of_toNat_eq
  rw [extendRlen_toNat]
  have := rlen.isLt
  have h0 : (0 : Half).toNat = 0 := rfl
  omega

/-! ### STORE -/

theorem storeByte_room (b : Byte) (h : s.rxCur.toNat < s.cfg.rxcap) :
    storeByte b s = { s with rxbuf := s.rxbuf.write s.rxCur.toNat b, rxCur := s.rxCur + 1 } := by
  simp [storeByte, h, State.setRx]

theorem storeByte_full (b : Byte) (h : s.cfg.rxcap ≤ s.rxCur.toNat) : storeByte b s = s.raise .ovf := by
  simp [storeByte, Nat.not_lt.2 h]

/-- `t` differs from `s` at most in what the framing layer writes without a delivery: the buffer, its cursor, `xf_idx`,
`h0`, `app`, `frame_len` and `err`. -/
structure FramingFrame (s t : State) : Prop where
  pool : t.pool = s.pool
  used : t.used = s.used
  fifo : t.fifo = s.fifo
  qHead : t.qHead = s.qHead
  qCount : t.qCount = s.qCount
  stage : t.stage = s.stage
  sub : t.sub = s.sub
  active : t.active = s.active
  widx : t.widx = s.widx
  rcount : t.rcount = s.rcount
  cbtab : t.cbtab = s.cbtab
  awaiting : t.awaiting = s.awaiting
  cfg : t.cfg = s.cfg
  inbox : t.inbox = s.inbox
  sinkAnswers : t.sinkAnswers = s.sinkAnswers
  out : t.out = s.out

theorem FramingFrame.refl : FramingFrame s s := by constructor <;> rfl

theorem FramingFrame.trans {s t u : State} (h1 : FramingFrame s t) (h2 : FramingFrame t u) : FramingFrame s u where
  pool := h2.pool.trans h1.pool
  used := h2.used.trans h1.used
  fifo := h2.fifo.trans h1.fifo
  qHead := h2.qHead.trans h1.qHead
  qCount := h2.qCount.trans h1.qCount
  stage := h2.stage.trans h1.stage
  sub := h2.sub.trans h1.sub
  active := h2.active.trans h1.active
  widx := h2.widx.trans h1.widx
  rcount := h2.rcount.trans h1.rcount
  cbtab := h2.cbtab.trans h1.cbtab
  awaiting := h2.awaiting.trans h1.awaiting
  cfg := h2.cfg.trans h1.cfg
  inbox := h2.inbox.trans h1.inbox
  sinkAnswers := h2.sinkAnswers.trans h1.sinkAnswers
  out := h2.out.trans h1.out

/-- The frame as one equation. -/
theorem FramingFrame.eq {s t : State} (h : FramingFrame s t) :
    t = { s with rxbuf := t.rxbuf, rxCur := t.rxCur, xfIdx := t.xfIdx, h0 := t.h0, app := t.app,
                 frameLen := t.frameLen, err := t.err } :=
  State.ext h.pool h.used h.fifo h.qHead h.qCount h.stage h.sub h.active h.widx h.rcount h.cbtab rfl rfl rfl rfl rfl rfl
    h.awaiting rfl h.cfg h.inbox h.sinkAnswers h.out

theorem framingFrame_storeByte (b : Byte) : FramingFrame s (storeByte b s) := by
  unfold storeByte
  split <;> constructor <;> rfl

/-! ### The receive buffer's invariant -/

/-- The receive buffer stays within its capacity, and only the sticky flags a store may raise are touched (R73, I6). -/
structure BufferInv (s : State) : Prop where
  cfgValid : s.cfg.Valid
  rxWf : s.rxbuf.wf = true
  rxBound : ∀ e ∈ s.rxbuf, e.1 < s.cfg.rxcap
  cursor : s.rxCur.toNat ≤ s.cfg.rxcap
  frameLen : s.frameLen.toNat ≤ s.cfg.rxcap

theorem State.Inv.bufferInv {s : State} (h : s.Inv) : BufferInv s := by
  have hc := h.canonical
  simp only [tablesWf, Bool.and_eq_true] at hc
  exact ⟨h.cfgValid, hc.2, h.bounded.2.2.2.2, h.cursorRange.1, h.cursorRange.2⟩

/-- `err` after the framing layer: `OVF` may have been raised. -/
def OvfOnly (e e' : BitVec 8) : Prop := e' = e ∨ e' = e ||| errMask .ovf

theorem OvfOnly.trans {a b c : BitVec 8} (h1 : OvfOnly a b) (h2 : OvfOnly b c) : OvfOnly a c := by
  unfold OvfOnly at *
  rcases h1 with rfl | rfl <;> rcases h2 with rfl | rfl <;> simp [BitVec.or_assoc]

theorem BufferInv.storeByte {s : State} (h : BufferInv s) (b : Byte) :
    BufferInv (storeByte b s) ∧ OvfOnly s.err (storeByte b s).err ∧
      (Machine.storeByte b s).rxCur.toNat = min (s.rxCur.toNat + 1) s.cfg.rxcap := by
  have hv := h.cfgValid
  rcases Nat.lt_or_ge s.rxCur.toNat s.cfg.rxcap with hr | hr
  · rw [storeByte_room s b hr]
    have hn : (s.rxCur + 1).toNat = s.rxCur.toNat + 1 := by
      rw [BitVec.toNat_add, show (1 : Half).toNat = 1 from rfl]
      omega
    refine ⟨⟨hv, Memory.write_wf h.rxWf _ _, Memory.write_bound hr h.rxBound, ?_, h.frameLen⟩, .inl rfl, ?_⟩
    · show (s.rxCur + 1).toNat ≤ s.cfg.rxcap
      omega
    · show (s.rxCur + 1).toNat = _
      omega
  · rw [storeByte_full s b hr]
    refine ⟨⟨hv, h.rxWf, h.rxBound, h.cursor, h.frameLen⟩, .inr rfl, ?_⟩
    have := h.cursor
    simp only [raise_rxCur]
    omega

/-! ### SHTP_CB -/

/-- The bytes a callback asks for: at byte 1 of a transfer the contribution of the length field, else 0 (R230). -/
def addOf (b : Byte) (s : State) : Half :=
  if s.xfIdx = 1 then BitVec.ofNat 16 (contribution (clampLen s.cfg (headerLen (headerRaw s.h0 b)))) else 0

theorem transferByte_add (b : Byte) : (transferByte b s).1 = addOf b s := by
  unfold transferByte addOf
  split
  · next h => simp [h]
  · split
    · next h => simp [headerByte]
    · split <;> rfl

theorem framingFrame_startFresh (b0 b1 : Byte) (len : Nat) : FramingFrame s (startFresh b0 b1 len s) := by
  have h0 : FramingFrame s { s with app := false, rxCur := 0 } := by constructor <;> rfl
  have h1 := (h0.trans (framingFrame_storeByte _ b0)).trans (framingFrame_storeByte _ b1)
  exact h1.trans (by constructor <;> rfl)

theorem framingFrame_transferByte (b : Byte) : FramingFrame s (transferByte b s).2 := by
  have hn : FramingFrame s (noteOverlong (headerLen (headerRaw s.h0 b)) s) := by
    unfold noteOverlong
    split <;> constructor <;> rfl
  unfold transferByte
  split
  · constructor <;> rfl
  · split
    · unfold headerByte
      simp only
      split
      · exact hn.trans (by constructor <;> rfl)
      · exact hn.trans (framingFrame_startFresh _ _ _ _)
    · split
      · exact framingFrame_storeByte s b
      · show FramingFrame s (if s.app = true then s else storeByte b s)
        split
        · exact .refl s
        · exact framingFrame_storeByte s b

theorem ofNat16_toNat {n : Nat} (h : n ≤ 32767) : (BitVec.ofNat 16 n).toNat = n := by
  rw [BitVec.toNat_ofNat]
  omega

theorem BufferInv.startFresh {s : State} (h : BufferInv s) (b0 b1 : Byte) {len : Nat} (hl : len ≤ s.cfg.rxcap) :
    BufferInv (startFresh b0 b1 len s) ∧ OvfOnly s.err (startFresh b0 b1 len s).err := by
  have h0 : BufferInv { s with app := false, rxCur := 0 } := ⟨h.cfgValid, h.rxWf, h.rxBound, by simp, h.frameLen⟩
  have h1 := h0.storeByte b0
  have h2 := h1.1.storeByte b1
  have hc : (Machine.storeByte b1 (Machine.storeByte b0 { s with app := false, rxCur := 0 })).cfg = s.cfg :=
    ((framingFrame_storeByte _ b1).cfg.trans (framingFrame_storeByte _ b0).cfg)
  refine ⟨⟨h2.1.cfgValid, h2.1.rxWf, h2.1.rxBound, h2.1.cursor, ?_⟩, h1.2.1.trans h2.2.1⟩
  show (BitVec.ofNat 16 len).toNat ≤ (Machine.storeByte b1 _).cfg.rxcap
  have := h.cfgValid
  rw [hc, ofNat16_toNat (by omega)]
  exact hl

theorem BufferInv.transferByte {s : State} (h : BufferInv s) (b : Byte) :
    BufferInv (transferByte b s).2 ∧ OvfOnly s.err (transferByte b s).2.err := by
  unfold Machine.transferByte
  split
  · exact ⟨⟨h.cfgValid, h.rxWf, h.rxBound, h.cursor, h.frameLen⟩, .inl rfl⟩
  · split
    · unfold headerByte
      have hn : BufferInv (noteOverlong (headerLen (headerRaw s.h0 b)) s) ∧
          OvfOnly s.err (noteOverlong (headerLen (headerRaw s.h0 b)) s).err := by
        unfold noteOverlong
        split
        · exact ⟨⟨h.cfgValid, h.rxWf, h.rxBound, h.cursor, h.frameLen⟩, .inr rfl⟩
        · exact ⟨h, .inl rfl⟩
      have hc : (noteOverlong (headerLen (headerRaw s.h0 b)) s).cfg = s.cfg := by
        unfold noteOverlong
        split <;> rfl
      simp only
      split
      · have := h.cfgValid
        refine ⟨⟨hn.1.cfgValid, hn.1.rxWf, hn.1.rxBound, hn.1.cursor, ?_⟩, hn.2⟩
        unfold startAppend
        simp only [hc]
        rw [ofNat16_toNat (by omega)]
        omega
      · have hf := hn.1.startFresh s.h0 b (len := clampLen s.cfg (headerLen (headerRaw s.h0 b)))
          (by rw [hc]; exact clampLen_le _ _)
        exact ⟨hf.1, hn.2.trans hf.2⟩
    · split
      · exact ⟨(h.storeByte b).1, (h.storeByte b).2.1⟩
      · show BufferInv (if s.app = true then s else Machine.storeByte b s) ∧
          OvfOnly s.err (if s.app = true then s else Machine.storeByte b s).err
        split
        · exact ⟨h, .inl rfl⟩
        · exact ⟨(h.storeByte b).1, (h.storeByte b).2.1⟩

/-! ### DELIVER -/

/-- `DELIVER` with the cursor in its range (R235). -/
theorem deliverFrame_ok (h : s.rxCur.toNat ≤ s.cfg.rxcap) :
    deliverFrame s =
      .ok (emptyBuffer (enqueueAll (sinkAnswer s) (handOver s)).1 (enqueueAll (sinkAnswer s) (handOver s)).2) := by
  simp [deliverFrame, h]

/-- `DELIVER` with the cursor out of its range. -/
theorem deliverFrame_error (h : s.cfg.rxcap < s.rxCur.toNat) : deliverFrame s = .error (.cursorOutOfRange s.rxCur) := by
  simp [deliverFrame, Nat.not_le.2 h]

/-- All a call of the callback can do: the byte is taken in, and then the transfer goes on, or ends without a delivery, or
ends with one (R222, R233 to R235). -/
theorem shtpCallback_cases (b : Byte) (remaining : Half) :
    let s1 : State := { (transferByte b s).2 with xfIdx := nextIdx s.xfIdx }
    (¬(remaining = 0 ∧ addOf b s = 0) ∧ shtpCallback b remaining s = .ok (addOf b s, s1)) ∨
    (remaining = 0 ∧ addOf b s = 0 ∧ frameComplete s.xfIdx s1 = false ∧
      shtpCallback b remaining s = .ok (0, { s1 with xfIdx := 0 })) ∨
    (remaining = 0 ∧ addOf b s = 0 ∧ frameComplete s.xfIdx s1 = true ∧
      shtpCallback b remaining s = (deliverFrame s1).map (fun s2 => (0, { s2 with xfIdx := 0 }))) := by
  intro s1
  have ha := transferByte_add s b
  by_cases hend : remaining = 0 ∧ addOf b s = 0
  · right
    cases hf : frameComplete s.xfIdx s1 with
    | false =>
      left
      refine ⟨hend.1, hend.2, rfl, ?_⟩
      unfold shtpCallback
      simp only
      rw [if_pos ⟨hend.1, ha.trans hend.2⟩]
      unfold endTransfer
      rw [show frameComplete s.xfIdx { (transferByte b s).2 with xfIdx := nextIdx s.xfIdx } = false from hf, ha, hend.2]
      rfl
    | true =>
      right
      refine ⟨hend.1, hend.2, rfl, ?_⟩
      unfold shtpCallback
      simp only
      rw [if_pos ⟨hend.1, ha.trans hend.2⟩]
      unfold endTransfer
      rw [show frameComplete s.xfIdx { (transferByte b s).2 with xfIdx := nextIdx s.xfIdx } = true from hf, ha, hend.2]
      simp only [if_true]
      cases deliverFrame { (transferByte b s).2 with xfIdx := nextIdx s.xfIdx } <;> rfl
  · left
    refine ⟨hend, ?_⟩
    unfold shtpCallback
    simp only
    rw [if_neg (by rw [ha]; exact hend), ha]

end Sys2Proof.Machine
end

