-- ==== Sys2Proof/Laws/Engine.lean ====
section
/-! SUPPORT. What the engine's shared operations can do: finding the active transaction, the two helpers of `EV_TX_ACK`,
the pop, the release, and the counting of a received byte. -/

namespace Sys2Proof.Machine

theorem active_mem_live {s : State} {i : Nat} (h : s.active = some i) : i ∈ liveSlots s := by simp [liveSlots, h]

theorem readSlot_lt {s : State} {i : Nat} (h : i < s.cfg.nslot) : readSlot s i = .ok (poolAt s i) := by simp [readSlot, h]

theorem readSlot_live {s : State} (q : QueueInv s) {i : Nat} (hi : i ∈ liveSlots s) : readSlot s i = .ok (poolAt s i) :=
  readSlot_lt (q.live_lt hi)

/-- A rule on the active transaction: an unexpected event where there is none, else the rule on its descriptor, else the
slot is not in the pool. -/
theorem withActive_cases (f : Desc → State → State) (s : State) :
    (s.active = none ∧ withActive f s = .ok (unexpectedEvent s))
    ∨ (∃ i, s.active = some i ∧ i < s.cfg.nslot ∧ withActive f s = .ok (f (poolAt s i) s))
    ∨ (∃ i, s.active = some i ∧ s.cfg.nslot ≤ i ∧ withActive f s = .error (.slotOutOfRange i)) := by
  unfold withActive
  cases ha : s.active with
  | none => exact .inl ⟨rfl, rfl⟩
  | some i =>
    rcases Nat.lt_or_ge i s.cfg.nslot with h | h
    · exact .inr (.inl ⟨i, rfl, h, by simp [readSlot, h, Except.map]⟩)
    · exact .inr (.inr ⟨i, rfl, h, by simp [readSlot, Nat.not_lt.2 h, Except.map]⟩)

theorem withActive_none {f : Desc → State → State} {s : State} (ha : s.active = none) :
    withActive f s = .ok (unexpectedEvent s) := by
  unfold withActive
  rw [ha]

theorem withActive_some {f : Desc → State → State} {s : State} {i : Nat} (ha : s.active = some i) (h : i < s.cfg.nslot) :
    withActive f s = .ok (f (poolAt s i) s) := by
  unfold withActive
  rw [ha]
  show (readSlot s i).map _ = _
  rw [readSlot_lt h]
  rfl

theorem withActive_missing {f : Desc → State → State} {s : State} {i : Nat} (ha : s.active = some i)
    (h : s.cfg.nslot ≤ i) : withActive f s = .error (.slotOutOfRange i) := by
  unfold withActive
  rw [ha]
  simp [readSlot, Nat.not_lt.2 h, Except.map]

theorem withActive_live {f : Desc → State → State} {s : State} (q : QueueInv s) {i : Nat} (hi : s.active = some i) :
    withActive f s = .ok (f (poolAt s i) s) :=
  withActive_some hi (q.live_lt (active_mem_live hi))

/-- The slot `DEQ` takes is a queued one. -/
theorem head_queued {s : State} (q : QueueInv s) (hq : s.qCount ≠ 0) : fifoAt s s.qHead ∈ queuedSlots s := by
  rw [queuedSlots_deq hq, Nat.mod_eq_of_lt q.headRange]; simp

theorem startNext_empty {s : State} (h : s.qCount = 0) :
    startNext s = .ok (State.emit { s with stage := .stopping } .stop) := by
  simp [startNext, deq_empty s h]

theorem startNext_pop {s : State} (h : s.qCount ≠ 0) (hi : fifoAt s s.qHead < s.cfg.nslot) :
    startNext s = .ok (activate (fifoAt s s.qHead) (poolAt s (fifoAt s s.qHead))
      { s with qHead := (s.qHead + 1) % s.cfg.qcap, qCount := s.qCount - 1 }) := by
  unfold startNext
  rw [deq_some s h]
  have hr := readSlot_lt (s := { s with qHead := (s.qHead + 1) % s.cfg.qcap, qCount := s.qCount - 1 }) hi
  simp only [hr]
  rfl

/-- `WRITE_NEXT`: the next byte, else the repeated start, else the stop (R176). -/
theorem writeNextOf_cases (d : Desc) (s : State) :
    (∃ b, d.wdata[s.widx.toNat]? = some b ∧ s.widx.toNat < d.wlen.toNat
      ∧ writeNextOf d s = State.emit { s with widx := s.widx + 1 } (.tx b))
    ∨ (d.wlen.toNat ≤ s.widx.toNat ∧ d.rlen ≠ 0 ∧ writeNextOf d s = State.emit { s with sub := .reStart } .start)
    ∨ (d.wlen.toNat ≤ s.widx.toNat ∧ d.rlen = 0 ∧ writeNextOf d s = State.emit { s with stage := .stopping } .stop) := by
  rw [wlen_toNat]
  unfold writeNextOf
  split
  · next b hb =>
    obtain ⟨hlt, -⟩ := List.getElem?_eq_some_iff.1 hb
    exact .inl ⟨b, hb, hlt, rfl⟩
  · next hb =>
    have hle := List.getElem?_eq_none_iff.1 hb
    split
    · next h => exact .inr (.inl ⟨hle, fun h0 => by rw [h0] at h; exact absurd h (by decide), rfl⟩)
    · next h =>
      refine .inr (.inr ⟨hle, BitVec.eq_of_toNat_eq ?_, rfl⟩)
      show d.rlen.toNat = 0
      omega

/-- `BEGIN_READ`: stop at once, or ask for the first byte (R177). -/
theorem beginReadOf_cases (d : Desc) (s : State) :
    (d.rlen = 0 ∧ beginReadOf d s = State.emit { s with stage := .stopping } .stop)
    ∨ (d.rlen ≠ 0 ∧ beginReadOf d s = State.emit { s with sub := .read } .rx) := by
  unfold beginReadOf
  split
  · next h => exact .inl ⟨h, rfl⟩
  · next h => exact .inr ⟨h, rfl⟩

/-- The count of a received byte, where `rcount` has not reached a read length (R32). -/
theorem nextRcount_toNat {r n : Half} (h : r < n) : (nextRcount r).toNat = r.toNat + 1 := by
  have h1 : r.toNat < n.toNat := h
  have := n.isLt
  unfold nextRcount
  rw [if_neg (by intro h; rw [h] at h1; simp at h1; omega), BitVec.toNat_add, show (1 : Half).toNat = 1 from rfl]
  omega

/-- The extension of the read length and the acknowledge (R185, R187, R188). -/
theorem acknowledge_cases (slot : Nat) (add : Half) (s : State) :
    let rlen := extendRlen (poolAt s slot).rlen add
    let s1 := s.setPool slot { poolAt s slot with rlen := rlen }
    (rlen ≤ s.rcount ∧ acknowledge slot add s = State.emit { s1 with stage := .stopping } .nackStop)
    ∨ (s.rcount < rlen ∧ acknowledge slot add s = s1.emit .ackRx) := by
  intro rlen s1
  unfold acknowledge
  simp only
  split
  · next h => exact .inl ⟨h, rfl⟩
  · next h => exact .inr ⟨BitVec.not_le.1 h, rfl⟩

/-- `EV_STOP`'s release of the active slot (R190). -/
theorem retire_cases (s : State) :
    (s.active = none ∧ retire s = .ok s)
    ∨ (∃ i, s.active = some i ∧ i < s.cfg.nslot ∧ retire s = .ok { s.setUsed i false with active := none })
    ∨ (∃ i, s.active = some i ∧ s.cfg.nslot ≤ i ∧ retire s = .error (.slotOutOfRange i)) := by
  unfold retire
  cases ha : s.active with
  | none => exact .inl ⟨rfl, rfl⟩
  | some i =>
    rcases Nat.lt_or_ge i s.cfg.nslot with h | h
    · exact .inr (.inl ⟨i, rfl, h, by simp [release, h, Except.map]⟩)
    · exact .inr (.inr ⟨i, rfl, h, by simp [release, Nat.not_lt.2 h, Except.map]⟩)

/-- After the release: the next transaction, or Idle (R190). -/
theorem restartOrIdle_cases (s : State) :
    (0 < s.qCount ∧ restartOrIdle s = State.emit { s with stage := .starting } .start)
    ∨ (s.qCount = 0 ∧ restartOrIdle s = { s with stage := .idle }) := by
  unfold restartOrIdle
  split
  · next h => exact .inl ⟨h, rfl⟩
  · next h => exact .inr ⟨by omega, rfl⟩

end Sys2Proof.Machine
end

