-- ==== Sys2Proof/Laws/Dispatch.lean ====
section
/-! SUPPORT. What a dispatched byte leaves alone, whatever the callback does, a delivery and SINK's `ENQ`s included
(42_dispatch_framing.md R213, R222, R235, R236); and that no operation reads the output latch (10_state.md R48). -/

namespace Sys2Proof.Machine

/-- `ENQ` keeps the pool in canonical form. -/
theorem enqueue_poolWf {s : State} (h : tableWf Desc.zero s.pool = true) (d : Desc) :
    tableWf Desc.zero (enqueue d s).2.pool = true := by
  have hn : (noteClamp d s).pool = s.pool := by rw [noteClamp_eq]
  have ha : ∀ (i : Nat) (t : State), t.pool = s.pool → tableWf Desc.zero (acceptDesc (clampDesc s.cfg d) i t).pool = true := by
    intro i t ht
    rw [acceptDesc_eq]
    exact tableSet_wf (by rw [ht]; exact h) _ _
  rcases enqueue_cases s d with ⟨-, he⟩ | ⟨-, -, he⟩ | ⟨-, -, he⟩
  · rw [he]; exact h
  · rw [he]; exact h
  · rw [he]
    rcases allocAndAccept_cases (noteClamp d s) (clampDesc s.cfg d) with ⟨i, -, h4⟩ | ⟨-, -, i, -, h4⟩ | ⟨-, -, h4⟩
    · rw [h4]; exact ha i _ hn
    · rw [h4]; exact ha i _ hn
    · rw [h4, hn]; exact h

theorem enqueueAll_poolWf : ∀ (ds : List Desc) {s : State}, tableWf Desc.zero s.pool = true →
    tableWf Desc.zero (enqueueAll ds s).2.pool = true
  | [], _, h => h
  | d :: ds, _, h => enqueueAll_poolWf ds (enqueue_poolWf h d)

/-- The fields no dispatch of a byte writes. -/
structure DispatchFrame (s t : State) : Prop where
  qHead : t.qHead = s.qHead
  sub : t.sub = s.sub
  active : t.active = s.active
  widx : t.widx = s.widx
  rcount : t.rcount = s.rcount
  cbtab : t.cbtab = s.cbtab
  cfg : t.cfg = s.cfg
  inbox : t.inbox = s.inbox
  resp : t.out.resp = s.out.resp
  ret : t.out.ret = s.out.ret
  poolWf : tableWf Desc.zero s.pool = true → tableWf Desc.zero t.pool = true

theorem DispatchFrame.refl (s : State) : DispatchFrame s s where
  qHead := rfl
  sub := rfl
  active := rfl
  widx := rfl
  rcount := rfl
  cbtab := rfl
  cfg := rfl
  inbox := rfl
  resp := rfl
  ret := rfl
  poolWf := id

theorem DispatchFrame.trans {s t u : State} (h1 : DispatchFrame s t) (h2 : DispatchFrame t u) : DispatchFrame s u where
  qHead := h2.qHead.trans h1.qHead
  sub := h2.sub.trans h1.sub
  active := h2.active.trans h1.active
  widx := h2.widx.trans h1.widx
  rcount := h2.rcount.trans h1.rcount
  cbtab := h2.cbtab.trans h1.cbtab
  cfg := h2.cfg.trans h1.cfg
  inbox := h2.inbox.trans h1.inbox
  resp := h2.resp.trans h1.resp
  ret := h2.ret.trans h1.ret
  poolWf := fun h => h2.poolWf (h1.poolWf h)

theorem FramingFrame.dispatchFrame {s t : State} (h : FramingFrame s t) : DispatchFrame s t where
  qHead := h.qHead
  sub := h.sub
  active := h.active
  widx := h.widx
  rcount := h.rcount
  cbtab := h.cbtab
  cfg := h.cfg
  inbox := h.inbox
  resp := by rw [h.out]
  ret := by rw [h.out]
  poolWf := fun hw => by rw [h.pool]; exact hw

/-- `DELIVER` (R235). -/
theorem dispatchFrame_deliver {s t : State} (h : deliverFrame s = .ok t) : DispatchFrame s t := by
  rcases Nat.lt_or_ge s.cfg.rxcap s.rxCur.toNat with hc | hc
  · rw [deliverFrame_error s hc] at h
    exact absurd h (by simp)
  · rw [deliverFrame_ok s hc] at h
    injection h with h
    have hq := queueFrame_enqueueAll (sinkAnswer s) (handOver s)
    have hp := enqueueAll_poolWf (sinkAnswer s) (s := handOver s)
    subst h
    exact
      { qHead := hq.qHead, sub := hq.sub, active := hq.active, widx := hq.widx, rcount := hq.rcount, cbtab := hq.cbtab
        cfg := hq.cfg, inbox := hq.inbox, resp := hq.resp, ret := hq.ret, poolWf := hp }

/-- `SHTP_CB` (R222). -/
theorem dispatchFrame_shtp {s : State} {b : Byte} {remaining : Half} {r : Half × State}
    (h : shtpCallback b remaining s = .ok r) : DispatchFrame s r.2 := by
  have hf := (framingFrame_transferByte s b).dispatchFrame
  have hx : ∀ (t : State) (i : Fin 5), DispatchFrame t { t with xfIdx := i } := fun t i =>
    { DispatchFrame.refl t with }
  have h1 := hf.trans (hx _ (nextIdx s.xfIdx))
  rcases shtpCallback_cases s b remaining with ⟨-, he⟩ | ⟨-, -, -, he⟩ | ⟨-, -, -, he⟩
  · rw [he] at h; injection h with h; subst h
    exact h1
  · rw [he] at h; injection h with h; subst h
    exact h1.trans (hx _ 0)
  · rw [he] at h
    cases hd : deliverFrame { (transferByte b s).2 with xfIdx := nextIdx s.xfIdx } with
    | error e => rw [hd] at h; simp [Except.map] at h
    | ok t =>
      rw [hd] at h; injection h with h; subst h
      exact (h1.trans (dispatchFrame_deliver hd)).trans (hx _ 0)

/-- `DISPATCH` (R213). -/
theorem dispatchFrame_dispatch {s : State} {addr : BitVec 7} {b : Byte} {remaining : Half} {r : Half × State}
    (h : dispatchByte addr b remaining s = .ok r) : DispatchFrame s r.2 := by
  unfold dispatchByte at h
  split at h
  · injection h with h; subst h; exact .refl s
  · exact dispatchFrame_shtp h

/-! ### The output latch is no input (R48, R83) -/

/-- No operation reads the output of the step before it. -/
theorem exec_ignores_out (i : Instr) (s : State) (o : Output) : exec i { s with out := o } = exec i s := by
  cases i <;> rfl

theorem step_ignores_out (s : State) (o : Output) : step { s with out := o } = step s := by
  cases h : s.inbox with
  | nil => simp [step, fetch, h, State.beginStep]
  | cons w more =>
    cases w with
    | hc bytes =>
      cases hd : decodeHc bytes with
      | ok r => simp only [step, fetch, h, hd]; exact exec_ignores_out r.1 { s with inbox := afterCommand r.2 more } o
      | error e => simp [step, fetch, h, hd]
    | ev w =>
      cases hd : decodeEv w with
      | ok i => simp only [step, fetch, h, hd]; exact exec_ignores_out i { s with inbox := more } o
      | error e => simp [step, fetch, h, hd, State.beginStep]

/-- What is observed of a run does not depend on what was put out before it (R83). -/
theorem observe_ignores_out (n : Nat) (s : State) (o : Output) : observe n { s with out := o } = observe n s := by
  cases n with
  | zero => rfl
  | succ n => simp only [observe, stepOutputs, step_ignores_out]

/-- `rcount + 1` where a byte is still due (R185, R32). -/
theorem nextRcount_lt {r : Half} (h : r.toNat + 1 ≤ 65535) : nextRcount r = r + 1 := by
  unfold nextRcount
  rw [if_neg]
  rintro rfl
  simp at h

/-- `bytes_remaining` where a byte is still due (R186). -/
theorem bytesRemaining_eq {rlen r : Half} (h : r.toNat + 1 ≤ rlen.toNat) :
    bytesRemaining rlen (r + 1) = BitVec.ofNat 16 (rlen.toNat - (r.toNat + 1)) := by
  have := rlen.isLt
  have e : (r + 1).toNat = r.toNat + 1 := by rw [BitVec.toNat_add, show (1 : Half).toNat = 1 from rfl]; omega
  unfold bytesRemaining
  rw [if_pos (by rw [BitVec.le_def, e]; exact h)]
  apply BitVec.eq_of_toNat_eq
  rw [BitVec.toNat_sub, e, BitVec.toNat_ofNat]
  omega

/-- `cont` is bit 7 of byte 1 (R110, R111). -/
theorem headerCont_eq (byte0 byte1 : Byte) : headerCont (headerRaw byte0 byte1) = byte1.getLsbD 7 := by
  simp only [headerCont, headerRaw, halfOfBytes, BitVec.getLsbD_append]
  rfl

/-- `len` from the two length bytes (R110, R111). -/
theorem headerLen_eq (byte0 byte1 : Byte) :
    headerLen (headerRaw byte0 byte1) = (byte1.toNat % 128) * 256 + byte0.toNat := by
  unfold headerLen headerRaw
  rw [BitVec.extractLsb'_toNat, halfOfBytes_toNat]
  have := byte0.isLt
  have := byte1.isLt
  simp only [Nat.shiftRight_zero]
  omega

/-- `contrib`, in one subtraction of natural numbers (R226). -/
theorem contribution_eq (len : Nat) : contribution len = len - 4 := by unfold contribution; split <;> omega

end Sys2Proof.Machine
end

