-- ==== Sys2Proof/Laws/PerInstr.lean ====
section
/-! SUPPORT. A family over the instructions as syntax: no operation has both an input encoding and an output encoding, so a
word of the EV port and a word of the BC port are never confused by the encoder (30_encoding.md R90). -/

namespace Sys2Proof.Laws.OnePort

/-- An operation is encoded for an input port, or for the output port, or for none, and for no two. -/
def Statement (i : Sys2Proof.Instr) : Prop := Sys2Proof.encodeIn i = none ∨ Sys2Proof.encodeBc i = none

theorem nop : Statement .nop := .inr rfl
theorem enq (d : Sys2Proof.Desc) : Statement (.enq d) := .inr rfl
theorem regcb (addr : BitVec 7) (kind : BitVec 2) : Statement (.regcb addr kind) := .inr rfl
theorem awaitSet : Statement .awaitSet := .inr rfl
theorem size : Statement .size := .inr rfl
theorem status : Statement .status := .inr rfl
theorem reset : Statement .reset := .inr rfl
theorem hcReserved (op : Sys2Proof.Byte) : Statement (.hcReserved op) := .inr rfl
theorem evStart : Statement .evStart := .inr rfl
theorem evTxAck : Statement .evTxAck := .inr rfl
theorem evTxNack : Statement .evTxNack := .inr rfl
theorem evRx (b : Sys2Proof.Byte) : Statement (.evRx b) := .inr rfl
theorem evStop : Statement .evStop := .inr rfl
theorem evReserved (code : BitVec 3) : Statement (.evReserved code) := .inr rfl
theorem bcNone : Statement .bcNone := .inl rfl
theorem bcStart : Statement .bcStart := .inl rfl
theorem bcTx (d : Sys2Proof.Byte) : Statement (.bcTx d) := .inl rfl
theorem bcRx : Statement .bcRx := .inl rfl
theorem bcAckRx : Statement .bcAckRx := .inl rfl
theorem bcNackStop : Statement .bcNackStop := .inl rfl
theorem bcStop : Statement .bcStop := .inl rfl
theorem bcReserved : Statement .bcReserved := .inl rfl
theorem alloc : Statement .alloc := .inl rfl
theorem reclaim : Statement .reclaim := .inl rfl
theorem push (slot : Nat) : Statement (.push slot) := .inl rfl
theorem deq : Statement .deq := .inl rfl
theorem release (slot : Nat) : Statement (.release slot) := .inl rfl
theorem writeNext : Statement .writeNext := .inl rfl
theorem beginRead : Statement .beginRead := .inl rfl
theorem dispatch (addr : BitVec 7) (b : Sys2Proof.Byte) (remaining : Sys2Proof.Half) : Statement (.dispatch addr b remaining) := .inl rfl
theorem shtpCb (b : Sys2Proof.Byte) (remaining : Sys2Proof.Half) : Statement (.shtpCb b remaining) := .inl rfl
theorem store (b : Sys2Proof.Byte) : Statement (.store b) := .inl rfl
theorem deliver : Statement .deliver := .inl rfl

end Sys2Proof.Laws.OnePort
end

