-- ==== Sys2Proof/Tests/Slice0.lean ====
section
/-! SUPPORT. Tests: what is ill formed is refused, the spec's words decode, each operation on the spec's own examples (one
step each, the source of every expected value in its comment), and for every statement a state that meets its hypotheses. -/

namespace Sys2Proof.Tests

open Sys2Proof.Machine

/-! ### Small states -/

/-- Whether an outcome is a next state with a property. -/
def nextWith (r : Result) (p : State → Bool) : Bool :=
  match r with
  | .next t => p t
  | .fault _ => false
  | .refused _ => false

/-- A small configuration: two queued transactions, two write bytes, eight received bytes. -/
def tiny : Config := { qcap := 2, maxw := 2, rxcap := 8 }

/-- The next state of an outcome that has one. -/
def stateOf (r : Result) : State :=
  match r with
  | .next t => t
  | .fault _ => State.reset
  | .refused _ => State.reset

/-- A 4-byte read of address 0x4A (`HDRREAD`, 30_encoding.md R120). -/
def headerRead : Desc := { addr := 0x4A, dir := .read, rlen := 4, wdata := [] }

/-- A write of AA 55 to address 0x50, then a read of two bytes. -/
def writeRead : Desc := { addr := 0x50, dir := .write, rlen := 2, wdata := [0xAA, 0x55] }

/-- The engine at a position, with `d` active in slot 0. -/
def engineAt (st : Stage) (sub : SubPhase) (d : Desc) : State :=
  { State.resetWith tiny with
    pool := [(0, d)]
    used := [(0, true)]
    active := some 0
    stage := st
    sub := sub }

/-- One transaction queued in slot 0, the start commanded. -/
def starting : State :=
  { State.resetWith tiny with
    pool := [(0, headerRead)]
    used := [(0, true)]
    qCount := 1
    stage := .starting }

/-- A header read in its read sub-phase, a second transaction queued behind it in slot 1. -/
def reading : State :=
  { State.resetWith tiny with
    pool := [(0, headerRead), (1, { headerRead with rlen := 1 })]
    used := [(0, true), (1, true)]
    fifo := [(0, 1)]
    qCount := 1
    active := some 0
    stage := .dataPhase
    sub := .read
    cbtab := [(0x4A, .shtp)]
    awaiting := true }

/-- The framing layer holding the first two bytes of a frame of `n` bytes, at byte `i` of a transfer. -/
def framingAt (i : Fin 5) (n : Half) : State :=
  { engineAt .dataPhase .read headerRead with
    xfIdx := i
    rxbuf := [(0, 6), (1, 9)]
    rxCur := 2
    frameLen := n
    awaiting := true }

/-! ### Ill-formed operations -/

/-- R9: a write of 255 bytes has `wlen = 0xFF`; one of 256 bytes cannot be built, by anyone (`wlenFits`). -/
theorem test_wlen_is_a_byte :
    ({ headerRead with wdata := List.replicate 255 0, wlenFits := by decide +kernel } : Desc).wlen = 0xFF
    ∧ ¬∃ d : Desc, d.wdata = List.replicate 256 0 :=
  ⟨by decide +kernel, fun ⟨d, h⟩ => absurd d.wlenFits (by rw [h, List.length_replicate]; decide)⟩
theorem test_reserved_opcode_ill_formed : Instr.wf tiny (.hcReserved 0x06) = false := by decide
theorem test_reserved_event_ill_formed : Instr.wf tiny (.evReserved 5) = false := by decide
theorem test_push_slot_ill_formed : Instr.wf tiny (.push 4) = false := by decide
theorem test_release_slot_ill_formed : Instr.wf tiny (.release 4) = false := by decide
theorem test_well_formed : Instr.wf tiny (.enq writeRead) = true ∧ Instr.wf tiny (.push 3) = true := by decide

/-! ### Decoding: words written out from 30_encoding.md -/

theorem test_decode_nop : decodeHc [0x00, 0x04] = .ok (.nop, [0x04]) := by decide
theorem test_decode_enq_read : decodeHc [0x01, 0x95, 0x00, 0x04, 0x00] = .ok (.enq headerRead, []) := by decide   -- R106
theorem test_decode_enq_write :
    decodeHc [0x01, 0xA0, 0x02, 0x02, 0x00, 0xAA, 0x55, 0x05] = .ok (.enq writeRead, [0x05]) := by decide        -- R106
theorem test_decode_enq_rlen_little_endian :
    decodeHc [0x01, 0x00, 0x00, 0x34, 0x12] = .ok (.enq { addr := 0, dir := .write, rlen := 0x1234, wdata := [] }, []) := by
  decide                                                                                                         -- R92
theorem test_decode_enq_cut_short : decodeHc [0x01, 0xA0, 0x02, 0x02, 0x00, 0xAA] = .error .incompleteCommand := by decide
theorem test_decode_regcb : decodeHc [0x02, 0x4A, 0x01] = .ok (.regcb 0x4A 1, []) := by decide                     -- R107
theorem test_decode_regcb_ignored_bits : decodeHc [0x02, 0xCA, 0xFD] = .ok (.regcb 0x4A 1, []) := by decide        -- R107
theorem test_decode_await_set : decodeHc [0x03] = .ok (.awaitSet, []) := by decide
theorem test_decode_size : decodeHc [0x04] = .ok (.size, []) := by decide
theorem test_decode_status : decodeHc [0x05] = .ok (.status, []) := by decide
theorem test_decode_reset : decodeHc [0x06] = .ok (.reset, []) := by decide
theorem test_decode_reserved : decodeHc [0x07, 0x00] = .ok (.hcReserved 0x07, [0x00]) ∧ decodeHc [0xFF] = .ok (.hcReserved 0xFF, []) := by
  decide
theorem test_decode_no_event : decodeEv 0x0FF#11 = .error .noEvent := by decide
theorem test_decode_ev_start : decodeEv 0b00100000000#11 = .ok .evStart := by decide
theorem test_decode_ev_tx_ack : decodeEv 0b01000000000#11 = .ok .evTxAck := by decide
theorem test_decode_ev_tx_nack : decodeEv 0b01100000000#11 = .ok .evTxNack := by decide
theorem test_decode_ev_rx : decodeEv 0b10010100101#11 = .ok (.evRx 0xA5) := by decide
theorem test_decode_ev_stop : decodeEv 0b10111111111#11 = .ok .evStop := by decide
theorem test_decode_ev_reserved :
    decodeEv 0b11000000000#11 = .ok (.evReserved 6) ∧ decodeEv 0b11100000001#11 = .ok (.evReserved 7) := by decide
theorem test_decode_bc_none : decodeBc 0b00000000000#11 = .bcNone := by decide
theorem test_decode_bc_start : decodeBc 0b00100000000#11 = .bcStart := by decide
theorem test_decode_bc_tx : decodeBc 0b01010010101#11 = .bcTx 0x95 := by decide
theorem test_decode_bc_rx : decodeBc 0b01100000000#11 = .bcRx := by decide
theorem test_decode_bc_ack_rx : decodeBc 0b10000000000#11 = .bcAckRx := by decide
theorem test_decode_bc_nack_stop : decodeBc 0b10100000000#11 = .bcNackStop := by decide
theorem test_decode_bc_stop : decodeBc 0b11000000000#11 = .bcStop := by decide
theorem test_decode_bc_reserved : decodeBc 0b11100000000#11 = .bcReserved := by decide
theorem test_encode_enq : encodeIn (.enq headerRead) = some (.hc [0x01, 0x95, 0x00, 0x04, 0x00]) := by decide      -- R106
theorem test_table_words : decodeTableWord 8 0x04 = some .size ∧ decodeTableWord 16 0x4A5 = some (.evRx 0xA5)
    ∧ decodeTableWord 16 0x000 = some .bcNone ∧ decodeTableWord 8 0x02 = some (.regcb 0 0) := by decide +kernel
theorem test_fetch_word_runs :
    nextWith (step (State.reset.withFetchWord 8 0x03)) (fun t => t.awaiting && decide (t.inbox = [])) = true := by decide +kernel

/-! ### Host commands -/

theorem test_nop : nextWith (exec .nop reading) (fun t => decide (t = reading)) = true := by decide +kernel       -- R250
theorem test_size_not_active : nextWith (exec .size reading) (fun t => decide (t.out.resp = some (.count 1))) = true := by
  decide                                                                                                         -- R140
/-- R251: after the five `ENQ`s of R147 the word is 0x00040101. -/
theorem test_status_example :
    nextWith (exec .status { State.reset with qCount := 4, err := 0x01, stage := .starting })
      (fun t => decide (t.out.resp = some (.word 0x00040101))) = true := by decide
theorem test_status_err_kept : nextWith (exec .status { reading with err := 0x21 })
    (fun t => decide (t.err = 0x21) && decide (t.out.resp = some (.word 0x0001217B))) = true := by decide         -- R116
theorem test_reset_then_zero : nextWith (exec .reset { reading with err := 0x7F })
    (fun t => decide (statusWord t = 0) && decide (kindAt t 0x4A = .none) && decide (t.cfg = tiny)) = true := by
  decide                                                                                                         -- R252
theorem test_await_set : nextWith (exec .awaitSet State.reset) (fun t => t.awaiting) = true := by decide          -- R240
theorem test_reserved_opcode : nextWith (exec (.hcReserved 0x80) State.reset) (fun t => decide (t.err = 0x40)) = true := by
  decide                                                                                                         -- R253
theorem test_regcb : nextWith (exec (.regcb 0x4A 1) State.reset)
    (fun t => decide (kindAt t 0x4A = .shtp) && decide (kindAt t 0x4B = .none)) = true := by decide               -- R211
theorem test_regcb_reserved_kind : nextWith (exec (.regcb 0x4A 2) reading)
    (fun t => decide (kindAt t 0x4A = .shtp) && decide (t.err = 0x40)) = true := by decide                        -- R211

/-! ### The queue -/

/-- R136: from reset, `ENQ a=0x4A d=R w=[] r=4`. -/
theorem test_enq_idle :
    nextWith (exec (.enq headerRead) State.reset)
      (fun t => decide (t.out.resp = some (.accepted true)) && decide (t.out.bc = .start) && usedAt t 0 && !usedAt t 1
        && decide (fifoAt t 0 = 0) && decide (t.qCount = 1) && decide (t.stage = .starting)) = true := by decide +kernel
/-- R139: over-long write bytes are dropped, the flag set; R136 (d): nothing is emitted while a transaction is active. -/
theorem test_enq_clamp :
    nextWith (exec (.enq { headerRead with wdata := [1, 2, 3], wlenFits := by decide }) reading)
      (fun t => decide ((poolAt t 2).wdata = [1, 2]) && decide (t.err = 0x40) && decide (t.out.bc = .none)
        && decide (queuedSlots t = [1, 2])) = true := by decide +kernel
/-- R131: `used = 1,1,0,1,0,0` gives `some 2` and `used = 1,1,1,1,0,0`. -/
theorem test_alloc :
    nextWith (exec .alloc { State.reset with used := [(0, true), (1, true), (3, true)] })
      (fun t => decide (t.out.ret = some (.slot (some 2))) && decide (t.used = [(0, true), (1, true), (2, true), (3, true)]))
      = true := by decide +kernel
/-- R132: all used, `active = some 3` gives `used = 0,0,0,1,0,0`. -/
theorem test_reclaim :
    nextWith (exec .reclaim { State.reset with used := (List.range 6).map (fun i => (i, true)), active := some 3 })
      (fun t => decide (t.used = [(3, true)]) && decide (t.err = 0x02)) = true := by decide +kernel
/-- R133: `q_head = 0`, `q_count = 2`, `PUSH(5)` gives `fifo[2] = 5`, `q_count = 3`. -/
theorem test_push :
    nextWith (exec (.push 5) { State.reset with qCount := 2 }) (fun t => decide (fifoAt t 2 = 5) && decide (t.qCount = 3))
      = true := by decide
/-- R133: the ring wraps: `q_head = 3`, `q_count = 1` writes `fifo[0]`. -/
theorem test_push_wraps :
    nextWith (exec (.push 5) { State.reset with qHead := 3, qCount := 1 }) (fun t => decide (fifoAt t 0 = 5)) = true := by
  decide
/-- R134: `fifo = 2,0,5,_`, `q_head = 1`, `q_count = 2` returns `some 0`, leaves `q_head = 2`, `q_count = 1`. -/
theorem test_deq :
    nextWith (exec .deq { State.reset with fifo := [(0, 2), (2, 5)], qHead := 1, qCount := 2 })
      (fun t => decide (t.out.ret = some (.slot (some 0))) && decide (t.qHead = 2) && decide (t.qCount = 1)) = true := by
  decide
theorem test_deq_wraps : nextWith (exec .deq { State.reset with qHead := 3, qCount := 1 }) (fun t => decide (t.qHead = 0))
    = true := by decide                                                                                           -- R134
/-- R135: `used = 1,0,1,0,0,0`, `RELEASE(2)` gives `1,0,0,0,0,0`. -/
theorem test_release :
    nextWith (exec (.release 2) { State.reset with used := [(0, true), (2, true)] }) (fun t => decide (t.used = [(0, true)]))
      = true := by decide

/-! ### The engine -/

/-- R170: after `READ 0x4A, 4` from reset, `EV_START` gives active 0, an empty queue, AddressPhase, Read, `BC_TX 0x95`. -/
theorem test_ev_start_pops :
    nextWith (exec .evStart starting)
      (fun t => decide (t.active = some 0) && decide (t.qCount = 0) && decide (t.stage = .addressPhase)
        && decide (t.sub = .read) && decide (t.out.bc = .tx 0x95)) = true := by decide
/-- R173, R197: the re-sent address of 0x50 carries the read bit. -/
theorem test_ev_start_restart :
    nextWith (exec .evStart (engineAt .dataPhase .reStart writeRead))
      (fun t => decide (t.sub = .reAddr) && decide (t.out.bc = .tx 0xA1) && decide (t.active = some 0)) = true := by decide
/-- R16, log entry 28: with no active transaction there is no address to send again: the event only sets PROTO. -/
theorem test_ev_start_restart_none :
    nextWith (exec .evStart { engineAt .dataPhase .reStart writeRead with active := none })
      (fun t => decide (t.err = 0x20) && decide (t.out.bc = .none) && decide (t.sub = .reStart)) = true := by decide
/-- R197: the acknowledge of the address byte sends `wdata[0]`. -/
theorem test_ev_tx_ack_first_byte :
    nextWith (exec .evTxAck (engineAt .addressPhase .write writeRead))
      (fun t => decide (t.out.bc = .tx 0xAA) && decide (t.widx = 1) && decide (t.stage = .dataPhase)) = true := by decide
/-- R175: (AddressPhase, Read), `rlen = 4`: next (DataPhase, Read), `BC_RX`. -/
theorem test_ev_tx_ack_begins_read :
    nextWith (exec .evTxAck (engineAt .addressPhase .read headerRead))
      (fun t => decide (t.out.bc = .rx) && decide (t.sub = .read) && decide (t.stage = .dataPhase)) = true := by decide
/-- R176: `wlen = 2`, `widx = 2`, `rlen = 0`: Stopping, `BC_STOP`. -/
theorem test_write_next_stops :
    nextWith (exec .writeNext { engineAt .dataPhase .write { writeRead with rlen := 0 } with widx := 2 })
      (fun t => decide (t.out.bc = .stop) && decide (t.stage = .stopping)) = true := by decide
theorem test_write_next_restarts :
    nextWith (exec .writeNext { engineAt .dataPhase .write writeRead with widx := 2 })
      (fun t => decide (t.out.bc = .start) && decide (t.sub = .reStart)) = true := by decide                       -- R176
theorem test_begin_read_of_nothing :
    nextWith (exec .beginRead (engineAt .dataPhase .reAddr { headerRead with rlen := 0 }))
      (fun t => decide (t.out.bc = .stop) && decide (t.stage = .stopping)) = true := by decide                     -- R177
/-- R180: (AddressPhase, Write): Stopping, `BC_STOP`, `err.NACK = 1`. -/
theorem test_ev_tx_nack :
    nextWith (exec .evTxNack (engineAt .addressPhase .write writeRead))
      (fun t => decide (t.out.bc = .stop) && decide (t.stage = .stopping) && decide (t.err = 0x08) && usedAt t 0) = true := by
  decide
theorem test_ev_tx_nack_unexpected :
    nextWith (exec .evTxNack reading) (fun t => decide (t.err = 0x20) && decide (t.stage = .dataPhase)) = true := by decide
/-- R185: `rlen = 4`, `rcount = 1`, `b = 0x00`, length field 6: `rcount = 2`, `rlen = 6`, `BC_ACK_RX`. -/
theorem test_ev_rx_extends :
    nextWith (exec (.evRx 0x00) { reading with rcount := 1, xfIdx := 1, h0 := 6 })
      (fun t => decide (t.rcount = 2) && decide ((poolAt t 0).rlen = 6) && decide (t.out.bc = .ackRx)
        && decide (t.frameLen = 6)) = true := by decide +kernel
/-- R185 (a): `rlen = 1`, the callback returns 0: `BC_NACK_STOP`. -/
theorem test_ev_rx_last :
    nextWith (exec (.evRx 0x11) (engineAt .dataPhase .read { headerRead with rlen := 1 }))
      (fun t => decide (t.out.bc = .nackStop) && decide (t.stage = .stopping)) = true := by decide +kernel
/-- R190: `active = some 0`, `q_count = 1`: slot 0 freed, active none, Starting, `BC_START`. -/
theorem test_ev_stop_restarts :
    nextWith (exec .evStop { reading with stage := .stopping })
      (fun t => !usedAt t 0 && decide (t.active = none) && decide (t.stage = .starting) && decide (t.out.bc = .start)) = true := by
  decide
theorem test_ev_stop_idles :
    nextWith (exec .evStop (engineAt .stopping .read headerRead))
      (fun t => decide (t.stage = .idle) && decide (t.out.bc = .none) && decide (t.used = [])) = true := by decide  -- R190
theorem test_ev_reserved : nextWith (exec (.evReserved 7) reading) (fun t => decide (t.err = 0x20) && decide (t.rcount = 0))
    = true := by decide                                                                                           -- R195

/-! ### Dispatch and framing -/

/-- R213: `cbtab[0x50] = NONE`: `DISPATCH(0x50, 0x11, 1) = 0`. -/
theorem test_dispatch_none :
    nextWith (exec (.dispatch 0x50 0x11 1) reading) (fun t => decide (t.out.ret = some (.add 0)) && decide (t.xfIdx = 0))
      = true := by decide
theorem test_dispatch_shtp :
    nextWith (exec (.dispatch 0x4A 0x06 3) reading) (fun t => decide (t.h0 = 6) && decide (t.xfIdx = 1)) = true := by decide
/-- R243, call 2: `06` then `00`: fresh, `06 00` stored, `frame_len = 6`, `add = 2`. -/
theorem test_shtp_header :
    nextWith (exec (.shtpCb 0x00 2) { reading with xfIdx := 1, h0 := 6 })
      (fun t => decide (t.out.ret = some (.add 2)) && decide (t.rxCur = 2) && decide (rxAt t 0 = 6) && decide (t.frameLen = 6))
      = true := by decide +kernel
/-- R226 in a buffer of 32 bytes: `len = 33` becomes 31, `contrib = 27`, OVF. -/
theorem test_shtp_overlong :
    nextWith (exec (.shtpCb 0x00 2) { State.reset with xfIdx := 1, h0 := 33 })
      (fun t => decide (t.out.ret = some (.add 27)) && decide (t.frameLen = 31) && decide (t.err = 0x10)) = true := by
  decide +kernel
theorem test_store : nextWith (exec (.store 0x7E) (framingAt 2 6))
    (fun t => decide (rxAt t 2 = 0x7E) && decide (t.rxCur = 3) && decide (rxAt t 1 = 9)) = true := by decide       -- R228
theorem test_store_full : nextWith (exec (.store 0x7E) { framingAt 2 6 with rxCur := 8 })
    (fun t => decide (t.rxCur = 8) && decide (t.err = 0x10) && decide (rxAt t 8 = 0)) = true := by decide          -- R228
theorem test_deliver :
    nextWith (exec .deliver (framingAt 4 2))
      (fun t => decide (t.out.frame = some { n := 2, bytes := [6, 9] }) && decide (t.rxCur = 0) && decide (t.frameLen = 0)
        && !t.awaiting) = true := by decide +kernel                                                               -- R235
/-- R236: SINK's descriptor is enqueued behind the one queued, its acceptance goes back to SINK, nothing is emitted. -/
theorem test_deliver_sink :
    nextWith (exec .deliver { reading with sinkAnswers := [[writeRead]] })
      (fun t => decide (queuedSlots t = [1, 2]) && decide (t.out.sinkResp = [true]) && decide (t.out.bc = .none)
        && decide (t.out.resp = none)) = true := by decide +kernel

/-! ### What is observed -/

/-- R83, R116: from reset, `ENQ` of the header read, `SIZE`, `EV_START`: two bus commands (the `BC_NONE` of `SIZE` is omitted),
two responses, no frame. -/
theorem test_observe :
    observe 3 { State.reset with inbox := [.hc [0x01, 0x95, 0x00, 0x04, 0x00, 0x04], .ev 0x100#11] }
      = { bus := [.start, .tx 0x95], responses := [.accepted true, .count 1], frames := [] } := by decide +kernel

/-! ### Bus commands -/

theorem test_bc_words : [BusCommand.none, .start, .tx 0x95, .rx, .ackRx, .nackStop, .stop].map busWord
    = [0x000, 0x100, 0x295, 0x300, 0x400, 0x500, 0x600] := by decide                                              -- R100
theorem test_bc_none : nextWith (exec .bcNone reading) (fun t => decide (t = reading)) = true := by decide +kernel
theorem test_bc_start : nextWith (exec .bcStart reading) (fun t => decide (t.out.bc = .start)) = true := by decide
theorem test_bc_tx : nextWith (exec (.bcTx 0x95) reading) (fun t => decide (t.out.bc = .tx 0x95)) = true := by decide
theorem test_bc_rx : nextWith (exec .bcRx reading) (fun t => decide (t.out.bc = .rx)) = true := by decide
theorem test_bc_ack_rx : nextWith (exec .bcAckRx reading) (fun t => decide (t.out.bc = .ackRx)) = true := by decide
theorem test_bc_nack_stop : nextWith (exec .bcNackStop reading) (fun t => decide (t.out.bc = .nackStop)) = true := by decide
theorem test_bc_stop : nextWith (exec .bcStop reading) (fun t => decide (t.out.bc = .stop)) = true := by decide
theorem test_bc_reserved : exec .bcReserved reading = .refused .reservedBusCommand := by rfl

/-! ### Hypotheses that a state meets

One theorem for each statement with hypotheses, one for each clause. -/

/-- A state with a full pool: nothing free, nothing queued, slot 0 active. -/
def poolFull : State := { engineAt .dataPhase .read headerRead with used := (List.range 4).map (fun i => (i, true)) }

theorem reading_inv : reading.Inv := by
  have hl : liveSlots reading = [0, 1] := by decide
  have hp : ∀ i, poolAt reading i = if i = 0 then headerRead else if i = 1 then { headerRead with rlen := 1 } else Desc.zero := by
    intro i
    simp only [poolAt, reading, tableGet]
    split_ifs <;> first | rfl | omega
  have ha : ∀ i, reading.active = some i → i = 0 := fun i h => (Option.some.inj h).symm
  exact
    { cfgValid := by decide
      canonical := by decide
      bounded := by unfold TablesBounded; decide
      idle := by decide
      starting := by decide
      busy := by decide
      headRange := by decide
      countRange := by decide
      distinct := by rw [hl]; decide
      owned := by
        intro i
        rw [hl]
        simp only [usedAt, reading, tableGet, List.mem_cons, List.not_mem_nil, or_false]
        split_ifs <;> simp <;> omega
      cursorRange := by decide
      writeBuffer := by
        intro i
        rw [hp]
        split_ifs <;> decide
      counters := by intro i h; rw [ha i h]; decide
      addressSub := by decide
      restartReads := by intro _ h; exact absurd h (by decide)
      notYetRead := by unfold beforeRead; decide
      readingLeft := by intro _ _ i h; rw [ha i h]; decide
      errFlags := by decide }

theorem starting_inv : starting.Inv := by
  have hl : liveSlots starting = [0] := by decide
  have hp : ∀ i, poolAt starting i = if i = 0 then headerRead else Desc.zero := by
    intro i
    simp only [poolAt, starting, tableGet]
    split_ifs <;> first | rfl | omega
  exact
    { cfgValid := by decide
      canonical := by decide
      bounded := by unfold TablesBounded; decide
      idle := by decide
      starting := by decide
      busy := by decide
      headRange := by decide
      countRange := by decide
      distinct := by rw [hl]; decide
      owned := by
        intro i
        rw [hl]
        simp only [usedAt, starting, tableGet, List.mem_cons, List.not_mem_nil, or_false]
        split_ifs <;> simp <;> omega
      cursorRange := by decide
      writeBuffer := by
        intro i
        rw [hp]
        split_ifs <;> decide
      counters := by intro i h; exact absurd h (by simp [starting, State.resetWith])
      addressSub := by decide
      restartReads := by intro h; exact absurd h (by decide)
      notYetRead := by unfold beforeRead; decide
      readingLeft := by intro h; exact absurd h (by decide)
      errFlags := by decide }

theorem witness_StatusReportsState : reading.qCount < 65536 := by decide
theorem witness_SizeCountsQueued : (2 : Nat) = { reading with qCount := 2 }.qCount ∧ { reading with qCount := 2 }.qCount < 65536 := by
  decide
theorem witness_ReservedOpcodeRaisesDesc : 7 ≤ (0x07 : Byte).toNat ∧ 7 ≤ (0xFF : Byte).toNat := by decide
theorem witness_RegcbSetsOneEntry :
    tablesWf reading = true ∧ (0 : BitVec 2) = 0 ∧ (1 : BitVec 2) = 1 ∧ ((3 : BitVec 2) = 2 ∨ (3 : BitVec 2) = 3) := by decide

theorem witness_EnqDeclines_fatal : flagSet { reading with err := 0x04 }.err .poolFatal = true := by decide
theorem witness_EnqDeclines_full : flagSet { reading with qCount := 2 }.err .poolFatal = false
    ∧ { reading with qCount := 2 }.qCount = tiny.qcap := by decide
theorem witness_EnqDeclines_exhausted : flagSet { poolFull with qCount := 1 }.err .poolFatal = false
    ∧ { poolFull with qCount := 1 }.qCount ≠ tiny.qcap ∧ { poolFull with qCount := 1 }.qCount ≠ 0
    ∧ ∀ i < tiny.nslot, usedAt { poolFull with qCount := 1 } i = true := by decide
theorem witness_EnqAccepts : tablesWf reading = true ∧ flagSet reading.err .poolFatal = false ∧ reading.qCount ≠ tiny.qcap
    ∧ 2 < tiny.nslot ∧ usedAt reading 2 = false ∧ ∀ j < 2, usedAt reading j = true := by decide
theorem witness_EnqAccepts_idle : tablesWf State.reset = true ∧ flagSet State.reset.err .poolFatal = false
    ∧ State.reset.qCount ≠ State.reset.cfg.qcap ∧ 0 < State.reset.cfg.nslot ∧ usedAt State.reset 0 = false := by decide
theorem witness_EnqReclaims : tablesWf poolFull = true ∧ flagSet poolFull.err .poolFatal = false ∧ poolFull.qCount = 0
    ∧ poolFull.cfg.qcap ≠ 0 ∧ (∀ j < poolFull.cfg.nslot, usedAt poolFull j = true)
    ∧ 1 = (if poolFull.active = some 0 then 1 else 0) := by decide
theorem witness_EnqReclaims_none_active : 0 = (if { poolFull with active := none }.active = some 0 then 1 else 0)
    ∧ (∀ j < poolFull.cfg.nslot, usedAt { poolFull with active := none } j = true) := by decide
theorem witness_EnqDeclinedIffFull : reading.Inv := reading_inv

theorem witness_AllocTakesLeastFree : tablesWf reading = true ∧ 2 < reading.cfg.nslot ∧ usedAt reading 2 = false
    ∧ ∀ j < 2, usedAt reading j = true := by decide
theorem witness_AllocTakesLeastFree_none : tablesWf poolFull = true ∧ ∀ i < poolFull.cfg.nslot, usedAt poolFull i = true := by
  decide
theorem witness_PushAppends : tablesWf reading = true ∧ reading.qCount < reading.cfg.qcap := by decide
theorem witness_DeqTakesOldest_empty : State.reset.qCount = 0 := by decide
theorem witness_DeqTakesOldest : { starting with qHead := 1 }.qCount ≠ 0 ∧ { starting with qHead := 1 }.qHead < tiny.qcap := by
  decide
theorem witness_ReleaseFreesSlot : tablesWf reading = true ∧ 3 < reading.cfg.nslot := by decide

theorem witness_StartEventAddresses_pop : starting.stage = .starting ∧ starting.qCount ≠ 0 ∧ 0 = fifoAt starting starting.qHead
    ∧ 0 < starting.cfg.nslot
    ∧ Dir.read = (if 0 < (poolAt starting 0).wlen then Dir.write else (poolAt starting 0).dir) := by decide
theorem witness_StartEventAddresses_empty :
    { starting with qCount := 0 }.stage = .starting ∧ { starting with qCount := 0 }.qCount = 0 := by decide
theorem witness_StartEventAddresses_restart : (engineAt .dataPhase .reStart writeRead).stage = .dataPhase
    ∧ (engineAt .dataPhase .reStart writeRead).sub = .reStart ∧ (engineAt .dataPhase .reStart writeRead).active = some 0
    ∧ 0 < tiny.nslot := by decide
theorem witness_StartEventAddresses_unexpected :
    reading.stage ≠ .starting ∧ ¬(reading.stage = .dataPhase ∧ reading.sub = .reStart) := by decide

theorem witness_AckEventAdvances_byte : (engineAt .addressPhase .write writeRead).active = some 0 ∧ 0 < tiny.nslot
    ∧ (engineAt .addressPhase .write writeRead).stage = .addressPhase ∧ (engineAt .addressPhase .write writeRead).sub = .write
    ∧ (poolAt (engineAt .addressPhase .write writeRead) 0).wdata[0]? = some 0xAA := by decide
theorem witness_AckEventAdvances_last_byte :
    (poolAt (engineAt .dataPhase .write writeRead) 0).wdata[({ engineAt .dataPhase .write writeRead with widx := 1 }).widx.toNat]?
      = some 0x55 := by decide
theorem witness_AckEventAdvances_restart :
    (poolAt (engineAt .dataPhase .write writeRead) 0).wlen.toNat ≤ ({ engineAt .dataPhase .write writeRead with widx := 2 }).widx.toNat
      ∧ (poolAt (engineAt .dataPhase .write writeRead) 0).rlen ≠ 0 := by decide
theorem witness_AckEventAdvances_stop :
    (poolAt (engineAt .addressPhase .write Desc.zero) 0).wlen.toNat ≤ (engineAt .addressPhase .write Desc.zero).widx.toNat
      ∧ (poolAt (engineAt .addressPhase .write Desc.zero) 0).rlen = 0 := by decide
theorem witness_AckEventAdvances_read : (engineAt .addressPhase .read headerRead).stage = .addressPhase
    ∧ (engineAt .addressPhase .read headerRead).sub = .read ∧ (poolAt (engineAt .addressPhase .read headerRead) 0).rlen ≠ 0
    ∧ (engineAt .dataPhase .reAddr Desc.zero).sub = .reAddr ∧ (poolAt (engineAt .dataPhase .reAddr Desc.zero) 0).rlen = 0 := by
  decide
theorem witness_AckEventAdvances_unexpected : starting.active = none
    ∧ ¬((reading.stage = .addressPhase ∧ (reading.sub = .write ∨ reading.sub = .read))
      ∨ (reading.stage = .dataPhase ∧ (reading.sub = .write ∨ reading.sub = .reAddr))) := by decide
theorem witness_WriteNextSendsByte : (engineAt .dataPhase .write writeRead).active = some 0 ∧ 0 < tiny.nslot
    ∧ (poolAt (engineAt .dataPhase .write writeRead) 0).wdata[(engineAt .dataPhase .write writeRead).widx.toNat]? = some 0xAA := by
  decide
theorem witness_WriteNextSendsByte_end :
    (poolAt (engineAt .dataPhase .write writeRead) 0).wlen.toNat ≤ ({ engineAt .dataPhase .write writeRead with widx := 2 }).widx.toNat
      ∧ (poolAt (engineAt .dataPhase .write writeRead) 0).rlen ≠ 0
      ∧ (poolAt (engineAt .dataPhase .write Desc.zero) 0).wlen.toNat ≤ (engineAt .dataPhase .write Desc.zero).widx.toNat
      ∧ (poolAt (engineAt .dataPhase .write Desc.zero) 0).rlen = 0 := by decide
theorem witness_BeginReadAsksFirstByte : (engineAt .dataPhase .reAddr headerRead).active = some 0 ∧ 0 < tiny.nslot
    ∧ (poolAt (engineAt .dataPhase .reAddr headerRead) 0).rlen ≠ 0
    ∧ (poolAt (engineAt .dataPhase .reAddr Desc.zero) 0).rlen = 0 := by decide
theorem witness_NackEventAborts : (engineAt .addressPhase .read headerRead).stage = .addressPhase
    ∧ ((engineAt .dataPhase .reAddr writeRead).stage = .dataPhase ∧ (engineAt .dataPhase .reAddr writeRead).sub = .reAddr)
    ∧ ¬(reading.stage = .addressPhase ∨ (reading.stage = .dataPhase ∧ (reading.sub = .write ∨ reading.sub = .reAddr))) := by
  decide

/-- Byte 0 of the header read of `reading`, dispatched by itself. -/
def dispatched : Result := exec (.dispatch (poolAt reading 0).addr 0x06 (BitVec.ofNat 16 3)) { reading with rcount := reading.rcount + 1 }

theorem witness_ReceiveEventExtends : tablesWf reading = true ∧ reading.stage = .dataPhase ∧ reading.sub = .read
    ∧ reading.active = some 0 ∧ 0 < reading.cfg.nslot ∧ reading.rcount.toNat + 1 ≤ (poolAt reading 0).rlen.toNat
    ∧ (poolAt reading 0).rlen.toNat - (reading.rcount.toNat + 1) = 3 ∧ (stateOf dispatched).out.ret = some (.add 0)
    ∧ 4 = min ((poolAt (stateOf dispatched) 0).rlen.toNat + (0 : Half).toNat) 65535 := by decide
theorem witness_ReceiveEventExtends_dispatch : dispatched = .next (stateOf dispatched) := by rfl
theorem witness_ReceiveEventExtends_unexpected :
    ¬(starting.stage = .dataPhase ∧ starting.sub = .read ∧ starting.active.isSome = true) := by decide
theorem witness_ReceiveWithoutCallback :
    tablesWf (engineAt .dataPhase .read headerRead) = true ∧ (engineAt .dataPhase .read headerRead).stage = .dataPhase
    ∧ (engineAt .dataPhase .read headerRead).sub = .read ∧ (engineAt .dataPhase .read headerRead).active = some 0
    ∧ 0 < tiny.nslot ∧ kindAt (engineAt .dataPhase .read headerRead) 0x4A = .none
    ∧ ({ engineAt .dataPhase .read headerRead with rcount := 3 }).rcount.toNat + 1 ≤ headerRead.rlen.toNat := by decide
theorem witness_StopEventReleases : tablesWf { reading with stage := .stopping } = true
    ∧ { reading with stage := .stopping }.stage = .stopping ∧ { reading with stage := .stopping }.active = some 0
    ∧ 0 < tiny.nslot := by decide
theorem witness_StopEventReleases_range : ∀ i, { reading with stage := .stopping }.active = some i → i < reading.cfg.nslot := by
  intro i h
  rw [← Option.some.inj h]
  decide
theorem witness_StopEventReleases_unexpected : tablesWf reading = true ∧ reading.stage ≠ .stopping := by decide
theorem witness_UnexpectedEventIgnored : 6 ≤ (wordCode 0x7FF#11).toNat ∧ isEvent .evStop = true
    ∧ expectedAt reading.stage reading.sub .evStop = false := by decide

theorem witness_DispatchSelectsCallback : kindAt reading 0x50 = .none ∧ kindAt reading 0x4A = .shtp := by decide
theorem witness_FirstByteIsLatched : reading.xfIdx = 0 := by decide
theorem witness_FreshHeaderStartsFrame : { reading with xfIdx := 1, h0 := 6 }.cfg.Valid
    ∧ tablesWf { reading with xfIdx := 1, h0 := 6 } = true ∧ { reading with xfIdx := 1, h0 := 6 }.xfIdx = 1
    ∧ ¬((0x00 : Byte).getLsbD 7 = true ∧ { reading with xfIdx := 1, h0 := 6 }.rxCur ≠ 0)
    ∧ 6 = ((0x00 : Byte).toNat % 128) * 256 + (6 : Byte).toNat ∧ 6 = (if reading.cfg.rxcap < 6 then reading.cfg.rxcap - 1 else 6)
    ∧ ((0 : Half) ≠ 0 ∨ 4 < 6) := by decide
theorem witness_FreshHeaderStartsFrame_overlong :
    ¬((0xFF : Byte).getLsbD 7 = true ∧ { reading with xfIdx := 1, h0 := 0xFF }.rxCur ≠ 0)
    ∧ 32767 = ((0xFF : Byte).toNat % 128) * 256 + (0xFF : Byte).toNat
    ∧ 7 = (if reading.cfg.rxcap < 32767 then reading.cfg.rxcap - 1 else 32767) := by decide
theorem witness_ContinuationHeaderAppends : (framingAt 1 6).cfg.Valid ∧ (framingAt 1 6).xfIdx = 1
    ∧ (0x80 : Byte).getLsbD 7 = true ∧ (framingAt 1 6).rxCur ≠ 0
    ∧ 0 = ((0x80 : Byte).toNat % 128) * 256 + (framingAt 1 6).h0.toNat
    ∧ 0 = (if (framingAt 1 6).cfg.rxcap < 0 then (framingAt 1 6).cfg.rxcap - 1 else 0) ∧ ((1 : Half) ≠ 0 ∨ 4 < 0) := by decide
theorem witness_LaterBytesAreStored : (1 : Half) ≠ 0 ∧ (framingAt 3 6).xfIdx = 3 ∧ (framingAt 3 6).app = false
    ∧ { framingAt 2 6 with app := true }.xfIdx = 2 ∧ { framingAt 2 6 with app := true }.app = true
    ∧ (framingAt 4 6).xfIdx = 4 := by decide
theorem witness_TransferEndDelivers_asks_more :
    exec (.shtpCb 0x00 1) { reading with xfIdx := 1, h0 := 6 } = .next (stateOf (exec (.shtpCb 0x00 1) { reading with xfIdx := 1, h0 := 6 }))
    ∧ (stateOf (exec (.shtpCb 0x00 1) { reading with xfIdx := 1, h0 := 6 })).out.ret = some (.add 2) ∧ (2 : Half) ≠ 0 := by
  exact ⟨by rfl, by decide +kernel, by decide⟩
theorem witness_TransferEndDelivers_incomplete :
    exec (.shtpCb 0x05 1) (framingAt 4 6) = .next (stateOf (exec (.shtpCb 0x05 1) (framingAt 4 6)))
    ∧ (stateOf (exec (.shtpCb 0x05 1) (framingAt 4 6))).out.ret = some (.add 0)
    ∧ ¬((framingAt 4 6).xfIdx ≠ 0 ∧ (stateOf (exec (.shtpCb 0x05 1) (framingAt 4 6))).frameLen
        ≤ (stateOf (exec (.shtpCb 0x05 1) (framingAt 4 6))).rxCur) := by
  exact ⟨by rfl, by decide +kernel, by decide +kernel⟩
/-- The state a complete frame of three bytes leaves before its delivery. -/
def complete : State := stateOf (exec (.shtpCb 0x05 1) (framingAt 4 3))
theorem witness_TransferEndDelivers_complete :
    exec (.shtpCb 0x05 1) (framingAt 4 3) = .next complete ∧ complete.out.ret = some (.add 0) ∧ (framingAt 4 3).xfIdx ≠ 0
    ∧ complete.frameLen ≤ complete.rxCur ∧ exec .deliver complete = .next (stateOf (exec .deliver complete)) := by
  exact ⟨by rfl, by decide +kernel, by decide, by decide +kernel, by rfl⟩
theorem witness_StoreIsGuarded : tablesWf (framingAt 4 6) = true ∧ (framingAt 4 6).rxCur.toNat < (framingAt 4 6).cfg.rxcap
    ∧ { framingAt 4 6 with rxCur := 8 }.cfg.rxcap ≤ { framingAt 4 6 with rxCur := 8 }.rxCur.toNat := by decide
theorem witness_DeliverHandsOver : (framingAt 4 2).rxCur.toNat ≤ (framingAt 4 2).cfg.rxcap
    ∧ (framingAt 4 2).stage ≠ .idle ∧ [writeRead] = { framingAt 4 2 with sinkAnswers := [[writeRead]] }.sinkAnswers.headD []
    ∧ (runEnqs [writeRead] { framingAt 4 2 with sinkAnswers := [[writeRead]] }).1 = [true] := by decide +kernel

/-- A state whose only queued slot, 4, is not in the pool; and one whose active slot is not. -/
def badQueue : State := { starting with fifo := [(0, 4)] }
def badActive (st : Stage) (sub : SubPhase) : State := { engineAt st sub headerRead with active := some 4 }
/-- The last byte of a transfer with the cursor past the buffer. -/
def badCursor : State := { reading with rxCur := 9, xfIdx := 4, rcount := 3 }

theorem witness_MissingElementFaults_slots : tiny.nslot ≤ 4
    ∧ (badQueue.stage = .starting ∧ badQueue.qCount ≠ 0 ∧ fifoAt badQueue badQueue.qHead = 4)
    ∧ (badActive .dataPhase .reStart).active = some 4 ∧ (badActive .dataPhase .reStart).sub = .reStart
    ∧ (badActive .addressPhase .read).stage = .addressPhase ∧ (badActive .dataPhase .reAddr).sub = .reAddr
    ∧ (badActive .dataPhase .read).stage = .dataPhase ∧ (badActive .stopping .read).stage = .stopping := by decide
theorem witness_MissingElementFaults_none : (starting.active = none)
    ∧ { engineAt .dataPhase .reStart writeRead with active := none }.active = none
    ∧ { engineAt .dataPhase .reStart writeRead with active := none }.stage = .dataPhase
    ∧ { engineAt .dataPhase .reStart writeRead with active := none }.sub = .reStart := by decide
theorem witness_MissingElementFaults_cursor : badCursor.cfg.rxcap < badCursor.rxCur.toNat
    ∧ exec (.shtpCb 0x05 1) badCursor = .next (stateOf (exec (.shtpCb 0x05 1) badCursor))
    ∧ (stateOf (exec (.shtpCb 0x05 1) badCursor)).out.ret = some (.add 0) ∧ badCursor.xfIdx ≠ 0
    ∧ (stateOf (exec (.shtpCb 0x05 1) badCursor)).frameLen ≤ (stateOf (exec (.shtpCb 0x05 1) badCursor)).rxCur
    ∧ badCursor.cfg.rxcap < (stateOf (exec (.shtpCb 0x05 1) badCursor)).rxCur.toNat :=
  ⟨by decide, by rfl, by decide +kernel, by decide, by decide +kernel, by decide +kernel⟩
theorem witness_MissingElementFaults_receive : kindAt badCursor 0x4A = .shtp
    ∧ exec (.shtpCb 0x05 0) badCursor = .fault (.cursorOutOfRange 9)
    ∧ badCursor.stage = .dataPhase ∧ badCursor.sub = .read ∧ badCursor.active = some 0 ∧ 0 < badCursor.cfg.nslot
    ∧ badCursor.rcount.toNat + 1 ≤ (poolAt badCursor 0).rlen.toNat
    ∧ exec (.dispatch (poolAt badCursor 0).addr 0x05
          (BitVec.ofNat 16 ((poolAt badCursor 0).rlen.toNat - (badCursor.rcount.toNat + 1))))
        { badCursor with rcount := badCursor.rcount + 1 } = .fault (.cursorOutOfRange 9) :=
  ⟨by decide, by rfl, by decide, by decide, by decide, by decide, by decide, by rfl⟩

theorem witness_DecodeEncode : Instr.wf tiny (.enq writeRead) = true
    ∧ encodeIn (.enq writeRead) = some (.hc [0x01, 0xA0, 0x02, 0x02, 0x00, 0xAA, 0x55])
    ∧ Instr.wf tiny (.evRx 0xFF) = true ∧ encodeIn (.evRx 0xFF) = some (.ev 0x4FF#11)
    ∧ Instr.wf tiny (.bcTx 0x95) = true ∧ encodeBc (.bcTx 0x95) = some 0x295#11 := by decide
theorem witness_EnqOperandAssembly : ([0xAA, 0x55] : List Byte).length = (0x02 : Byte).toNat := by decide
theorem witness_DecodedCommandLength : decodeHc [0x02, 0x4A, 0x01, 0x05] = .ok (.regcb 0x4A 1, [0x05]) := by decide
theorem witness_StepRunsDecoded_hc : { reading with inbox := [.hc [0x04, 0x03]] }.inbox = .hc [0x04, 0x03] :: []
    ∧ decodeHc [0x04, 0x03] = .ok (.size, [0x03]) := by decide
theorem witness_StepRunsDecoded_ev : { reading with inbox := [.ev 0x406#11] }.inbox = .ev 0x406#11 :: []
    ∧ decodeEv 0x406#11 = .ok (.evRx 0x06) ∧ decodeEv 0x000#11 = .error .noEvent := by decide
theorem witness_StepRunsDecoded_idle : reading.inbox = [] ∧ decodeHc [0x02, 0x4A] = .error .incompleteCommand := by decide

theorem witness_InvHoldsAtReset : tiny.Valid ∧ Config.testT.Valid := by decide
theorem witness_StepKeepsInv : { reading with inbox := [.ev 0x406#11] }.Inv
    ∧ step { reading with inbox := [.ev 0x406#11] } = .next (stateOf (step { reading with inbox := [.ev 0x406#11] })) :=
  ⟨{ reading_inv with }, by rfl⟩
theorem witness_PortOperationsComplete : reading.Inv ∧ isPortOp (.evRx 0x06) = true := ⟨reading_inv, by decide⟩
theorem witness_UsedSlotsAreOwned : reading.Inv := reading_inv
theorem witness_ProtoMarksBrokenHandshake : reading.Inv ∧ isPortOp .evStop = true ∧ Instr.evStop ≠ .reset
    ∧ exec .evStop reading = .next (stateOf (exec .evStop reading)) := ⟨reading_inv, by decide, by decide, by rfl⟩
theorem witness_OneCommandOutstanding : reading.Inv ∧ isPortOp (.evRx 0x06) = true ∧ Instr.evRx 0x06 ≠ .reset
    ∧ exec (.evRx 0x06) reading = .next (stateOf (exec (.evRx 0x06) reading))
    ∧ (stateOf (exec (.evRx 0x06) reading)).out.bc ≠ .none := ⟨reading_inv, by decide, by decide, by rfl, by decide +kernel⟩
theorem witness_LiveDescriptorsAreStable : reading.Inv ∧ isPortOp (.evRx 0x06) = true ∧ Instr.evRx 0x06 ≠ .reset
    ∧ exec (.evRx 0x06) reading = .next (stateOf (exec (.evRx 0x06) reading)) ∧ 1 ∈ queuedSlots reading
    ∧ reading.active = some 0 := ⟨reading_inv, by decide, by decide, by rfl, by decide, by decide⟩
theorem witness_LiveDescriptorsAreStable_extends :
    (poolAt (stateOf (exec (.evRx 0x00) { reading with rcount := 1, xfIdx := 1, h0 := 6 })) 0).rlen
      ≠ (poolAt { reading with rcount := 1, xfIdx := 1, h0 := 6 } 0).rlen := by decide +kernel
theorem witness_QueueIsFifo : starting.Inv ∧ isPortOp .evStart = true ∧ Instr.evStart ≠ .reset
    ∧ exec .evStart starting = .next (stateOf (exec .evStart starting)) ∧ starting.stage = .starting :=
  ⟨starting_inv, by decide, by decide, by rfl, by decide⟩
theorem witness_QueueIsFifo_enq : reading.Inv ∧ isPortOp (.enq writeRead) = true ∧ Instr.enq writeRead ≠ .reset
    ∧ exec (.enq writeRead) reading = .next (stateOf (exec (.enq writeRead) reading)) :=
  ⟨reading_inv, by decide, by decide, by rfl⟩

theorem witness_DiagnosticFlagsGateNothing : Instr.enq writeRead ≠ .status
    ∧ flagSet 0x79 .poolFatal = flagSet reading.err .poolFatal
    ∧ exec (.enq writeRead) reading = .next (stateOf (exec (.enq writeRead) reading)) := ⟨by decide, by decide, by rfl⟩
theorem witness_ErrorFlagsAreSticky : Instr.evStop ≠ .reset
    ∧ exec .evStop { reading with err := 0x01 } = .next (stateOf (exec .evStop { reading with err := 0x01 }))
    ∧ flagSet { reading with err := 0x01 }.err .qfull = true := ⟨by decide, by rfl, by decide⟩
theorem witness_SingleWriter : exec (.enq writeRead) State.reset = .next (stateOf (exec (.enq writeRead) State.reset))
    ∧ isHostCommand (.enq writeRead) = true ∧ Instr.enq writeRead ≠ .reset
    ∧ (stateOf (exec (.enq writeRead) State.reset)).stage ≠ State.reset.stage := ⟨by rfl, by decide, by decide, by decide +kernel⟩
theorem witness_SingleWriter_others :
    (stateOf (exec (.regcb 5 1) reading)).cbtab ≠ reading.cbtab ∧ (stateOf (exec .awaitSet State.reset)).awaiting ≠ State.reset.awaiting
    ∧ isEvent .evStop = true ∧ exec .evStop reading = .next (stateOf (exec .evStop reading)) :=
  ⟨by decide +kernel, by decide, by decide, by rfl⟩
theorem witness_AwaitingClearedByDelivery : exec .deliver (framingAt 4 2) = .next (stateOf (exec .deliver (framingAt 4 2)))
    ∧ (framingAt 4 2).awaiting = true ∧ (stateOf (exec .deliver (framingAt 4 2))).awaiting = false
    ∧ (stateOf (exec .deliver (framingAt 4 2))).out.frame.isSome = true :=
  ⟨by rfl, by decide, by decide +kernel, by decide +kernel⟩

theorem witness_WriteSendsItsBytes : (engineAt .addressPhase .write writeRead).stage = .addressPhase
    ∧ (engineAt .addressPhase .write writeRead).sub = .write ∧ (engineAt .addressPhase .write writeRead).active = some 0
    ∧ 0 < tiny.nslot ∧ (engineAt .addressPhase .write writeRead).widx = 0 := by decide
theorem witness_ReadReceivesItsBytes : tablesWf (engineAt .dataPhase .read headerRead) = true
    ∧ (engineAt .dataPhase .read headerRead).stage = .dataPhase ∧ (engineAt .dataPhase .read headerRead).sub = .read
    ∧ (engineAt .dataPhase .read headerRead).active = some 0 ∧ 0 < tiny.nslot
    ∧ (engineAt .dataPhase .read headerRead).rcount = 0 ∧ kindAt (engineAt .dataPhase .read headerRead) 0x4A = .none
    ∧ ([1, 2, 3, 4] : List Byte) ≠ [] ∧ headerRead.rlen.toNat = ([1, 2, 3, 4] : List Byte).length := by decide
/-- What the two statements about a header read ask of the state; `held` has a partial frame in the buffer. -/
def held : State := { reading with rxbuf := [(0, 8), (3, 1)], rxCur := 5, frameLen := 8 }
theorem held_inv : held.Inv := { reading_inv with canonical := by decide, bounded := by unfold TablesBounded; decide, cursorRange := by decide }
theorem witness_HeaderReadDeliversFrame_state : held.stage = .dataPhase ∧ held.sub = .read
    ∧ held.active = some 0 ∧ (poolAt held 0).rlen = 4 ∧ held.rcount = 0 ∧ kindAt held (poolAt held 0).addr = .shtp
    ∧ held.xfIdx = 0 ∧ reading.rxCur = 0 := by decide
theorem witness_HeaderReadDeliversFrame : held.Inv ∧ 8 ≤ held.cfg.rxcap
    ∧ ([8, 0, 2, 5, 1, 2, 3, 4] : List Byte).length = max 8 4 ∧ ((0 : Nat) = 0 ∨ ((0 : Nat) = 128 ∧ held.rxCur = 0))
    ∧ ([8, 0, 2, 5, 1, 2, 3, 4] : List Byte).take 2 = [BitVec.ofNat 8 8, BitVec.ofNat 8 (8 / 256 + 0)] :=
  ⟨held_inv, by decide⟩
theorem witness_HeaderReadDeliversFrame_short_flagged : reading.Inv ∧ 0 ≤ reading.cfg.rxcap
    ∧ ([0, 128, 2, 5] : List Byte).length = max 0 4 ∧ ((128 : Nat) = 0 ∨ ((128 : Nat) = 128 ∧ reading.rxCur = 0))
    ∧ ([0, 128, 2, 5] : List Byte).take 2 = [BitVec.ofNat 8 0, BitVec.ofNat 8 (0 / 256 + 128)] :=
  ⟨reading_inv, by decide⟩
theorem witness_OverlongFrameIsTruncated : held.Inv ∧ held.cfg.rxcap < 9 ∧ 9 < 32768
    ∧ ([9, 0, 2, 5, 1, 2, 3] : List Byte).length = held.cfg.rxcap - 1 ∧ ((0 : Nat) = 0 ∨ ((0 : Nat) = 128 ∧ held.rxCur = 0))
    ∧ ([9, 0, 2, 5, 1, 2, 3] : List Byte).take 2 = [BitVec.ofNat 8 9, BitVec.ofNat 8 (9 / 256 + 0)] :=
  ⟨held_inv, by decide⟩
theorem witness_OverlongFrameIsTruncated_flagged : reading.Inv ∧ reading.cfg.rxcap < 32767 ∧ 32767 < 32768
    ∧ ([255, 255, 2, 5, 1, 2, 3] : List Byte).length = reading.cfg.rxcap - 1
    ∧ ((128 : Nat) = 0 ∨ ((128 : Nat) = 128 ∧ reading.rxCur = 0))
    ∧ ([255, 255, 2, 5, 1, 2, 3] : List Byte).take 2 = [BitVec.ofNat 8 32767, BitVec.ofNat 8 (32767 / 256 + 128)] :=
  ⟨reading_inv, by decide⟩
theorem witness_SplitFrameReassembles : reading.cfg.Valid ∧ tablesWf reading = true ∧ reading.xfIdx = 0 ∧ 4 ≤ 4
    ∧ 4 < ([5, 0, 2, 5, 1] : List Byte).length ∧ ([5, 0, 2, 5, 1] : List Byte).length ≤ reading.cfg.rxcap
    ∧ ([5, 0, 2, 5, 1] : List Byte).take 2 = [BitVec.ofNat 8 5, BitVec.ofNat 8 (5 / 256)] := by decide

end Sys2Proof.Tests
end

/-! ## Completion events

What each completion event does at each position, said once (10_state.md R33, 41_engine_events.md R170 to R195):
the positions that expect it, its rule there, and the one answer everywhere else. -/

namespace Sys2Proof.Machine

variable {s : State}

/-! ### The positions that expect an event -/

theorem expectedAt_evStart {st : Stage} {sub : SubPhase} :
    expectedAt st sub .evStart = true ↔ st = .starting ∨ (st = .dataPhase ∧ sub = .reStart) := by
  cases st <;> cases sub <;> simp [expectedAt]

theorem expectedAt_evTxAck {st : Stage} {sub : SubPhase} :
    expectedAt st sub .evTxAck = true ↔
      (st = .addressPhase ∧ (sub = .write ∨ sub = .read)) ∨ (st = .dataPhase ∧ (sub = .write ∨ sub = .reAddr)) := by
  cases st <;> cases sub <;> simp [expectedAt]

theorem expectedAt_evTxNack {st : Stage} {sub : SubPhase} :
    expectedAt st sub .evTxNack = true ↔ st = .addressPhase ∨ (st = .dataPhase ∧ (sub = .write ∨ sub = .reAddr)) := by
  cases st <;> cases sub <;> simp [expectedAt]

theorem expectedAt_evRx {st : Stage} {sub : SubPhase} {b : Byte} :
    expectedAt st sub (.evRx b) = true ↔ st = .dataPhase ∧ sub = .read := by
  cases st <;> cases sub <;> simp [expectedAt]

theorem expectedAt_evStop {st : Stage} {sub : SubPhase} : expectedAt st sub .evStop = true ↔ st = .stopping := by
  cases st <;> cases sub <;> simp [expectedAt]

theorem expectedAt_evReserved (st : Stage) (sub : SubPhase) (code : BitVec 3) :
    expectedAt st sub (.evReserved code) = false := by
  cases st <;> cases sub <;> rfl

/-! ### The rule of an expected event -/

/-- `EV_START` in Starting pops the next transaction (R170). -/
theorem exec_evStart_starting (hst : s.stage = .starting) : exec .evStart s = outcomeOf (startNext s.beginStep) := by
  simp [exec, execEvStart, hst]

/-- `EV_START` in (DataPhase, ReStart) sends the address again (R173). -/
theorem exec_evStart_reStart (hst : s.stage = .dataPhase) (hsub : s.sub = .reStart) :
    exec .evStart s = outcomeOf (withActive resendAddressOf s.beginStep) := by
  simp [exec, execEvStart, resendAddress, hst, hsub]

/-- The helper `EV_TX_ACK` runs: the next write byte after a write direction, the read after a read direction (R175). -/
def ackRule (sub : SubPhase) : Desc → State → State := if sub = .write then writeNextOf else beginReadOf

/-- `EV_TX_ACK` in its four positions goes on in DataPhase with the active descriptor (R175). -/
theorem exec_evTxAck_expected (he : expectedAt s.stage s.sub .evTxAck = true) (ha : s.active ≠ none) :
    exec .evTxAck s = outcomeOf (withActive (ackRule s.sub) { s.beginStep with stage := .dataPhase }) := by
  have hdata : s.stage = .dataPhase → { s.beginStep with stage := .dataPhase } = s.beginStep := fun h => by
    rw [← h]; rfl
  rcases expectedAt_evTxAck.1 he with ⟨hst, hsub | hsub⟩ | ⟨hst, hsub | hsub⟩
  · simp [exec, execEvTxAck, ackRule, writeNext, ha, hst, hsub]
  · simp [exec, execEvTxAck, ackRule, beginRead, ha, hst, hsub]
  · rw [hdata hst]; simp [exec, execEvTxAck, ackRule, writeNext, ha, hst, hsub]
  · rw [hdata hst]; simp [exec, execEvTxAck, ackRule, beginRead, ha, hst, hsub]

/-- `EV_TX_NACK` in its positions aborts the transaction (R180). -/
theorem exec_evTxNack_expected (he : expectedAt s.stage s.sub .evTxNack = true) :
    exec .evTxNack s = .next (abortTransaction s.beginStep) := by
  rcases expectedAt_evTxNack.1 he with hst | ⟨hst, hsub | hsub⟩
  · simp [exec, execEvTxNack, hst]
  · simp [exec, execEvTxNack, hst, hsub]
  · simp [exec, execEvTxNack, hst, hsub]

/-- `EV_RX` in (DataPhase, Read) receives the byte for the active slot (R185). -/
theorem exec_evRx_reading {i : Nat} (hst : s.stage = .dataPhase) (hsub : s.sub = .read) (ha : s.active = some i) (b : Byte) :
    exec (.evRx b) s = outcomeOf (receiveByte b i s.beginStep) := by
  simp [exec, execEvRx, hst, hsub, ha]

/-- `EV_STOP` in Stopping releases the active slot and goes on with the queue (R190). -/
theorem exec_evStop_stopping (hst : s.stage = .stopping) :
    exec .evStop s = outcomeOf ((retire s.beginStep).map restartOrIdle) := by
  simp [exec, execEvStop, hst]

/-! ### Every other event -/

/-- `EV_TX_ACK` with no active transaction is unexpected (R175). -/
theorem exec_evTxAck_none (ha : s.active = none) : exec .evTxAck s = .next (unexpectedEvent s.beginStep) := by
  simp [exec, execEvTxAck, ha]

/-- `EV_RX` with no active transaction is unexpected (R185). -/
theorem exec_evRx_none (ha : s.active = none) (b : Byte) :
    exec (.evRx b) s = .next (unexpectedEvent s.beginStep) := by
  simp [exec, execEvRx, ha]

/-- An event the position does not expect, and a reserved code, whatever the position (R195). -/
theorem exec_of_unexpected {i : Instr} (hi : isEvent i = true) (he : expectedAt s.stage s.sub i = false) :
    exec i s = .next (unexpectedEvent s.beginStep) := by
  cases i with
  | evStart =>
    simp only [exec, execEvStart]
    split <;> simp_all [expectedAt]
  | evTxAck =>
    simp only [exec, execEvTxAck]
    split
    · rfl
    · split <;> simp_all [expectedAt]
  | evTxNack =>
    simp only [exec, execEvTxNack]
    split <;> simp_all [expectedAt]
  | evRx b =>
    simp only [exec, execEvRx]
    split <;> simp_all [expectedAt]
  | evStop =>
    simp only [exec, execEvStop]
    split <;> simp_all [expectedAt]
  | evReserved code => rfl
  | _ => simp [isEvent] at hi

end Sys2Proof.Machine

/-! ## The scope's statements

The statements of 00_scope.md: what a step runs (R5, R12, R74), that every operation of a port completes under the
invariants (R16), and what happens in a state outside the ranges of 10_state.md. -/

namespace Sys2Proof.Machine

variable {s : State}

/-! ### The step -/

theorem afterCommand_eq (rest : List Byte) (more : List InWord) :
    afterCommand rest more = if rest = [] then more else .hc rest :: more := by
  cases rest <;> rfl

/-- A step runs what the fetch takes (R5). -/
theorem step_of_fetch {i : Instr} {t : State} (hf : fetch s = .ok (some i, t)) : step s = exec i t := by
  simp only [step, hf]

/-- A step that takes nothing is quiet (log entry 6). -/
theorem step_of_fetch_none {t : State} (hf : fetch s = .ok (none, t)) : step s = .next t := by
  simp only [step, hf]

theorem step_of_fetch_error {r : Refusal} (hf : fetch s = .error r) : step s = .refused r := by
  simp only [step, hf]

theorem fetch_hc {bytes rest : List Byte} {more : List InWord} {i : Instr} (hin : s.inbox = .hc bytes :: more)
    (hd : decodeHc bytes = .ok (i, rest)) : fetch s = .ok (some i, { s with inbox := afterCommand rest more }) := by
  simp only [fetch, hin, hd]

theorem fetch_hc_error {bytes : List Byte} {more : List InWord} {e : DecodeError} (hin : s.inbox = .hc bytes :: more)
    (hd : decodeHc bytes = .error e) : fetch s = .error .incompleteCommand := by
  simp only [fetch, hin, hd]

theorem fetch_ev {w : PortWord} {more : List InWord} {i : Instr} (hin : s.inbox = .ev w :: more) (hd : decodeEv w = .ok i) :
    fetch s = .ok (some i, { s with inbox := more }) := by
  simp only [fetch, hin, hd]

theorem fetch_ev_idle {w : PortWord} {more : List InWord} {e : DecodeError} (hin : s.inbox = .ev w :: more)
    (hd : decodeEv w = .error e) : fetch s = .ok (none, State.beginStep { s with inbox := more }) := by
  simp only [fetch, hin, hd]

theorem fetch_nil (hin : s.inbox = []) : fetch s = .ok (none, s.beginStep) := by
  simp only [fetch, hin]

/-- Settles O43: each clause is the step of what the fetch answers for that input. -/
theorem stepRunsDecoded : Obligations.StepRunsDecoded := by
  intro s more
  refine ⟨fun bytes i rest hin hd => ?_, fun w i hin hd => ?_, fun hin => ?_, fun w hin hd => ?_, fun bytes hin hd => ?_⟩
  · rw [step_of_fetch (fetch_hc hin hd), afterCommand_eq]
  · exact step_of_fetch (fetch_ev hin hd)
  · exact step_of_fetch_none (fetch_nil hin)
  · exact step_of_fetch_none (fetch_ev_idle hin hd)
  · exact step_of_fetch_error (fetch_hc_error hin hd)

/-! ### Every operation of a port completes (R16) -/

theorem outcomeOf_completes {r : Except Fault State} (h : ∃ t, r = .ok t) : ∃ t, outcomeOf r = .next t := by
  obtain ⟨t, rfl⟩ := h
  exact ⟨t, rfl⟩

/-- A host command completes in every state (R254). -/
theorem hostCommand_completes {i : Instr} (hi : isHostCommand i = true) (s : State) : ∃ t, exec i s = .next t := by
  cases i with
  | nop | enq | regcb | awaitSet | size | status | reset | hcReserved => exact ⟨_, rfl⟩
  | _ => simp [isHostCommand] at hi

/-- The active transaction, if there is one, is in a slot of the pool (R30). -/
def ActiveInPool (s : State) : Prop := ∀ i, s.active = some i → i < s.cfg.nslot

theorem State.Inv.activeInPool (h : s.Inv) : ActiveInPool s := fun _ ha => h.queueInv.live_lt (active_mem_live ha)

theorem withActive_completes (hp : ActiveInPool s) (f : Desc → State → State) : ∃ t, withActive f s = .ok t := by
  rcases withActive_cases f s with ⟨-, h⟩ | ⟨i, -, -, h⟩ | ⟨i, ha, hi, -⟩
  · exact ⟨_, h⟩
  · exact ⟨_, h⟩
  · exact absurd (hp i ha) (Nat.not_lt.2 hi)

theorem retire_completes (hp : ActiveInPool s) : ∃ t, retire s = .ok t := by
  rcases retire_cases s with ⟨-, h⟩ | ⟨i, -, -, h⟩ | ⟨i, ha, hi, -⟩
  · exact ⟨_, h⟩
  · exact ⟨_, h⟩
  · exact absurd (hp i ha) (Nat.not_lt.2 hi)

/-- The pop completes when the oldest queued slot is in the pool (R170). -/
theorem startNext_completes (hq : s.qCount ≠ 0 → fifoAt s s.qHead < s.cfg.nslot) : ∃ t, startNext s = .ok t := by
  by_cases h0 : s.qCount = 0
  · exact ⟨_, startNext_empty h0⟩
  · exact ⟨_, startNext_pop h0 (hq h0)⟩

/-- With the cursor in its range the callback completes: a byte never moves the cursor past the buffer (R228, R235). -/
theorem shtpCallback_completes (hb : BufferInv s) (b : Byte) (remaining : Half) :
    ∃ r, shtpCallback b remaining s = .ok r := by
  have hcur : (transferByte b s).2.rxCur.toNat ≤ (transferByte b s).2.cfg.rxcap := (hb.transferByte b).1.cursor
  rcases shtpCallback_cases s b remaining with ⟨-, h⟩ | ⟨-, -, -, h⟩ | ⟨-, -, -, h⟩
  · exact ⟨_, h⟩
  · exact ⟨_, h⟩
  · rw [deliverFrame_ok _ (by exact hcur)] at h
    exact ⟨_, h⟩

theorem dispatchByte_completes (hb : BufferInv s) (addr : BitVec 7) (b : Byte) (remaining : Half) :
    ∃ r, dispatchByte addr b remaining s = .ok r := by
  unfold dispatchByte
  split
  · exact ⟨_, rfl⟩
  · exact shtpCallback_completes hb b remaining

/-- `EV_RX` on a pool slot, in one equation: count the byte, dispatch it, acknowledge it (R185). -/
theorem receiveByte_of_lt {i : Nat} (hi : i < s.cfg.nslot) (b : Byte) :
    receiveByte b i s =
      (dispatchByte (poolAt s i).addr b (bytesRemaining (poolAt s i).rlen (nextRcount s.rcount))
        { s with rcount := nextRcount s.rcount }).map (fun r => acknowledge i r.1 r.2) := by
  simp only [receiveByte, readSlot_lt hi]

theorem receiveByte_completes (hb : BufferInv s) {i : Nat} (hi : i < s.cfg.nslot) (b : Byte) :
    ∃ t, receiveByte b i s = .ok t := by
  have hb' : BufferInv { s with rcount := nextRcount s.rcount } :=
    ⟨hb.cfgValid, hb.rxWf, hb.rxBound, hb.cursor, hb.frameLen⟩
  obtain ⟨r, hr⟩ := dispatchByte_completes hb' (poolAt s i).addr b
    (bytesRemaining (poolAt s i).rlen (nextRcount s.rcount))
  rw [receiveByte_of_lt hi, hr]
  exact ⟨_, rfl⟩

/-- What an expected event reads exists under the invariants: the active slot, the oldest queued slot and the bytes of a
complete frame. -/
theorem State.Inv.expectedEvent_completes (h : s.Inv) {i : Instr} (hi : isEvent i = true)
    (he : expectedAt s.stage s.sub i = true) : ∃ t, exec i s = .next t := by
  have hp : ActiveInPool s.beginStep := h.activeInPool
  cases i with
  | evStart =>
    rcases expectedAt_evStart.1 he with hst | ⟨hst, hsub⟩
    · rw [exec_evStart_starting hst]
      refine outcomeOf_completes (startNext_completes fun hq => ?_)
      exact h.queueInv.live_lt (List.mem_append_right _ (head_queued h.queueInv hq))
    · rw [exec_evStart_reStart hst hsub]
      exact outcomeOf_completes (withActive_completes hp _)
  | evTxAck =>
    by_cases ha : s.active = none
    · exact ⟨_, exec_evTxAck_none ha⟩
    · rw [exec_evTxAck_expected he ha]
      exact outcomeOf_completes (withActive_completes (s := { s.beginStep with stage := .dataPhase }) hp _)
  | evTxNack => exact ⟨_, exec_evTxNack_expected he⟩
  | evRx b =>
    obtain ⟨hst, hsub⟩ := expectedAt_evRx.1 he
    cases ha : s.active with
    | none => exact ⟨_, exec_evRx_none ha b⟩
    | some j =>
      have hb : BufferInv s.beginStep :=
        have hs := h.bufferInv
        ⟨hs.cfgValid, hs.rxWf, hs.rxBound, hs.cursor, hs.frameLen⟩
      rw [exec_evRx_reading hst hsub ha]
      exact outcomeOf_completes (receiveByte_completes hb (hp j ha) b)
  | evStop =>
    obtain ⟨t, ht⟩ := retire_completes hp
    rw [exec_evStop_stopping (expectedAt_evStop.1 he), ht]
    exact ⟨_, rfl⟩
  | evReserved code => simp [expectedAt_evReserved] at he
  | _ => simp [isEvent] at hi

/-- Settles O46: a host command completes in every state, an unexpected event only raises PROTO, and an expected one finds
what it reads. -/
theorem portOperationsComplete : Obligations.PortOperationsComplete := by
  intro i s h hport
  rcases Bool.or_eq_true_iff.1 hport with hi | hi
  · exact hostCommand_completes hi s
  · cases he : expectedAt s.stage s.sub i with
    | false => exact ⟨_, exec_of_unexpected hi he⟩
    | true => exact h.expectedEvent_completes hi he

/-! ### States outside the ranges (log entries 11 and 28) -/

/-- A rule on an active slot outside the pool faults (log entry 11). -/
theorem outcomeOf_withActive_missing {i : Nat} (ha : s.active = some i) (hi : s.cfg.nslot ≤ i)
    (f : Desc → State → State) : outcomeOf (withActive f s) = .fault (.slotOutOfRange i) := by
  rw [withActive_missing ha hi]
  rfl

/-- A rule on the active transaction where there is none raises PROTO and puts nothing out (log entry 28). -/
theorem outcomeOf_withActive_none (ha : s.active = none) (f : Desc → State → State) :
    outcomeOf (withActive f s.beginStep) = .next { s with err := s.err ||| 0x20, out := Output.quiet } := by
  rw [withActive_none (s := s.beginStep) ha]
  rfl

theorem exec_release_missing {i : Nat} (hi : s.cfg.nslot ≤ i) : exec (.release i) s = .fault (.slotOutOfRange i) := by
  show outcomeOf (release i s.beginStep) = _
  rcases release_cases s.beginStep i with ⟨hlt, -⟩ | ⟨-, h⟩
  · exact absurd hlt (Nat.not_lt.2 hi)
  · rw [h]; rfl

theorem startNext_missing (hq : s.qCount ≠ 0) (hi : s.cfg.nslot ≤ fifoAt s s.qHead) :
    startNext s = .error (.slotOutOfRange (fifoAt s s.qHead)) := by
  simp [startNext, deq_some s hq, readSlot, Nat.not_lt.2 hi, Except.map]

theorem receiveByte_missing {i : Nat} (hi : s.cfg.nslot ≤ i) (b : Byte) :
    receiveByte b i s = .error (.slotOutOfRange i) := by
  simp [receiveByte, readSlot, Nat.not_lt.2 hi]

theorem retire_missing {i : Nat} (ha : s.active = some i) (hi : s.cfg.nslot ≤ i) :
    retire s = .error (.slotOutOfRange i) := by
  rcases retire_cases s with ⟨hn, -⟩ | ⟨j, hj, hlt, -⟩ | ⟨j, hj, -, h⟩
  · rw [ha] at hn; cases hn
  · rw [ha] at hj; cases hj; exact absurd hlt (Nat.not_lt.2 hi)
  · rw [ha] at hj; cases hj; exact h

theorem exec_deliver_missing (hc : s.cfg.rxcap < s.rxCur.toNat) :
    exec .deliver s = .fault (.cursorOutOfRange s.rxCur) := by
  show outcomeOf (deliverFrame s.beginStep) = _
  rw [deliverFrame_error s.beginStep hc]
  rfl

theorem exec_shtpCb (b : Byte) (remaining : Half) (s : State) :
    exec (.shtpCb b remaining) s = outcomeOfAdd (shtpCallback b remaining s.beginStep) := rfl

theorem exec_dispatch (addr : BitVec 7) (b : Byte) (remaining : Half) (s : State) :
    exec (.dispatch addr b remaining) s = outcomeOfAdd (dispatchByte addr b remaining s.beginStep) := rfl

theorem outcomeOfAdd_fault {r : Except Fault (Half × State)} {f : Fault} (h : outcomeOfAdd r = .fault f) : r = .error f := by
  cases r with
  | ok r => cases h
  | error e => cases h; rfl

/-- While a byte is still due the callback only takes the byte in (R222). -/
theorem exec_shtpCb_due (b : Byte) {remaining : Half} (hr : remaining ≠ 0) (s : State) :
    exec (.shtpCb b remaining) s =
      .next (State.returnValue { (transferByte b s.beginStep).2 with xfIdx := nextIdx s.xfIdx }
        (.add (addOf b s.beginStep))) := by
  rcases shtpCallback_cases s.beginStep b remaining with ⟨-, h⟩ | ⟨h0, -⟩ | ⟨h0, -⟩
  · rw [exec_shtpCb, h]; rfl
  · exact absurd h0 hr
  · exact absurd h0 hr

/-- The last byte of a transfer that completes the frame, with the cursor past the buffer: the delivery faults. The state `u`
with one byte still due is what the byte itself leaves. -/
theorem exec_shtpCb_missing {u : State} {b : Byte} (hu : exec (.shtpCb b 1) s = .next u)
    (hadd : u.out.ret = some (.add 0)) (hx : s.xfIdx ≠ 0) (hlen : u.frameLen ≤ u.rxCur)
    (hc : s.cfg.rxcap < u.rxCur.toNat) : exec (.shtpCb b 0) s = .fault (.cursorOutOfRange u.rxCur) := by
  rw [exec_shtpCb_due b (by decide)] at hu
  injection hu with hu
  subst hu
  have hadd0 : addOf b s.beginStep = 0 := by simpa using hadd
  have hcfg : (transferByte b s.beginStep).2.cfg = s.cfg := (framingFrame_transferByte s.beginStep b).cfg
  have hdone : frameComplete s.beginStep.xfIdx
      { (transferByte b s.beginStep).2 with xfIdx := nextIdx s.beginStep.xfIdx } = true := by
    have h1 : 1 ≤ s.xfIdx.val := Nat.one_le_iff_ne_zero.2 fun h => hx (Fin.ext h)
    simpa [frameComplete, h1] using hlen
  rcases shtpCallback_cases s.beginStep b 0 with ⟨h, -⟩ | ⟨-, -, h, -⟩ | ⟨-, -, -, h⟩
  · exact absurd ⟨rfl, hadd0⟩ h
  · rw [hdone] at h; cases h
  · rw [exec_shtpCb, h, deliverFrame_error _ (by simpa [hcfg] using hc)]
    rfl

theorem dispatchByte_shtp {addr : BitVec 7} (hk : kindAt s addr = .shtp) (b : Byte) (remaining : Half) :
    dispatchByte addr b remaining s = shtpCallback b remaining s := by
  simp only [dispatchByte, hk]

/-- `EV_RX`, with a byte due, faults as the `DISPATCH` it calls (R185, R186). -/
theorem exec_evRx_dispatch_fault {i : Nat} {b : Byte} {f : Fault} (hst : s.stage = .dataPhase) (hsub : s.sub = .read)
    (ha : s.active = some i) (hi : i < s.cfg.nslot) (hdue : s.rcount.toNat + 1 ≤ (poolAt s i).rlen.toNat)
    (hf : exec (.dispatch (poolAt s i).addr b (BitVec.ofNat 16 ((poolAt s i).rlen.toNat - (s.rcount.toNat + 1))))
      { s with rcount := s.rcount + 1 } = .fault f) :
    exec (.evRx b) s = .fault f := by
  have hmax := (poolAt s i).rlen.isLt
  have hn : nextRcount s.rcount = s.rcount + 1 := nextRcount_lt (by omega)
  rw [exec_dispatch, ← bytesRemaining_eq hdue] at hf
  have hd : dispatchByte (poolAt s i).addr b (bytesRemaining (poolAt s i).rlen (s.rcount + 1))
      { s.beginStep with rcount := s.rcount + 1 } = .error f := outcomeOfAdd_fault hf
  rw [exec_evRx_reading hst hsub ha, receiveByte_of_lt (s := s.beginStep) hi, beginStep_rcount, hn,
    show poolAt s.beginStep i = poolAt s i from rfl, hd]
  rfl

/-- Settles O38: an operation faults with the fault of the shared operation that reaches for the missing element, and the
rules on the active transaction go through `withActive`. -/
theorem missingElementFaults : Obligations.MissingElementFaults := by
  intro s b i
  refine ⟨exec_release_missing, fun hst hq hf hi => ?_, fun ha hi => ?_, fun ha op hop => ?_, exec_deliver_missing,
    fun u => exec_shtpCb_missing, fun addr remaining f hk hf => ?_, fun f => exec_evRx_dispatch_fault⟩
  · subst hf
    rw [exec_evStart_starting hst, startNext_missing (s := s.beginStep) hq hi]
    rfl
  · have hmiss : ∀ f, outcomeOf (withActive f s.beginStep) = .fault (.slotOutOfRange i) :=
      outcomeOf_withActive_missing (s := s.beginStep) ha hi
    refine ⟨hmiss writeNextOf, hmiss beginReadOf, fun hst hsub => ?_, fun hpos => ?_, fun hst hsub => ?_, fun hst => ?_⟩
    · rw [exec_evStart_reStart hst hsub]
      exact hmiss _
    · rw [exec_evTxAck_expected (expectedAt_evTxAck.2 hpos) (by simp [ha])]
      exact outcomeOf_withActive_missing (s := { s.beginStep with stage := .dataPhase }) ha hi _
    · rw [exec_evRx_reading hst hsub ha, receiveByte_missing (s := s.beginStep) hi]
      rfl
    · rw [exec_evStop_stopping hst, retire_missing (s := s.beginStep) ha hi]
      rfl
  · rcases hop with rfl | rfl | ⟨rfl, hst, hsub⟩
    · exact outcomeOf_withActive_none ha writeNextOf
    · exact outcomeOf_withActive_none ha beginReadOf
    · rw [exec_evStart_reStart hst hsub]
      exact outcomeOf_withActive_none ha resendAddressOf
  · rw [exec_dispatch, dispatchByte_shtp (s := s.beginStep) hk]
    exact hf

end Sys2Proof.Machine

/-! ## The error register gates nothing

Every operation but `RESET` only adds flags to `err`, and reads no flag but POOL_FATAL (10_state.md R46, R47,
60_exceptions.md R300). Both are one relation between two runs: `ErrTwins`. -/

namespace Sys2Proof.Machine

theorem flagSet_or (a b : BitVec 8) (k : ErrKind) : flagSet (a ||| b) k = (flagSet a k || flagSet b k) := by
  simp [flagSet]

/-- `s` and `u` are what two runs have reached that began with the errors `a` and `e`, alike in POOL_FATAL: they differ in
`err` alone, and both have collected the same flags since. -/
structure ErrTwins (a e : BitVec 8) (s u : State) : Prop where
  gate : flagSet e .poolFatal = flagSet a .poolFatal
  collected : ∃ m, s.err = a ||| m ∧ u = { s with err := e ||| m }

/-- Two outcomes agree: where the first run answers, so does the second, with a related answer. -/
def OkImplies {α : Type} (R : α → α → Prop) (x y : Except Fault α) : Prop :=
  ∀ r, x = .ok r → ∃ r', y = .ok r' ∧ R r r'

theorem okImplies_ok {α : Type} {R : α → α → Prop} {r r' : α} (h : R r r') : OkImplies R (.ok r) (.ok r') := by
  rintro _ ⟨⟩
  exact ⟨r', rfl, h⟩

theorem okImplies_error {α : Type} {R : α → α → Prop} (f : Fault) (y : Except Fault α) : OkImplies R (.error f) y := by
  rintro _ ⟨⟩

theorem OkImplies.map {α β : Type} {R : α → α → Prop} {Q : β → β → Prop} {x y : Except Fault α} {f g : α → β}
    (h : OkImplies R x y) (hf : ∀ r r', R r r' → Q (f r) (g r')) : OkImplies Q (x.map f) (y.map g) := by
  cases x with
  | error e => exact okImplies_error e _
  | ok r =>
    obtain ⟨r', rfl, hr⟩ := h r rfl
    exact okImplies_ok (hf r r' hr)

/-- Twins with the same value beside them: an answer of `ENQ`, a slot, the bytes a callback asks for. -/
def PairTwins (a e : BitVec 8) {α : Type} (p q : α × State) : Prop := q.1 = p.1 ∧ ErrTwins a e p.2 q.2

theorem PairTwins.exists_twins {a e : BitVec 8} {α : Type} {p q : α × State} (h : PairTwins a e p q) :
    ∃ x s u, p = (x, s) ∧ q = (x, u) ∧ ErrTwins a e s u :=
  ⟨p.1, p.2, q.2, rfl, Prod.ext h.1 rfl, h.2⟩

namespace ErrTwins

variable {a e : BitVec 8} {s u : State}

theorem refl (h : flagSet e .poolFatal = flagSet s.err .poolFatal) : ErrTwins s.err e s { s with err := e } :=
  ⟨h, 0, by simp, by simp⟩

/-- What does not read `err` keeps twins. -/
theorem map (h : ErrTwins a e s u) (g : State → State)
    (hg : ∀ s x, g { s with err := x } = { g s with err := x }) : ErrTwins a e (g s) (g u) := by
  obtain ⟨hgate, m, hm, rfl⟩ := h
  exact ⟨hgate, m, (congrArg State.err (hg s s.err)).trans hm, hg s _⟩

/-- What does not read `err` is the same of twins. -/
theorem same {α : Type} (h : ErrTwins a e s u) (f : State → α) (hf : ∀ s x, f { s with err := x } = f s) : f u = f s := by
  obtain ⟨-, m, -, rfl⟩ := h
  exact hf s _

theorem raise (h : ErrTwins a e s u) (k : ErrKind) : ErrTwins a e (s.raise k) (u.raise k) := by
  obtain ⟨hgate, m, hm, rfl⟩ := h
  exact ⟨hgate, m ||| errMask k, by simp [hm, BitVec.or_assoc], by simp [State.raise, BitVec.or_assoc]⟩

/-- A branch that both runs take alike. -/
theorem ite {c c' : Prop} [Decidable c] [Decidable c'] {s₁ s₂ u₁ u₂ : State} (hc : c' ↔ c)
    (h₁ : ErrTwins a e s₁ u₁) (h₂ : ErrTwins a e s₂ u₂) :
    ErrTwins a e (if c then s₁ else s₂) (if c' then u₁ else u₂) := by
  simp only [hc]
  split
  · exact h₁
  · exact h₂

/-- The one flag that is read, POOL_FATAL (R137, R138), is the same of twins. -/
theorem poolFatal (h : ErrTwins a e s u) : flagSet u.err .poolFatal = flagSet s.err .poolFatal := by
  obtain ⟨hgate, m, hm, rfl⟩ := h
  rw [hm, flagSet_or, flagSet_or, hgate]

theorem poolAt (h : ErrTwins a e s u) (i : Nat) : Machine.poolAt u i = Machine.poolAt s i :=
  h.same (Machine.poolAt · i) fun _ _ => rfl

theorem beginStep (h : ErrTwins a e s u) : ErrTwins a e s.beginStep u.beginStep := h.map _ fun _ _ => rfl

theorem emit (h : ErrTwins a e s u) (c : BusCommand) : ErrTwins a e (s.emit c) (u.emit c) :=
  h.map (·.emit c) fun _ _ => rfl

theorem setStage (h : ErrTwins a e s u) (st : Stage) : ErrTwins a e { s with stage := st } { u with stage := st } :=
  h.map (fun s => { s with stage := st }) fun _ _ => rfl

/-! ### The queue -/

theorem readSlot (h : ErrTwins a e s u) (i : Nat) : Machine.readSlot u i = Machine.readSlot s i :=
  h.same (Machine.readSlot · i) fun _ _ => rfl

theorem alloc (h : ErrTwins a e s u) : PairTwins a e (alloc s) (alloc u) := by
  obtain ⟨hgate, m, hm, rfl⟩ := h
  have hfind : (List.range s.cfg.nslot).find? (fun i => !usedAt { s with err := e ||| m } i)
      = (List.range s.cfg.nslot).find? (fun i => !usedAt s i) := rfl
  unfold Machine.alloc
  rw [hfind]
  cases (List.range s.cfg.nslot).find? (fun i => !usedAt s i) with
  | none => exact ⟨rfl, hgate, m, hm, rfl⟩
  | some i => exact ⟨rfl, hgate, m, hm, rfl⟩

theorem reclaim (h : ErrTwins a e s u) : ErrTwins a e (reclaim s) (reclaim u) :=
  ErrTwins.raise (h.map (fun s => { s with used := (Machine.reclaim s).used }) fun _ _ => rfl) .reclaim

theorem deq (h : ErrTwins a e s u) : PairTwins a e (deq s) (deq u) := by
  have hc : u.qCount = s.qCount := h.same State.qCount fun _ _ => rfl
  by_cases h0 : s.qCount = 0
  · rw [deq_empty s h0, deq_empty u (hc.trans h0)]
    exact ⟨rfl, h⟩
  · rw [deq_some s h0, deq_some u (by rwa [hc])]
    exact ⟨congrArg some (h.same (fun s => fifoAt s s.qHead) fun _ _ => rfl),
      h.map (fun s => { s with qHead := (s.qHead + 1) % s.cfg.qcap, qCount := s.qCount - 1 }) fun _ _ => rfl⟩

theorem release (h : ErrTwins a e s u) (i : Nat) : OkImplies (ErrTwins a e) (release i s) (release i u) := by
  have hc : u.cfg = s.cfg := h.same State.cfg fun _ _ => rfl
  unfold Machine.release
  rw [hc]
  split
  · exact okImplies_ok (h.map (·.setUsed i false) fun _ _ => rfl)
  · exact okImplies_error _ _

theorem acceptDesc (h : ErrTwins a e s u) (d : Desc) (i : Nat) : ErrTwins a e (acceptDesc d i s) (acceptDesc d i u) :=
  h.map _ fun s x => by rw [acceptDesc_eq, acceptDesc_eq]; rfl

theorem noteClamp (h : ErrTwins a e s u) (d : Desc) : ErrTwins a e (noteClamp d s) (noteClamp d u) := by
  have hc : u.cfg = s.cfg := h.same State.cfg fun _ _ => rfl
  unfold Machine.noteClamp
  rw [hc]
  split
  · exact h.raise .desc
  · exact h

theorem allocAndAccept (h : ErrTwins a e s u) (d : Desc) :
    PairTwins a e (allocAndAccept d s) (allocAndAccept d u) := by
  obtain ⟨slot, s1, u1, hs, hu, h1⟩ := h.alloc.exists_twins
  unfold Machine.allocAndAccept
  rw [hs, hu]
  cases slot with
  | some i => exact ⟨rfl, h1.acceptDesc d i⟩
  | none =>
    obtain ⟨slot, s2, u2, hs, hu, h2⟩ := h1.reclaim.alloc.exists_twins
    have hc : u1.qCount = s1.qCount := h1.same State.qCount fun _ _ => rfl
    simp only [hc, hs, hu]
    split
    · cases slot with
      | some i => exact ⟨rfl, h2.acceptDesc d i⟩
      | none => exact ⟨rfl, h2.raise .poolFatal⟩
    · exact ⟨rfl, h1⟩

theorem enqueue (h : ErrTwins a e s u) (d : Desc) : PairTwins a e (enqueue d s) (enqueue d u) := by
  have hc : u.cfg = s.cfg := h.same State.cfg fun _ _ => rfl
  have hq : u.qCount = s.qCount := h.same State.qCount fun _ _ => rfl
  unfold Machine.enqueue
  rw [h.poolFatal, hc, hq]
  split
  · exact ⟨rfl, h⟩
  · split
    · exact ⟨rfl, h.raise .qfull⟩
    · exact (h.noteClamp d).allocAndAccept _

theorem enqueueAll : ∀ (ds : List Desc) {s u : State}, ErrTwins a e s u →
    PairTwins a e (enqueueAll ds s) (enqueueAll ds u)
  | [], _, _, h => ⟨rfl, h⟩
  | d :: ds, s, u, h => by
    obtain ⟨hb, h1⟩ := h.enqueue d
    obtain ⟨hbs, h2⟩ := ErrTwins.enqueueAll ds h1
    exact ⟨by simp only [Machine.enqueueAll, hb, hbs], h2⟩

/-! ### Dispatch and framing -/

theorem storeByte (h : ErrTwins a e s u) (b : Byte) : ErrTwins a e (storeByte b s) (storeByte b u) := by
  have hr : u.rxCur = s.rxCur := h.same State.rxCur fun _ _ => rfl
  have hc : u.cfg = s.cfg := h.same State.cfg fun _ _ => rfl
  rcases Nat.lt_or_ge s.rxCur.toNat s.cfg.rxcap with hroom | hfull
  · rw [storeByte_room s b hroom, storeByte_room u b (by rwa [hr, hc])]
    exact h.map (fun s => { s with rxbuf := s.rxbuf.write s.rxCur.toNat b, rxCur := s.rxCur + 1 }) fun _ _ => rfl
  · rw [storeByte_full s b hfull, storeByte_full u b (by rwa [hr, hc])]
    exact h.raise .ovf

theorem startFresh (h : ErrTwins a e s u) (b0 b1 : Byte) (len : Nat) :
    ErrTwins a e (startFresh b0 b1 len s) (startFresh b0 b1 len u) :=
  (((h.map (fun s => { s with app := false, rxCur := 0 }) fun _ _ => rfl).storeByte b0).storeByte b1).map
    (fun s => { s with frameLen := BitVec.ofNat 16 len }) fun _ _ => rfl

theorem headerByte (h : ErrTwins a e s u) (b : Byte) : ErrTwins a e (headerByte b s).2 (headerByte b u).2 := by
  have hh : u.h0 = s.h0 := h.same State.h0 fun _ _ => rfl
  have hc : u.cfg = s.cfg := h.same State.cfg fun _ _ => rfl
  have hr : u.rxCur = s.rxCur := h.same State.rxCur fun _ _ => rfl
  have hn : ∀ len, ErrTwins a e (noteOverlong len s) (noteOverlong len u) := fun len => by
    unfold noteOverlong
    rw [hc]
    split
    · exact h.raise .ovf
    · exact h
  unfold Machine.headerByte
  simp only [hh, hc, hr]
  split
  · exact (hn _).map _ fun _ _ => rfl
  · exact (hn _).startFresh _ _ _

theorem transferByte (h : ErrTwins a e s u) (b : Byte) : ErrTwins a e (transferByte b s).2 (transferByte b u).2 := by
  have hx : u.xfIdx = s.xfIdx := h.same State.xfIdx fun _ _ => rfl
  have ha : u.app = s.app := h.same State.app fun _ _ => rfl
  unfold Machine.transferByte
  by_cases h0 : s.xfIdx = 0
  · rw [if_pos h0, if_pos (hx.trans h0)]
    exact h.map (fun s => { s with h0 := b }) fun _ _ => rfl
  rw [if_neg h0, if_neg (mt hx.symm.trans h0)]
  by_cases h1 : s.xfIdx = 1
  · rw [if_pos h1, if_pos (hx.trans h1)]
    exact h.headerByte b
  rw [if_neg h1, if_neg (mt hx.symm.trans h1), hx, ha]
  split
  · exact h.storeByte b
  · cases s.app with
    | true => exact h
    | false => exact h.storeByte b

theorem deliverFrame (h : ErrTwins a e s u) : OkImplies (ErrTwins a e) (deliverFrame s) (deliverFrame u) := by
  have hr : u.rxCur = s.rxCur := h.same State.rxCur fun _ _ => rfl
  have hc : u.cfg = s.cfg := h.same State.cfg fun _ _ => rfl
  have hs : sinkAnswer u = sinkAnswer s := h.same sinkAnswer fun _ _ => rfl
  unfold Machine.deliverFrame
  rw [hr, hc, hs]
  split
  · obtain ⟨hbs, ht⟩ := enqueueAll (sinkAnswer s) (h.map handOver fun _ _ => rfl)
    simp only [hbs]
    exact okImplies_ok (ht.map _ fun _ _ => rfl)
  · exact okImplies_error _ _

theorem setXfIdx (h : ErrTwins a e s u) (i : Fin 5) : ErrTwins a e { s with xfIdx := i } { u with xfIdx := i } :=
  h.map (fun s => { s with xfIdx := i }) fun _ _ => rfl

theorem endTransfer (h : ErrTwins a e s u) (i : Fin 5) :
    OkImplies (ErrTwins a e) (endTransfer i s) (endTransfer i u) := by
  have hf : frameComplete i u = frameComplete i s := h.same (frameComplete i) fun _ _ => rfl
  unfold Machine.endTransfer
  rw [hf]
  split
  · exact h.deliverFrame.map fun _ _ h1 => h1.setXfIdx 0
  · exact okImplies_ok (h.setXfIdx 0)

theorem shtpCallback (h : ErrTwins a e s u) (b : Byte) (remaining : Half) :
    OkImplies (PairTwins a e) (shtpCallback b remaining s) (shtpCallback b remaining u) := by
  have hadd : addOf b u = addOf b s := h.same (addOf b) fun _ _ => rfl
  have hx : u.xfIdx = s.xfIdx := h.same State.xfIdx fun _ _ => rfl
  have h1 := (h.transferByte b).setXfIdx (nextIdx s.xfIdx)
  unfold Machine.shtpCallback
  simp only [transferByte_add, hadd, hx]
  split
  · exact (h1.endTransfer s.xfIdx).map fun _ _ h2 => ⟨rfl, h2⟩
  · exact okImplies_ok ⟨rfl, h1⟩

theorem dispatchByte (h : ErrTwins a e s u) (addr : BitVec 7) (b : Byte) (remaining : Half) :
    OkImplies (PairTwins a e) (dispatchByte addr b remaining s) (dispatchByte addr b remaining u) := by
  have hk : kindAt u addr = kindAt s addr := h.same (kindAt · addr) fun _ _ => rfl
  unfold Machine.dispatchByte
  rw [hk]
  split
  · exact okImplies_ok ⟨rfl, h⟩
  · exact h.shtpCallback b remaining

/-! ### The engine -/

theorem resendAddressOf (d : Desc) (h : ErrTwins a e s u) : ErrTwins a e (resendAddressOf d s) (resendAddressOf d u) :=
  h.map _ fun _ _ => rfl

theorem writeNextOf (d : Desc) (h : ErrTwins a e s u) : ErrTwins a e (writeNextOf d s) (writeNextOf d u) := by
  have hw : u.widx = s.widx := h.same State.widx fun _ _ => rfl
  have hbyte : d.wdata[u.widx.toNat]? = d.wdata[s.widx.toNat]? := by rw [hw]
  unfold Machine.writeNextOf
  rw [hbyte]
  cases d.wdata[s.widx.toNat]? with
  | some b =>
    exact ErrTwins.emit (h.map (fun s => { s with widx := s.widx + 1 }) fun _ _ => rfl) (.tx b)
  | none =>
    simp only
    split
    · exact ErrTwins.emit (h.map (fun s => { s with sub := .reStart }) fun _ _ => rfl) .start
    · exact (h.setStage .stopping).emit .stop

theorem beginReadOf (d : Desc) (h : ErrTwins a e s u) : ErrTwins a e (beginReadOf d s) (beginReadOf d u) := by
  unfold Machine.beginReadOf
  split
  · exact (h.setStage .stopping).emit .stop
  · exact ErrTwins.emit (h.map (fun s => { s with sub := .read }) fun _ _ => rfl) .rx

theorem ackRule (sub : SubPhase) (d : Desc) (h : ErrTwins a e s u) : ErrTwins a e (ackRule sub d s) (ackRule sub d u) := by
  unfold Machine.ackRule
  split
  · exact h.writeNextOf d
  · exact h.beginReadOf d

theorem withActive (h : ErrTwins a e s u) {f : Desc → State → State}
    (hf : ∀ d {s u}, ErrTwins a e s u → ErrTwins a e (f d s) (f d u)) :
    OkImplies (ErrTwins a e) (withActive f s) (withActive f u) := by
  have ha : u.active = s.active := h.same State.active fun _ _ => rfl
  unfold Machine.withActive
  rw [ha]
  cases s.active with
  | none => exact okImplies_ok (h.raise .proto)
  | some i =>
    simp only [h.readSlot i]
    exact OkImplies.map (R := Eq) (fun r hr => ⟨r, hr, rfl⟩) fun d _ hd => by subst hd; exact hf d h

theorem startNext (h : ErrTwins a e s u) : OkImplies (ErrTwins a e) (startNext s) (startNext u) := by
  obtain ⟨slot, s1, u1, hs, hu, h1⟩ := h.deq.exists_twins
  unfold Machine.startNext
  rw [hs, hu]
  cases slot with
  | none => exact okImplies_ok ((h1.setStage .stopping).emit .stop)
  | some slot =>
    simp only [h1.readSlot slot]
    exact OkImplies.map (R := Eq) (fun r hr => ⟨r, hr, rfl⟩) fun d _ hd => by
      subst hd; exact h1.map (activate slot d) fun _ _ => rfl

theorem acknowledge (h : ErrTwins a e s u) (i : Nat) (add : Half) :
    ErrTwins a e (acknowledge i add s) (acknowledge i add u) := by
  have hr : u.rcount = s.rcount := h.same State.rcount fun _ _ => rfl
  have hset : ∀ d, ErrTwins a e (s.setPool i d) (u.setPool i d) := fun d => h.map (·.setPool i d) fun _ _ => rfl
  unfold Machine.acknowledge
  simp only [h.poolAt]
  exact ErrTwins.ite (by simp only [setPool_rcount, hr]) (((hset _).setStage .stopping).emit .nackStop)
    ((hset _).emit .ackRx)

theorem receiveByte (h : ErrTwins a e s u) (b : Byte) (i : Nat) :
    OkImplies (ErrTwins a e) (receiveByte b i s) (receiveByte b i u) := by
  have hr : u.rcount = s.rcount := h.same State.rcount fun _ _ => rfl
  unfold Machine.receiveByte
  simp only [h.readSlot i]
  cases Machine.readSlot s i with
  | error f => exact okImplies_error f _
  | ok d =>
    have h1 : ErrTwins a e { s with rcount := nextRcount s.rcount } { u with rcount := nextRcount u.rcount } :=
      h.map (fun s => { s with rcount := nextRcount s.rcount }) fun _ _ => rfl
    simp only [hr] at h1 ⊢
    refine (h1.dispatchByte d.addr b (bytesRemaining d.rlen (nextRcount s.rcount))).map ?_
    rintro ⟨_, s2⟩ ⟨add, u2⟩ ⟨rfl, h2⟩
    exact h2.acknowledge i add

theorem retire (h : ErrTwins a e s u) : OkImplies (ErrTwins a e) (retire s) (retire u) := by
  have ha : u.active = s.active := h.same State.active fun _ _ => rfl
  unfold Machine.retire
  rw [ha]
  cases s.active with
  | none => exact okImplies_ok h
  | some i => exact (h.release i).map fun _ _ h1 => h1.map (fun s => { s with active := none }) fun _ _ => rfl

theorem restartOrIdle (h : ErrTwins a e s u) : ErrTwins a e (restartOrIdle s) (restartOrIdle u) := by
  have hc : u.qCount = s.qCount := h.same State.qCount fun _ _ => rfl
  exact ErrTwins.ite (by rw [hc]) ((h.setStage .starting).emit .start) (h.setStage .idle)

end ErrTwins

/-! ### The operations -/

/-- An outcome with a next state has a twin. -/
def OutcomeTwins (a e : BitVec 8) (x y : Result) : Prop := ∀ t, x = .next t → ∃ v, y = .next v ∧ ErrTwins a e t v

theorem ErrTwins.next {a e : BitVec 8} {s u : State} (h : ErrTwins a e s u) : OutcomeTwins a e (.next s) (.next u) := by
  rintro _ ⟨⟩
  exact ⟨u, rfl, h⟩

theorem OkImplies.outcomeOf {a e : BitVec 8} {x y : Except Fault State} (h : OkImplies (ErrTwins a e) x y) :
    OutcomeTwins a e (outcomeOf x) (outcomeOf y) := by
  cases x with
  | error f => rintro _ ⟨⟩
  | ok s =>
    obtain ⟨u, rfl, hu⟩ := h s rfl
    exact hu.next

theorem OkImplies.outcomeOfAdd {a e : BitVec 8} {x y : Except Fault (Half × State)} (h : OkImplies (PairTwins a e) x y) :
    OutcomeTwins a e (outcomeOfAdd x) (outcomeOfAdd y) := by
  cases x with
  | error f => rintro _ ⟨⟩
  | ok r =>
    obtain ⟨r', rfl, hadd, hr⟩ := h r rfl
    exact ErrTwins.next (by rw [hadd]; exact hr.map (·.returnValue (.add r.1)) fun _ _ => rfl)

section
variable {a e : BitVec 8} {s u : State}

theorem PairTwins.returnSlot {p q : Option Nat × State} (h : PairTwins a e p q) :
    ErrTwins a e (p.2.returnValue (.slot p.1)) (q.2.returnValue (.slot q.1)) := by
  rw [h.1]
  exact h.2.map (·.returnValue (.slot p.1)) fun _ _ => rfl

/-- A completion event on twins: at an expected position its rule, elsewhere PROTO. -/
theorem ErrTwins.event (h : ErrTwins a e s u) {i : Instr} (hi : isEvent i = true) :
    OutcomeTwins a e (exec i s) (exec i u) := by
  have hst : u.stage = s.stage := h.same State.stage fun _ _ => rfl
  have hsub : u.sub = s.sub := h.same State.sub fun _ _ => rfl
  have hact : u.active = s.active := h.same State.active fun _ _ => rfl
  have h0 := h.beginStep
  have hproto : OutcomeTwins a e (.next (unexpectedEvent s.beginStep)) (.next (unexpectedEvent u.beginStep)) :=
    (h0.raise .proto).next
  cases he : expectedAt s.stage s.sub i with
  | false =>
    rw [exec_of_unexpected hi he, exec_of_unexpected hi (by rwa [hst, hsub])]
    exact hproto
  | true =>
    have he' : expectedAt u.stage u.sub i = true := by rwa [hst, hsub]
    cases i with
    | evStart =>
      rcases expectedAt_evStart.1 he with hs | ⟨hs, hs'⟩
      · rw [exec_evStart_starting hs, exec_evStart_starting (hst.trans hs)]
        exact h0.startNext.outcomeOf
      · rw [exec_evStart_reStart hs hs', exec_evStart_reStart (hst.trans hs) (hsub.trans hs')]
        exact (h0.withActive fun d _ _ h1 => h1.resendAddressOf d).outcomeOf
    | evTxAck =>
      by_cases ha : s.active = none
      · rw [exec_evTxAck_none ha, exec_evTxAck_none (hact.trans ha)]
        exact hproto
      · rw [exec_evTxAck_expected he ha, exec_evTxAck_expected he' (by rwa [hact]), hsub]
        exact ((h0.setStage .dataPhase).withActive fun d _ _ h1 => h1.ackRule s.sub d).outcomeOf
    | evTxNack =>
      rw [exec_evTxNack_expected he, exec_evTxNack_expected he']
      exact (((h0.raise .nack).setStage .stopping).emit .stop).next
    | evRx b =>
      obtain ⟨hs, hs'⟩ := expectedAt_evRx.1 he
      cases ha : s.active with
      | none =>
        rw [exec_evRx_none ha, exec_evRx_none (hact.trans ha)]
        exact hproto
      | some i =>
        rw [exec_evRx_reading hs hs' ha, exec_evRx_reading (hst.trans hs) (hsub.trans hs') (hact.trans ha)]
        exact (h0.receiveByte b i).outcomeOf
    | evStop =>
      have hs := expectedAt_evStop.1 he
      rw [exec_evStop_stopping hs, exec_evStop_stopping (hst.trans hs)]
      exact (h0.retire.map fun _ _ h1 => h1.restartOrIdle).outcomeOf
    | evReserved code => simp [expectedAt_evReserved] at he
    | _ => simp [isEvent] at hi

/-- Every operation but `STATUS`, which shows the flags, and `RESET`, which clears them, keeps twins. -/
theorem ErrTwins.exec (h : ErrTwins a e s u) {i : Instr} (hstatus : i ≠ .status) (hreset : i ≠ .reset) :
    OutcomeTwins a e (exec i s) (exec i u) := by
  have h0 := h.beginStep
  cases i with
  | status => exact absurd rfl hstatus
  | reset => exact absurd rfl hreset
  | nop => exact h0.next
  | enq d =>
    obtain ⟨hb, h1⟩ := h0.enqueue d
    refine ErrTwins.next ?_
    rw [hb]
    exact h1.map (·.respond (.accepted (Machine.enqueue d s.beginStep).1)) fun _ _ => rfl
  | regcb addr kind =>
    refine ErrTwins.next ?_
    split
    · exact h0.map (·.setKind addr .none) fun _ _ => rfl
    · split
      · exact h0.map (·.setKind addr .shtp) fun _ _ => rfl
      · exact h0.raise .desc
  | awaitSet => exact (h0.map (fun s => { s with awaiting := true }) fun _ _ => rfl).next
  | size => exact (h.map (fun s => s.beginStep.respond (.count (zext16 s.qCount))) fun _ _ => rfl).next
  | hcReserved opcode => exact (h0.raise .desc).next
  | evStart | evTxAck | evTxNack | evRx b | evStop | evReserved code => exact h.event rfl
  | bcNone | bcStart | bcTx d | bcRx | bcAckRx | bcNackStop | bcStop => exact (h0.emit _).next
  | bcReserved => rintro _ ⟨⟩
  | alloc => exact h0.alloc.returnSlot.next
  | reclaim => exact h0.reclaim.next
  | push slot => exact (h0.map (push slot) fun _ _ => rfl).next
  | deq => exact h0.deq.returnSlot.next
  | release slot => exact (h0.release slot).outcomeOf
  | writeNext => exact (h0.withActive fun d _ _ h1 => h1.writeNextOf d).outcomeOf
  | beginRead => exact (h0.withActive fun d _ _ h1 => h1.beginReadOf d).outcomeOf
  | dispatch addr b remaining => exact (h0.dispatchByte addr b remaining).outcomeOfAdd
  | shtpCb b remaining => exact (h0.shtpCallback b remaining).outcomeOfAdd
  | store b => exact (h0.storeByte b).next
  | deliver => exact h0.deliverFrame.outcomeOf

end

/-- Settles O52: the two runs are twins, and `RESET` answers the same state to both. -/
theorem diagnosticFlagsGateNothing : Obligations.DiagnosticFlagsGateNothing := by
  intro i s t e hstatus hgate hx
  by_cases hreset : i = .reset
  · subst hreset
    cases hx
    exact ⟨0, rfl, rfl⟩
  · obtain ⟨v, hv, htwins⟩ := (ErrTwins.refl hgate).exec hstatus hreset t hx
    have hflag := htwins.poolFatal
    obtain ⟨-, m, -, rfl⟩ := htwins
    exact ⟨e ||| m, hv, hflag⟩

/-- Settles O53: a run is a twin of itself, so `err` afterwards is `err` before with flags added. -/
theorem errorFlagsAreSticky : Obligations.ErrorFlagsAreSticky := by
  intro i s t k hreset hx hk
  by_cases hstatus : i = .status
  · subst hstatus
    cases hx
    exact hk
  · obtain ⟨-, -, -, m, hm, -⟩ := (ErrTwins.refl (s := s) rfl).exec hstatus hreset t hx
    rw [hm, flagSet_or, hk, Bool.true_or]

end Sys2Proof.Machine

/-! ## Reset and the used slots

The invariants at reset (10_state.md R49, R50), and the number of used slots (R49, I4). -/

namespace Sys2Proof.Machine

variable {s : State}

/-! ### Reset -/

theorem isReset_resetWith (c : Config) : IsReset (State.resetWith c) := by
  constructor <;> intros <;> rfl

/-- Settles O5: an empty array reads as its default everywhere, the other fields are written out in `State.resetWith`. -/
theorem powerOnState : Obligations.PowerOnState :=
  ⟨fun c => ⟨isReset_resetWith c, rfl⟩, isReset_resetWith Config.testT⟩

/-- Nothing is live, no array holds an element, and every clause about a stage other than Idle is about another state. -/
theorem inv_resetWith {c : Config} (hc : c.Valid) : (State.resetWith c).Inv where
  cfgValid := hc
  canonical := rfl
  bounded := by simp [TablesBounded, State.resetWith]
  idle := fun _ => ⟨rfl, rfl⟩
  starting := by rintro ⟨⟩
  busy := by rintro (⟨⟨⟩⟩ | ⟨⟨⟩⟩ | ⟨⟨⟩⟩)
  headRange := hc.1
  countRange := Nat.zero_le _
  distinct := List.nodup_nil
  owned := fun i => by simp [usedAt, liveSlots, queuedSlots, State.resetWith]
  cursorRange := ⟨Nat.zero_le _, Nat.zero_le _⟩
  writeBuffer := fun _ => Nat.zero_le _
  counters := by rintro i ⟨⟩
  addressSub := by rintro ⟨⟩
  restartReads := by rintro ⟨⟩
  notYetRead := fun _ => rfl
  readingLeft := by rintro ⟨⟩
  errFlags := by simp [State.resetWith, flagSet]

/-- Settles O44. -/
theorem invHoldsAtReset : Obligations.InvHoldsAtReset :=
  ⟨fun _ hc => inv_resetWith hc, inv_resetWith (by decide)⟩

/-! ### The used slots -/

theorem length_liveSlots (s : State) : (liveSlots s).length = s.qCount + (if s.active.isSome then 1 else 0) := by
  cases ha : s.active <;> simp [liveSlots, queuedSlots, ha, Nat.add_comm]

/-- The used slots of the pool are the live slots in another order (R25). -/
theorem QueueInv.used_perm_live (q : QueueInv s) : ((List.range s.cfg.nslot).filter (usedAt s)).Perm (liveSlots s) := by
  refine (List.perm_ext_iff_of_nodup (List.nodup_range.filter _) q.distinct).2 fun i => ?_
  rw [List.mem_filter, List.mem_range, q.owned i]
  exact ⟨And.right, fun hi => ⟨q.live_lt hi, hi⟩⟩

/-- Settles O47: the used slots are as many as the live ones. -/
theorem usedSlotsAreOwned : Obligations.UsedSlotsAreOwned := by
  intro s h
  have hcount : usedCount s = s.qCount + (if s.active.isSome then 1 else 0) :=
    h.queueInv.used_perm_live.length_eq.trans (length_liveSlots s)
  have hq := h.countRange
  have hle : (if s.active.isSome then 1 else 0) ≤ 1 := by split <;> omega
  refine ⟨hcount, by omega, ?_⟩
  rw [Config.nslot]
  omega

end Sys2Proof.Machine

/-! ## The parts of the invariants

R49 in the parts that operations touch separately: queue and pool (`QueueInv`), receive buffer (`BufferInv`), engine
(`EngineInv`), callback table (`CallbackInv`); and what `ENQ` and a dispatched byte do to them. -/

namespace Sys2Proof.Machine

variable {s t : State}

/-! ### Taking the invariants apart -/

/-- What R49 says of the engine: I1 to I3, the counters of I7 and the clauses of log entry 23. -/
structure EngineInv (s : State) : Prop where
  idle : s.stage = .idle → s.qCount = 0 ∧ s.active = none
  starting : s.stage = .starting → 1 ≤ s.qCount ∧ s.active = none
  busy : s.stage = .addressPhase ∨ s.stage = .dataPhase ∨ s.stage = .stopping → s.active.isSome = true
  counters : ∀ i, s.active = some i → s.widx.toNat ≤ (poolAt s i).wlen.toNat ∧ s.rcount ≤ (poolAt s i).rlen
  addressSub : s.stage = .addressPhase → s.sub = .write ∨ s.sub = .read
  restartReads : s.stage = .dataPhase → s.sub = .reStart ∨ s.sub = .reAddr →
    ∀ i, s.active = some i → (poolAt s i).rlen ≠ 0
  notYetRead : beforeRead s → s.rcount = 0
  readingLeft : s.stage = .dataPhase → s.sub = .read → ∀ i, s.active = some i → s.rcount < (poolAt s i).rlen

/-- The callback table is canonical and has 128 entries at most (R34, 20_memory.md R60). -/
structure CallbackInv (s : State) : Prop where
  wf : tableWf Kind.none s.cbtab = true
  bound : ∀ e ∈ s.cbtab, e.1 < 128

theorem State.Inv.engineInv (h : s.Inv) : EngineInv s :=
  ⟨h.idle, h.starting, h.busy, h.counters, h.addressSub, h.restartReads, h.notYetRead, h.readingLeft⟩

theorem State.Inv.callbackInv (h : s.Inv) : CallbackInv s := by
  have hc := h.canonical
  simp only [tablesWf, Bool.and_eq_true] at hc
  exact ⟨hc.1.2, h.bounded.2.2.2.1⟩

theorem State.Inv.of_parts (q : QueueInv s) (b : BufferInv s) (c : CallbackInv s) (g : EngineInv s)
    (h7 : s.err.getLsbD 7 = false) : s.Inv where
  cfgValid := q.cfgValid
  canonical := by simp [tablesWf, q.poolWf, q.usedWf, q.fifoWf, c.wf, b.rxWf]
  bounded := ⟨q.poolBound, q.usedBound, q.fifoBound, c.bound, b.rxBound⟩
  idle := g.idle
  starting := g.starting
  busy := g.busy
  headRange := q.headRange
  countRange := q.countRange
  distinct := q.distinct
  owned := q.owned
  cursorRange := ⟨b.cursor, b.frameLen⟩
  writeBuffer := q.writeBuffer
  counters := g.counters
  addressSub := g.addressSub
  restartReads := g.restartReads
  notYetRead := g.notYetRead
  readingLeft := g.readingLeft
  errFlags := ⟨q.noRepair.1, q.noRepair.2, h7⟩

/-! ### The engine's invariant, stage by stage -/

theorem EngineInv.of_idle (hst : s.stage = .idle) (hq : s.qCount = 0) (ha : s.active = none) : EngineInv s := by
  constructor <;> simp [hst, hq, ha, beforeRead]

theorem EngineInv.of_starting (hst : s.stage = .starting) (hq : 1 ≤ s.qCount) (ha : s.active = none) : EngineInv s := by
  constructor <;> simp [hst, hq, ha, beforeRead]

theorem EngineInv.of_addressPhase {i : Nat} (hst : s.stage = .addressPhase) (ha : s.active = some i)
    (hw : s.widx.toNat ≤ (poolAt s i).wlen.toNat) (hr : s.rcount = 0) (hsub : s.sub = .write ∨ s.sub = .read) :
    EngineInv s := by
  constructor <;> simp [hst, ha, hw, hr, hsub, BitVec.le_def]

theorem EngineInv.of_stopping {i : Nat} (hst : s.stage = .stopping) (ha : s.active = some i)
    (hw : s.widx.toNat ≤ (poolAt s i).wlen.toNat) (hr : s.rcount ≤ (poolAt s i).rlen) : EngineInv s := by
  constructor <;> simp [hst, ha, hw, hr, beforeRead]

/-- DataPhase outside the read sub-phase: nothing received yet, and a restart has something to read. -/
theorem EngineInv.of_beforeRead {i : Nat} (hst : s.stage = .dataPhase) (ha : s.active = some i)
    (hw : s.widx.toNat ≤ (poolAt s i).wlen.toNat) (hr : s.rcount = 0)
    (hsub : s.sub = .write ∨ (s.sub ≠ .read ∧ (poolAt s i).rlen ≠ 0)) : EngineInv s := by
  rcases hsub with hsub | ⟨hsub, hlen⟩
  · constructor <;> simp [hst, ha, hw, hr, hsub, BitVec.le_def]
  · constructor <;> simp [hst, ha, hw, hr, hsub, BitVec.le_def]
    exact fun _ => hlen

/-- The read sub-phase: bytes are still due. -/
theorem EngineInv.of_reading {i : Nat} (hst : s.stage = .dataPhase) (hsub : s.sub = .read) (ha : s.active = some i)
    (hw : s.widx.toNat ≤ (poolAt s i).wlen.toNat) (hr : s.rcount < (poolAt s i).rlen) : EngineInv s := by
  constructor <;> simp [hst, ha, hw, hr, hsub, beforeRead, BitVec.le_of_lt hr]

/-- While the engine works on a transaction, there is one. -/
theorem EngineInv.exists_active (g : EngineInv s)
    (hst : s.stage = .addressPhase ∨ s.stage = .dataPhase ∨ s.stage = .stopping) : ∃ i, s.active = some i :=
  Option.isSome_iff_exists.1 (g.busy hst)

/-! ### Flags that no ordinary rule raises -/

/-- PROTO and the reserved bit 7 are as before (R47, R195). -/
def ProtoKept (e e' : BitVec 8) : Prop := flagSet e' .proto = flagSet e .proto ∧ e'.getLsbD 7 = e.getLsbD 7

theorem ProtoKept.refl (e : BitVec 8) : ProtoKept e e := ⟨rfl, rfl⟩

theorem ProtoKept.trans {a b c : BitVec 8} (h1 : ProtoKept a b) (h2 : ProtoKept b c) : ProtoKept a c :=
  ⟨h2.1.trans h1.1, h2.2.trans h1.2⟩

theorem protoKept_raise (e : BitVec 8) {k : ErrKind} (hk : k ≠ .proto) : ProtoKept e (e ||| errMask k) :=
  ⟨by simp [flagSet_raise, hk], bit7_raise e k⟩

theorem OvfOnly.protoKept {e e' : BitVec 8} (h : OvfOnly e e') : ProtoKept e e' := by
  rcases h with rfl | rfl
  · exact .refl _
  · exact protoKept_raise e (by decide)

/-! ### ENQ under the invariants -/

/-- The state after lines 3 to 8 of R136, field by field. -/
theorem acceptDesc_clamped_eq (s : State) (d : Desc) (i : Nat) :
    acceptDesc (clampDesc s.cfg d) i ((noteClamp d s).setUsed i true) =
      { s with
        pool := tableSet Desc.zero s.pool i (clampDesc s.cfg d)
        used := tableSet false s.used i true
        fifo := tableSet 0 s.fifo (tailPos s) i
        qCount := s.qCount + 1
        stage := if s.stage = .idle then .starting else s.stage
        err := if s.cfg.maxw < d.wlen.toNat then s.err ||| errMask .desc else s.err
        out := if s.stage = .idle then { s.out with bc := .start } else s.out } := by
  rw [acceptDesc_eq, noteClamp_eq]
  rfl

theorem protoKept_noteClamp (s : State) (d : Desc) :
    ProtoKept s.err (if s.cfg.maxw < d.wlen.toNat then s.err ||| errMask .desc else s.err) := by
  split
  · exact protoKept_raise _ (by decide)
  · exact .refl _

theorem QueueInv.protoKept_enqueue (q : QueueInv s) (d : Desc) : ProtoKept s.err (Machine.enqueue d s).2.err := by
  rcases q.enqueue_cases d with ⟨-, he⟩ | ⟨-, i, -, he⟩
  · rw [he]
    exact protoKept_raise _ (by decide)
  · rw [he, acceptDesc_clamped_eq]
    exact protoKept_noteClamp s d

/-- Only the idle kick moves the stage (R141). -/
theorem QueueInv.enqueue_stage (q : QueueInv s) (hst : s.stage ≠ .idle) (d : Desc) :
    (Machine.enqueue d s).2.stage = s.stage := by
  rcases q.enqueue_cases d with ⟨-, he⟩ | ⟨-, i, -, he⟩
  · rw [he]; rfl
  · rw [he, acceptDesc_clamped_eq]
    exact if_neg hst

/-! ### A dispatched byte under the invariants -/

/-- What a byte's dispatch to a busy engine keeps, a delivery and SINK's `ENQ`s included (R213, R222, R235, R236). -/
structure Dispatched (s u : State) : Prop where
  frame : DispatchFrame s u
  queue : QueueInv u
  buffer : BufferInv u
  stage : u.stage = s.stage
  live : ∀ j ∈ liveSlots s, j ∈ liveSlots u ∧ poolAt u j = poolAt s j
  proto : ProtoKept s.err u.err

theorem Dispatched.refl (q : QueueInv s) (b : BufferInv s) : Dispatched s s :=
  ⟨.refl s, q, b, rfl, fun _ hj => ⟨hj, rfl⟩, .refl _⟩

theorem Dispatched.trans {s u v : State} (h1 : Dispatched s u) (h2 : Dispatched u v) : Dispatched s v where
  frame := h1.frame.trans h2.frame
  queue := h2.queue
  buffer := h2.buffer
  stage := h2.stage.trans h1.stage
  live := fun j hj =>
    have hu := h1.live j hj
    have hv := h2.live j hu.1
    ⟨hv.1, hv.2.trans hu.2⟩
  proto := h1.proto.trans h2.proto

/-- The framing layer without a delivery. -/
theorem dispatched_of_framing (q : QueueInv s) (f : FramingFrame s t) (b : BufferInv t) (he : OvfOnly s.err t.err) :
    Dispatched s t where
  frame := f.dispatchFrame
  queue := by
    have hflag : ∀ k, k ≠ .ovf → flagSet t.err k = flagSet s.err k := fun k hk => by
      rcases he with he | he
      · rw [he]
      · rw [he, flagSet_raise]
        simp [hk.symm]
    have hrep : flagSet t.err .reclaim = false ∧ flagSet t.err .poolFatal = false := by
      rw [hflag _ (by decide), hflag _ (by decide)]
      exact q.noRepair
    rw [f.eq]
    exact { q with noRepair := hrep }
  buffer := b
  stage := f.stage
  live := fun j hj => by
    rw [f.eq]
    exact ⟨hj, rfl⟩
  proto := he.protoKept

theorem BufferInv.queueFrame (b : BufferInv s) (f : QueueFrame s t) : BufferInv t where
  cfgValid := by rw [f.cfg]; exact b.cfgValid
  rxWf := by rw [f.rxbuf]; exact b.rxWf
  rxBound := by rw [f.rxbuf, f.cfg]; exact b.rxBound
  cursor := by rw [f.rxCur, f.cfg]; exact b.cursor
  frameLen := by rw [f.frameLen, f.cfg]; exact b.frameLen

/-- An `ENQ` of SINK's while the engine is busy (R236). -/
theorem dispatched_enqueue (q : QueueInv s) (b : BufferInv s) (hst : s.stage ≠ .idle) (d : Desc) :
    Dispatched s (enqueue d s).2 where
  frame :=
    have f := queueFrame_enqueue s d
    { f with poolWf := fun hw => enqueue_poolWf hw d }
  queue := (q.enqueue d).1
  buffer := b.queueFrame (queueFrame_enqueue s d)
  stage := q.enqueue_stage hst d
  live := (q.enqueue d).2
  proto := q.protoKept_enqueue d

theorem dispatched_enqueueAll : ∀ (ds : List Desc) {s : State}, QueueInv s → BufferInv s → s.stage ≠ .idle →
    Dispatched s (enqueueAll ds s).2
  | [], _, q, b, _ => .refl q b
  | d :: ds, s, q, b, hst =>
    have h1 := dispatched_enqueue q b hst d
    h1.trans (dispatched_enqueueAll ds h1.queue h1.buffer (by rwa [h1.stage]))

theorem dispatched_deliver (q : QueueInv s) (b : BufferInv s) (hst : s.stage ≠ .idle) (hd : deliverFrame s = .ok t) :
    Dispatched s t := by
  have hframe := dispatchFrame_deliver hd
  rw [deliverFrame_ok s b.cursor] at hd
  cases hd
  have h1 := dispatched_enqueueAll (sinkAnswer s) (s := handOver s) { q with } { b with } hst
  exact
    { frame := hframe
      queue := { h1.queue with }
      buffer := { h1.buffer with cursor := Nat.zero_le _, frameLen := Nat.zero_le _ }
      stage := h1.stage
      live := h1.live
      proto := h1.proto }

theorem dispatched_setXfIdx (q : QueueInv s) (b : BufferInv s) (x : Fin 5) : Dispatched s { s with xfIdx := x } :=
  dispatched_of_framing q { FramingFrame.refl s with } { b with } (.inl rfl)

theorem dispatched_shtp (q : QueueInv s) (b : BufferInv s) (hst : s.stage ≠ .idle) {byte : Byte} {remaining : Half}
    {r : Half × State} (hr : shtpCallback byte remaining s = .ok r) : Dispatched s r.2 := by
  have hb := b.transferByte byte
  have h0 := dispatched_of_framing q (framingFrame_transferByte s byte) hb.1 hb.2
  have h1 := h0.trans (dispatched_setXfIdx h0.queue h0.buffer (nextIdx s.xfIdx))
  rcases shtpCallback_cases s byte remaining with ⟨-, he⟩ | ⟨-, -, -, he⟩ | ⟨-, -, -, he⟩
  · cases he.symm.trans hr
    exact h1
  · cases he.symm.trans hr
    exact h1.trans (dispatched_setXfIdx h1.queue h1.buffer 0)
  · rw [he] at hr
    cases hd : deliverFrame { (transferByte byte s).2 with xfIdx := nextIdx s.xfIdx } with
    | error e => rw [hd] at hr; cases hr
    | ok u =>
      rw [hd] at hr
      cases hr
      have h2 := h1.trans (dispatched_deliver h1.queue h1.buffer (by rwa [h1.stage]) hd)
      exact h2.trans (dispatched_setXfIdx h2.queue h2.buffer 0)

theorem dispatched_dispatch (q : QueueInv s) (b : BufferInv s) (hst : s.stage ≠ .idle) {addr : BitVec 7} {byte : Byte}
    {remaining : Half} {r : Half × State} (hr : dispatchByte addr byte remaining s = .ok r) : Dispatched s r.2 := by
  unfold dispatchByte at hr
  split at hr
  · cases hr
    exact .refl q b
  · exact dispatched_shtp q b hst hr

end Sys2Proof.Machine

/-! ## The inversion of a port operation

What leaves the engine alone (`Aside`), an accepted `ENQ` (`Accepted`), a received byte (`Received`), the arrows of the
engine (`Transition`), and the one case split over them (`PortStep`). -/

namespace Sys2Proof.Machine

variable {s t : State} {op : Instr} {i : Nat}

/-! ### Commands and events that leave the engine alone -/

/-- `t` differs from `s` at most in the callback table, `awaiting`, flags that are no repair flags, and a quiet output. -/
structure Aside (s t : State) : Prop where
  frame : t = { s with cbtab := t.cbtab, awaiting := t.awaiting, err := t.err, out := t.out }
  silent : t.out.bc = .none
  noRepair : flagSet t.err .reclaim = flagSet s.err .reclaim ∧ flagSet t.err .poolFatal = flagSet s.err .poolFatal
  bit7 : t.err.getLsbD 7 = s.err.getLsbD 7
  callbacks : CallbackInv s → CallbackInv t

theorem aside_of_awaiting (hf : t = { s with awaiting := t.awaiting, out := t.out }) (hbc : t.out.bc = .none) : Aside s t where
  frame := by rw [hf]
  silent := hbc
  noRepair := by rw [hf]; exact ⟨rfl, rfl⟩
  bit7 := by rw [hf]
  callbacks := fun c => by rw [hf]; exact { c with }

theorem aside_raise {k : ErrKind} (hk : k ≠ .reclaim ∧ k ≠ .poolFatal) (o : Output) (ho : o.bc = .none) :
    Aside s { s with err := s.err ||| errMask k, out := o } where
  frame := rfl
  silent := ho
  noRepair := by simp [flagSet_raise, hk.1, hk.2]
  bit7 := bit7_raise s.err k
  callbacks := fun c => { c with }

theorem aside_setKind (addr : BitVec 7) (k : Kind) : Aside s (s.beginStep.setKind addr k) where
  frame := rfl
  silent := rfl
  noRepair := ⟨rfl, rfl⟩
  bit7 := rfl
  callbacks := fun c => ⟨tableSet_wf c.wf _ k, tableSet_bound addr.isLt c.bound⟩

theorem Aside.inv (a : Aside s t) (h : s.Inv) : t.Inv := by
  have hc := a.callbacks h.callbackInv
  have hrep := a.noRepair
  have h7 := a.bit7
  rw [h.queueInv.noRepair.1, h.queueInv.noRepair.2] at hrep
  rw [h.errFlags.2.2] at h7
  rw [a.frame] at hc hrep h7 ⊢
  exact .of_parts { h.queueInv with noRepair := hrep } { h.bufferInv with } hc { h.engineInv with } h7

theorem aside_unexpected (s : State) : Aside s (unexpectedEvent s.beginStep) :=
  aside_raise (by decide) Output.quiet rfl

/-- A host command other than `ENQ` and `RESET` leaves the queue and the engine alone and raises no PROTO. -/
theorem hostCommand_aside (hop : isHostCommand op = true) (henq : ∀ d, op ≠ .enq d) (hreset : op ≠ .reset)
    (hx : exec op s = .next t) : Aside s t ∧ ProtoKept s.err t.err := by
  cases op with
  | enq d => exact absurd rfl (henq d)
  | reset => exact absurd rfl hreset
  | nop | size | status | awaitSet =>
    cases hx
    exact ⟨aside_of_awaiting rfl rfl, .refl _⟩
  | hcReserved opcode =>
    cases hx
    exact ⟨aside_raise (by decide) Output.quiet rfl, protoKept_raise _ (by decide)⟩
  | regcb addr kind =>
    cases hx
    split
    · exact ⟨aside_setKind addr .none, .refl _⟩
    · split
      · exact ⟨aside_setKind addr .shtp, .refl _⟩
      · exact ⟨aside_raise (by decide) Output.quiet rfl, protoKept_raise _ (by decide)⟩
  | _ => simp [isHostCommand] at hop

/-! ### An accepted ENQ -/

/-- What an accepted `ENQ` does (R136, R139, R141): the queue grows by one, an idle engine is kicked, and the live
descriptors stay. -/
structure Accepted (s t : State) : Prop where
  frame : t = { s with pool := t.pool, used := t.used, fifo := t.fifo, qCount := s.qCount + 1,
                       stage := if s.stage = .idle then .starting else s.stage, err := t.err, out := t.out }
  queue : QueueInv t
  bus : t.out.bc = if s.stage = .idle then .start else .none
  live : ∀ j ∈ liveSlots s, poolAt t j = poolAt s j
  proto : ProtoKept s.err t.err

theorem State.Inv.enq_cases (h : s.Inv) {d : Desc} (hx : exec (.enq d) s = .next t) :
    (Aside s t ∧ ProtoKept s.err t.err) ∨ Accepted s t := by
  have q : QueueInv s.beginStep := { h.queueInv with }
  have hx' : t = (enqueue d s.beginStep).2.respond (.accepted (enqueue d s.beginStep).1) := by
    cases hx
    rfl
  subst hx'
  rcases q.enqueue_cases d with ⟨-, he⟩ | ⟨hq, i, hi, he⟩
  · rw [he]
    exact .inl ⟨aside_raise (by decide) _ rfl, protoKept_raise _ (by decide)⟩
  · have hstable : ∀ j ∈ liveSlots s, poolAt (enqueue d s.beginStep).2 j = poolAt s j := fun j hj => ((q.enqueue d).2 j hj).2
    refine .inr ⟨?_, { (q.enqueue d).1 with }, ?_, hstable, q.protoKept_enqueue d⟩
    · rw [he, acceptDesc_clamped_eq]; rfl
    · rw [he, acceptDesc_clamped_eq]
      show (if s.stage = .idle then ({ Output.quiet with bc := .start } : Output) else Output.quiet).bc = _
      split
      · rfl
      · rfl

/-- Accepting keeps the engine's invariant: a busy engine does not move, an idle one has something to start. -/
theorem Accepted.inv (a : Accepted s t) (h : s.Inv) : t.Inv := by
  have h7 : t.err.getLsbD 7 = false := a.proto.2.trans h.errFlags.2.2
  have hb : BufferInv t := by rw [a.frame]; exact { h.bufferInv with }
  have hc : CallbackInv t := by rw [a.frame]; exact { h.callbackInv with }
  have hstage : t.stage = if s.stage = .idle then .starting else s.stage := congrArg State.stage a.frame
  have hcount : t.qCount = s.qCount + 1 := congrArg State.qCount a.frame
  have hactive : t.active = s.active := by rw [a.frame]
  refine .of_parts a.queue hb hc ?_ h7
  by_cases hst : s.stage = .idle
  · rw [if_pos hst] at hstage
    exact .of_starting hstage (by omega) (hactive.trans (h.idle hst).2)
  · rw [if_neg hst] at hstage
    have hpool : ∀ i, s.active = some i → poolAt t i = poolAt s i := fun i ha => a.live i (active_mem_live ha)
    have hbefore : beforeRead t ↔ beforeRead s := by rw [a.frame]; simp [beforeRead, hst]
    have hsub : t.sub = s.sub := by rw [a.frame]
    have hwidx : t.widx = s.widx := by rw [a.frame]
    have hrcount : t.rcount = s.rcount := by rw [a.frame]
    exact
      { idle := fun h0 => absurd (hstage.symm.trans h0) hst
        starting := fun h0 => ⟨by omega, by rw [hactive]; exact (h.starting (hstage.symm.trans h0)).2⟩
        busy := by rw [hstage, hactive]; exact h.busy
        counters := fun i ha => by
          rw [hactive] at ha
          rw [hwidx, hrcount, hpool i ha]
          exact h.counters i ha
        addressSub := by rw [hstage, hsub]; exact h.addressSub
        restartReads := fun h0 h1 i ha => by
          rw [hactive] at ha
          rw [hpool i ha]
          exact h.restartReads (hstage.symm.trans h0) (hsub ▸ h1) i ha
        notYetRead := by rw [hbefore, hrcount]; exact h.notYetRead
        readingLeft := fun h0 h1 i ha => by
          rw [hactive] at ha
          rw [hrcount, hpool i ha]
          exact h.readingLeft (hstage.symm.trans h0) (hsub.symm.trans h1) i ha }

/-! ### A received byte -/

/-- The state after a received byte has been counted and dispatched and the read length extended, before the acknowledge
(R185 to R187). -/
structure Received (s : State) (i : Nat) (v : State) : Prop where
  queue : QueueInv v
  buffer : BufferInv v
  stage : v.stage = .dataPhase
  sub : v.sub = .read
  active : v.active = some i
  widx : v.widx = s.widx
  rcount : v.rcount.toNat = s.rcount.toNat + 1
  cbtab : v.cbtab = s.cbtab
  others : ∀ j ∈ liveSlots s, j ≠ i → poolAt v j = poolAt s j
  desc : poolAt v i = { poolAt s i with rlen := (poolAt v i).rlen }
  grows : (poolAt s i).rlen ≤ (poolAt v i).rlen
  proto : ProtoKept s.err v.err

/-- Extending the read length of a slot's descriptor keeps the queue's invariants (R80, R187). -/
theorem QueueInv.setRlen (q : QueueInv s) (hi : i < s.cfg.nslot) (r : Half) :
    QueueInv (s.setPool i { poolAt s i with rlen := r }) :=
  { q with
    poolWf := tableSet_wf q.poolWf i _
    poolBound := tableSet_bound hi q.poolBound
    writeBuffer := fun j => by
      rw [poolAt_setPool q.poolWf]
      split
      · exact q.writeBuffer i
      · exact q.writeBuffer j }

theorem le_extendRlen (rlen add : Half) : rlen ≤ extendRlen rlen add := by
  rw [BitVec.le_def, extendRlen_toNat]
  have := rlen.isLt
  omega

/-- `EV_RX` in the read sub-phase: the byte is received, and acknowledged as the bytes still due say (R185, R188). -/
theorem State.Inv.receiveByte_cases (h : s.Inv) (hst : s.stage = .dataPhase) (hsub : s.sub = .read)
    (ha : s.active = some i) {b : Byte} (hx : receiveByte b i s.beginStep = .ok t) :
    ∃ v, Received s i v ∧ ((v.rcount < (poolAt v i).rlen ∧ t = v.emit .ackRx) ∨
      ((poolAt v i).rlen ≤ v.rcount ∧ t = State.emit { v with stage := .stopping } .nackStop)) := by
  have hlive := active_mem_live ha
  rw [receiveByte_of_lt (s := s.beginStep) (h.queueInv.live_lt hlive)] at hx
  cases hd : dispatchByte (poolAt s i).addr b (bytesRemaining (poolAt s i).rlen (nextRcount s.rcount))
      { s.beginStep with rcount := nextRcount s.rcount } with
  | error e =>
    cases (congrArg (Except.map _) hd).symm.trans hx
  | ok r =>
    obtain ⟨add, u⟩ := r
    have htu : acknowledge i add u = t := Except.ok.inj ((congrArg (Except.map _) hd).symm.trans hx)
    have du := dispatched_dispatch (s := { s.beginStep with rcount := nextRcount s.rcount }) { h.queueInv with }
      { h.bufferInv with } (by simp [hst]) hd
    have hui : u.active = some i := du.frame.active.trans ha
    have hpi : poolAt u i = poolAt s i := (du.live i hlive).2
    have hset := fun j => poolAt_setPool du.queue.poolWf i j
      { poolAt u i with rlen := extendRlen (poolAt u i).rlen add }
    refine ⟨u.setPool i { poolAt u i with rlen := extendRlen (poolAt u i).rlen add }, ?_, ?_⟩
    · exact
        { queue := du.queue.setRlen (du.queue.live_lt (active_mem_live hui)) _
          buffer := { du.buffer with }
          stage := du.stage.trans hst
          sub := du.frame.sub.trans hsub
          active := hui
          widx := du.frame.widx
          rcount := (congrArg BitVec.toNat du.frame.rcount).trans (nextRcount_toNat (h.readingLeft hst hsub i ha))
          cbtab := du.frame.cbtab
          others := fun j hj hji => by rw [hset, if_neg hji]; exact (du.live j hj).2
          desc := by rw [hset, if_pos rfl, hpi]
          grows := by rw [hset, if_pos rfl, hpi]; exact le_extendRlen _ _
          proto := du.proto }
    · rw [hset, if_pos rfl, ← htu]
      rcases acknowledge_cases i add u with ⟨hc, he⟩ | ⟨hc, he⟩
      · exact .inr ⟨hc, he⟩
      · exact .inl ⟨hc, he⟩

/-! ### The engine's transitions -/

/-- What an event that the position expects does under the invariants: one constructor per arrow of the engine (R27 to R33,
R170 to R190). -/
inductive Transition (s : State) : Instr → State → Prop where
  /-- The oldest queued transaction becomes active and its address is sent (R170, R171). -/
  | pop : s.stage = .starting → s.qCount ≠ 0 →
      Transition s .evStart (activate (fifoAt s s.qHead) (poolAt s (fifoAt s s.qHead))
        { s.beginStep with qHead := (s.qHead + 1) % s.cfg.qcap, qCount := s.qCount - 1 })
  /-- After a repeated start the address is sent again (R173). -/
  | resend (i : Nat) : s.stage = .dataPhase → s.sub = .reStart → s.active = some i →
      Transition s .evStart (resendAddressOf (poolAt s i) s.beginStep)
  /-- The next write byte (R176). -/
  | sendByte (i : Nat) (b : Byte) : s.active = some i → beforeRead s → s.sub = .write →
      s.widx.toNat < (poolAt s i).wlen.toNat →
      Transition s .evTxAck { s with stage := .dataPhase, widx := s.widx + 1, out := outBus (.tx b) }
  /-- Nothing more to write, something to read: a repeated start (R176). -/
  | repeatStart (i : Nat) : s.active = some i → beforeRead s → s.sub = .write → (poolAt s i).rlen ≠ 0 →
      Transition s .evTxAck { s with stage := .dataPhase, sub := .reStart, out := outBus .start }
  /-- The first byte is asked for (R177). -/
  | askByte (i : Nat) : s.active = some i → beforeRead s → (poolAt s i).rlen ≠ 0 →
      Transition s .evTxAck { s with stage := .dataPhase, sub := .read, out := outBus .rx }
  /-- Nothing to write and nothing to read: stop (R176, R177). -/
  | finish (i : Nat) : s.active = some i → beforeRead s →
      Transition s .evTxAck { s with stage := .stopping, out := outBus .stop }
  /-- A rejected byte aborts the transaction (R180). -/
  | abort (i : Nat) : s.active = some i →
      Transition s .evTxNack { s with err := s.err ||| errMask .nack, stage := .stopping, out := outBus .stop }
  /-- A received byte, with more due (R185). -/
  | acknowledge (i : Nat) (b : Byte) (v : State) : s.stage = .dataPhase → s.sub = .read → s.active = some i →
      Received s i v → v.rcount < (poolAt v i).rlen → Transition s (.evRx b) (v.emit .ackRx)
  /-- The last byte (R188). -/
  | refuse (i : Nat) (b : Byte) (v : State) : s.stage = .dataPhase → s.sub = .read → s.active = some i →
      Received s i v → (poolAt v i).rlen ≤ v.rcount →
      Transition s (.evRx b) (State.emit { v with stage := .stopping } .nackStop)
  /-- The transaction is over: the next one, or Idle (R190). -/
  | retire (i : Nat) : s.stage = .stopping → s.active = some i →
      Transition s .evStop (restartOrIdle { s.beginStep.setUsed i false with active := none })

theorem outcomeOf_ok {r : Except Fault State} (h : outcomeOf r = .next t) : r = .ok t := by
  cases r with
  | error e => cases h
  | ok u => cases h; rfl

theorem withActive_result {u : State} {f : Desc → State → State} (q : QueueInv u) (ha : u.active = some i)
    (hx : outcomeOf (withActive f u) = .next t) : t = f (poolAt u i) u := by
  rw [withActive_live q ha] at hx
  cases hx
  rfl

/-- `EV_TX_ACK` at a position that expects it (R175 to R177). -/
theorem State.Inv.ack_transition (h : s.Inv) (he : expectedAt s.stage s.sub .evTxAck = true)
    (hx : exec .evTxAck s = .next t) : Transition s .evTxAck t := by
  have hpos := expectedAt_evTxAck.1 he
  have hbusy : s.stage = .addressPhase ∨ s.stage = .dataPhase ∨ s.stage = .stopping := by
    rcases hpos with ⟨hst, -⟩ | ⟨hst, -⟩ <;> simp [hst]
  obtain ⟨i, ha⟩ := h.engineInv.exists_active hbusy
  have hbefore : beforeRead s := by
    rcases hpos with ⟨hst, -⟩ | ⟨hst, hsub | hsub⟩
    · exact .inl hst
    · exact .inr ⟨hst, by simp [hsub]⟩
    · exact .inr ⟨hst, by simp [hsub]⟩
  rw [exec_evTxAck_expected he (by simp [ha])] at hx
  have ht := withActive_result (u := { s.beginStep with stage := .dataPhase }) { h.queueInv with } ha hx
  unfold ackRule at ht
  split at ht
  · next hsub =>
    rcases writeNextOf_cases (poolAt s i) { s.beginStep with stage := .dataPhase } with
      ⟨b, -, hlt, he⟩ | ⟨-, hlen, he⟩ | ⟨-, -, he⟩
    · cases ht.trans he
      exact .sendByte i b ha hbefore hsub hlt
    · cases ht.trans he
      exact .repeatStart i ha hbefore hsub hlen
    · cases ht.trans he
      exact .finish i ha hbefore
  · rcases beginReadOf_cases (poolAt s i) { s.beginStep with stage := .dataPhase } with ⟨-, he⟩ | ⟨hlen, he⟩
    · cases ht.trans he
      exact .finish i ha hbefore
    · cases ht.trans he
      exact .askByte i ha hbefore hlen

/-- Every expected event is one of the engine's transitions. -/
theorem State.Inv.transition (h : s.Inv) (hop : isEvent op = true) (he : expectedAt s.stage s.sub op = true)
    (hx : exec op s = .next t) : Transition s op t := by
  cases op with
  | evStart =>
    rcases expectedAt_evStart.1 he with hst | ⟨hst, hsub⟩
    · have hq : s.qCount ≠ 0 := Nat.one_le_iff_ne_zero.1 (h.starting hst).1
      have hlt := h.queueInv.live_lt (List.mem_append_right _ (head_queued h.queueInv hq))
      rw [exec_evStart_starting hst, startNext_pop (s := s.beginStep) hq hlt] at hx
      cases hx
      exact .pop hst hq
    · obtain ⟨i, ha⟩ := h.engineInv.exists_active (.inr (.inl hst))
      rw [exec_evStart_reStart hst hsub] at hx
      cases withActive_result (u := s.beginStep) { h.queueInv with } ha hx
      exact .resend i hst hsub ha
  | evTxAck => exact h.ack_transition he hx
  | evTxNack =>
    have hbusy : s.stage = .addressPhase ∨ s.stage = .dataPhase ∨ s.stage = .stopping := by
      rcases expectedAt_evTxNack.1 he with hst | ⟨hst, -⟩ <;> simp [hst]
    obtain ⟨i, ha⟩ := h.engineInv.exists_active hbusy
    rw [exec_evTxNack_expected he] at hx
    cases hx
    exact .abort i ha
  | evRx b =>
    obtain ⟨hst, hsub⟩ := expectedAt_evRx.1 he
    obtain ⟨i, ha⟩ := h.engineInv.exists_active (.inr (.inl hst))
    rw [exec_evRx_reading hst hsub ha] at hx
    obtain ⟨v, hv, ⟨hlt, rfl⟩ | ⟨hle, rfl⟩⟩ := h.receiveByte_cases hst hsub ha (outcomeOf_ok hx)
    · exact .acknowledge i b v hst hsub ha hv hlt
    · exact .refuse i b v hst hsub ha hv hle
  | evStop =>
    have hst := expectedAt_evStop.1 he
    obtain ⟨i, ha⟩ := h.engineInv.exists_active (.inr (.inr hst))
    rw [exec_evStop_stopping hst] at hx
    rcases retire_cases s.beginStep with ⟨hn, -⟩ | ⟨j, hj, -, hr⟩ | ⟨j, hj, hle, -⟩
    · cases ha.symm.trans hn
    · cases ha.symm.trans hj
      rw [hr] at hx
      cases hx
      exact .retire i hst ha
    · cases ha.symm.trans hj
      exact absurd (h.activeInPool i ha) (Nat.not_lt.2 hle)
  | evReserved code => simp [expectedAt_evReserved] at he
  | _ => simp [isEvent] at hop

/-! ### One inversion for the operations of a port -/

/-- All a port operation other than `RESET` can do under the invariants. -/
inductive PortStep (s : State) (op : Instr) (t : State) : Prop where
  /-- A host command that leaves queue and engine alone, a declined `ENQ` included. -/
  | command : isHostCommand op = true → Aside s t → ProtoKept s.err t.err → PortStep s op t
  | accepted (d : Desc) : op = .enq d → Accepted s t → PortStep s op t
  | unexpected : isEvent op = true → expectedAt s.stage s.sub op = false → t = unexpectedEvent s.beginStep →
      PortStep s op t
  | expected : isEvent op = true → expectedAt s.stage s.sub op = true → Transition s op t → PortStep s op t

theorem State.Inv.portStep (h : s.Inv) (hop : isPortOp op = true) (hreset : op ≠ .reset) (hx : exec op s = .next t) :
    PortStep s op t := by
  rcases Bool.or_eq_true_iff.1 hop with hc | hev
  · by_cases henq : ∃ d, op = .enq d
    · obtain ⟨d, rfl⟩ := henq
      rcases h.enq_cases hx with ⟨ha, hp⟩ | ha
      · exact .command rfl ha hp
      · exact .accepted d rfl ha
    · obtain ⟨ha, hp⟩ := hostCommand_aside hc (fun d hd => henq ⟨d, hd⟩) hreset hx
      exact .command hc ha hp
  · cases he : expectedAt s.stage s.sub op with
    | true => exact .expected hev he (h.transition hev he hx)
    | false =>
      rw [exec_of_unexpected hev he] at hx
      cases hx
      exact .unexpected hev he rfl

/-- No operation is both a host command and an event (R90). -/
theorem isEvent_of_hostCommand (hop : isHostCommand op = true) : isEvent op = false := by
  cases op <;> simp_all [isHostCommand, isEvent]

end Sys2Proof.Machine

/-! ## The statements about steps

Each is a case split over `PortStep` and `Transition` (10_state.md R26, R33, R49). -/

namespace Sys2Proof.Machine

variable {s t : State} {op : Instr} {i : Nat}

/-! ### Every step keeps the invariants -/

/-- The pop moves the oldest queued slot to the engine: the live slots stay the same (R25, R134, R170). -/
theorem QueueInv.pop (q : QueueInv s) (hq : s.qCount ≠ 0) (ha : s.active = none) (d : Desc) :
    QueueInv (activate (fifoAt s s.qHead) d
      { s.beginStep with qHead := (s.qHead + 1) % s.cfg.qcap, qCount := s.qCount - 1 }) := by
  have hlive : liveSlots (activate (fifoAt s s.qHead) d
      { s.beginStep with qHead := (s.qHead + 1) % s.cfg.qcap, qCount := s.qCount - 1 }) = liveSlots s := by
    rw [show liveSlots s = queuedSlots s by simp [liveSlots, ha], queuedSlots_deq hq, Nat.mod_eq_of_lt q.headRange]
    rfl
  exact
    { q with
      headRange := Nat.mod_lt _ q.cfgValid.1
      countRange := (Nat.sub_le _ _).trans q.countRange
      distinct := by rw [hlive]; exact q.distinct
      owned := fun j => by rw [hlive]; exact q.owned j }

theorem liveSlots_active (ha : s.active = some i) : liveSlots s = i :: queuedSlots s := by
  simp [liveSlots, ha]

/-- The active slot is in no queue (I5). -/
theorem QueueInv.active_not_queued (q : QueueInv s) (ha : s.active = some i) : i ∉ queuedSlots s := by
  have := q.distinct
  rw [liveSlots_active ha] at this
  exact (List.nodup_cons.1 this).1

/-- The release of the active slot leaves the queued slots live (R135, R190). -/
theorem QueueInv.retire (q : QueueInv s) (ha : s.active = some i) :
    QueueInv { s.beginStep.setUsed i false with active := none } := by
  have hi := q.live_lt (active_mem_live ha)
  have hni := q.active_not_queued ha
  have hlive : liveSlots { s.beginStep.setUsed i false with active := none } = queuedSlots s := rfl
  exact
    { q with
      usedWf := tableSet_wf q.usedWf i _
      usedBound := tableSet_bound hi q.usedBound
      distinct := by
        have := q.distinct
        rw [liveSlots_active ha] at this
        exact (List.nodup_cons.1 this).2
      owned := fun j => by
        have hu := usedAt_setUsed q.usedWf i j false
        rw [hlive, show usedAt { s.beginStep.setUsed i false with active := none } j = _ from hu]
        by_cases hj : j = i
        · simp [hj, hni]
        · rw [if_neg hj, q.owned j, liveSlots_active ha, List.mem_cons, or_iff_right hj] }

theorem Received.wlen_eq {v : State} (r : Received s i v) : (poolAt v i).wlen = (poolAt s i).wlen := by
  rw [r.desc]
  rfl

/-- The counters of I7 after a received byte. -/
theorem Received.widx_le {v : State} (r : Received s i v) (h : s.Inv) (ha : s.active = some i) :
    v.widx.toNat ≤ (poolAt v i).wlen.toNat := by
  rw [r.widx, r.wlen_eq]
  exact (h.counters i ha).1

theorem Received.rcount_le {v : State} (r : Received s i v) (h : s.Inv) (ha : s.active = some i)
    (hst : s.stage = .dataPhase) (hsub : s.sub = .read) : v.rcount ≤ (poolAt v i).rlen := by
  have hlt : s.rcount.toNat < (poolAt s i).rlen.toNat := h.readingLeft hst hsub i ha
  have hgrow : (poolAt s i).rlen.toNat ≤ (poolAt v i).rlen.toNat := r.grows
  rw [BitVec.le_def, r.rcount]
  omega

theorem Received.callbackInv {v : State} (r : Received s i v) (h : s.Inv) : CallbackInv v :=
  ⟨by rw [r.cbtab]; exact h.callbackInv.wf, by rw [r.cbtab]; exact h.callbackInv.bound⟩

/-- BusNack (R180) is none of the flags the invariants speak of (I8, R47). -/
theorem State.Inv.noRepair_nack (h : s.Inv) :
    (flagSet (s.err ||| errMask .nack) .reclaim = false ∧ flagSet (s.err ||| errMask .nack) .poolFatal = false)
      ∧ (s.err ||| errMask .nack).getLsbD 7 = false :=
  ⟨by simp [flagSet_raise, h.errFlags], (bit7_raise s.err .nack).trans h.errFlags.2.2⟩

/-- Every transition of the engine keeps the invariants. -/
theorem Transition.inv (tr : Transition s op t) (h : s.Inv) : t.Inv := by
  have q := h.queueInv
  have b := h.bufferInv
  have c := h.callbackInv
  have h7 := h.errFlags.2.2
  cases tr with
  | pop hst hq =>
    refine .of_parts (q.pop hq (h.starting hst).2 _) { b with } { c with } ?_ h7
    refine .of_addressPhase rfl rfl (Nat.zero_le _) rfl ?_
    show subOfDir _ = _ ∨ subOfDir _ = _
    cases firstDir (poolAt s (fifoAt s s.qHead))
    · exact .inl rfl
    · exact .inr rfl
  | resend i hst hsub ha =>
    refine .of_parts { q with } { b with } { c with } ?_ h7
    exact .of_beforeRead hst ha (h.counters i ha).1 (h.notYetRead (.inr ⟨hst, by simp [hsub]⟩))
      (.inr ⟨nofun, h.restartReads hst (.inl hsub) i ha⟩)
  | sendByte i byte ha hbefore hsub hlt =>
    refine .of_parts { q with } { b with } { c with } ?_ h7
    refine .of_beforeRead rfl ha ?_ (h.notYetRead hbefore) (.inl hsub)
    show (s.widx + 1).toNat ≤ (poolAt s i).wlen.toNat
    rw [BitVec.toNat_add]
    exact (Nat.mod_le _ _).trans hlt
  | repeatStart i ha hbefore hsub hlen =>
    refine .of_parts { q with } { b with } { c with } ?_ h7
    exact .of_beforeRead rfl ha (h.counters i ha).1 (h.notYetRead hbefore) (.inr ⟨nofun, hlen⟩)
  | askByte i ha hbefore hlen =>
    refine .of_parts { q with } { b with } { c with } ?_ h7
    refine .of_reading rfl rfl ha (h.counters i ha).1 ?_
    show s.rcount < (poolAt s i).rlen
    rw [h.notYetRead hbefore, BitVec.lt_def]
    exact Nat.pos_of_ne_zero fun h0 => hlen (BitVec.eq_of_toNat_eq h0)
  | finish i ha hbefore =>
    refine .of_parts { q with } { b with } { c with } ?_ h7
    exact .of_stopping rfl ha (h.counters i ha).1 (h.counters i ha).2
  | abort i ha =>
    refine .of_parts { q with noRepair := h.noRepair_nack.1 } { b with } { c with } ?_ h.noRepair_nack.2
    exact .of_stopping rfl ha (h.counters i ha).1 (h.counters i ha).2
  | acknowledge i byte v hst hsub ha r hlt =>
    refine .of_parts { r.queue with } { r.buffer with } { r.callbackInv h with } ?_ (r.proto.2.trans h7)
    exact .of_reading r.stage r.sub r.active (r.widx_le h ha) hlt
  | refuse i byte v hst hsub ha r hle =>
    refine .of_parts { r.queue with } { r.buffer with } { r.callbackInv h with } ?_ (r.proto.2.trans h7)
    exact .of_stopping rfl r.active (r.widx_le h ha) (r.rcount_le h ha hst hsub)
  | retire i hst ha =>
    have q' := q.retire ha
    rcases restartOrIdle_cases { s.beginStep.setUsed i false with active := none } with ⟨hq, he⟩ | ⟨hq, he⟩
    · rw [he]
      exact .of_parts { q' with } { b with } { c with } (.of_starting rfl hq rfl) h7
    · rw [he]
      exact .of_parts { q' with } { b with } { c with } (.of_idle rfl hq rfl) h7

/-- A port operation keeps the invariants. -/
theorem State.Inv.exec (h : s.Inv) (hop : isPortOp op = true) (hx : exec op s = .next t) : t.Inv := by
  by_cases hreset : op = .reset
  · subst hreset
    cases hx
    exact { inv_resetWith h.cfgValid with }
  · cases h.portStep hop hreset hx with
    | command _ a _ => exact a.inv h
    | accepted d _ a => exact a.inv h
    | unexpected _ _ ht => exact ht ▸ (aside_unexpected s).inv h
    | expected _ _ tr => exact tr.inv h

/-! ### A step runs port operations only -/

theorem isHostCommand_of_decodeHc {bytes rest : List Byte} (hd : decodeHc bytes = .ok (op, rest)) :
    isHostCommand op = true := by
  have henq : ∀ bs, decodeEnq bs = .ok (op, rest) → isHostCommand op = true := fun bs h => by
    unfold decodeEnq at h
    split at h
    · split at h
      · cases h; rfl
      · cases h
    · cases h
  have hregcb : ∀ bs, decodeRegcb bs = .ok (op, rest) → isHostCommand op = true := fun bs h => by
    unfold decodeRegcb at h
    split at h
    · cases h; rfl
    · cases h
  cases bytes with
  | nil => cases hd
  | cons code bs =>
    unfold decodeHc at hd
    simp only at hd
    split_ifs at hd
    · cases hd; rfl
    · exact henq bs hd
    · exact hregcb bs hd
    all_goals (cases hd; rfl)

theorem isEvent_of_decodeEv {w : PortWord} (hd : decodeEv w = .ok op) : isEvent op = true := by
  unfold decodeEv at hd
  simp only at hd
  split_ifs at hd
  all_goals (cases hd; rfl)

/-- Settles O45: the input is consumed, which the invariants do not see, and a port operation keeps them. -/
theorem stepKeepsInv : Obligations.StepKeepsInv := by
  intro s t h hx
  cases hin : s.inbox with
  | nil =>
    rw [step_of_fetch_none (fetch_nil hin)] at hx
    cases hx
    exact { h with }
  | cons input more =>
    cases input with
    | hc bytes =>
      cases hd : decodeHc bytes with
      | error e =>
        rw [step_of_fetch_error (fetch_hc_error hin hd)] at hx
        cases hx
      | ok r =>
        obtain ⟨op, rest⟩ := r
        rw [step_of_fetch (fetch_hc hin hd)] at hx
        have h' : State.Inv { s with inbox := afterCommand rest more } := { h with }
        exact h'.exec (by simp [isPortOp, isHostCommand_of_decodeHc hd]) hx
    | ev w =>
      cases hd : decodeEv w with
      | error e =>
        rw [step_of_fetch_none (fetch_ev_idle hin hd)] at hx
        cases hx
        exact { h with }
      | ok op =>
        rw [step_of_fetch (fetch_ev hin hd)] at hx
        have h' : State.Inv { s with inbox := more } := { h with }
        exact h'.exec (by simp [isPortOp, isEvent_of_decodeEv hd]) hx

/-! ### PROTO marks a broken handshake -/

/-- An expected event raises no PROTO. -/
theorem Transition.protoKept (tr : Transition s op t) : ProtoKept s.err t.err := by
  cases tr with
  | pop | resend | sendByte | repeatStart | askByte | finish => exact .refl _
  | abort => exact protoKept_raise _ (by decide)
  | acknowledge i byte v _ _ _ r | refuse i byte v _ _ _ r => exact r.proto
  | retire i =>
    rcases restartOrIdle_cases { s.beginStep.setUsed i false with active := none } with ⟨-, he⟩ | ⟨-, he⟩
    · rw [he]; exact .refl _
    · rw [he]; exact .refl _

/-- Settles O48: of the four things a port operation can do, only the unexpected event raises PROTO. -/
theorem protoMarksBrokenHandshake : Obligations.ProtoMarksBrokenHandshake := by
  intro op s t h hop hreset hx
  cases h.portStep hop hreset hx with
  | command hc _ hp => rw [hp.1, isEvent_of_hostCommand hc]; simp
  | accepted d hd a => subst hd; rw [a.proto.1]; simp [isEvent]
  | unexpected hev he ht => subst ht; simp [unexpectedEvent, flagSet_raise, hev, he]
  | expected hev he tr => rw [tr.protoKept.1]; simp [he]

/-! ### One bus command is outstanding -/

/-- A transition emits the command its new position has outstanding, or ends in Idle (R33). -/
theorem Transition.outstanding (tr : Transition s op t) :
    (t.out.bc ≠ .none ∧ outstandingAt t.stage t.sub t.out.bc = true) ∨ (t.out.bc = .none ∧ t.stage = .idle) := by
  cases tr with
  | pop | repeatStart | askByte | finish | abort | refuse => exact .inl ⟨nofun, rfl⟩
  | resend i hst =>
    refine .inl ⟨nofun, ?_⟩
    show outstandingAt s.stage .reAddr _ = true
    rw [hst]
    rfl
  | sendByte i byte ha hbefore hsub =>
    refine .inl ⟨nofun, ?_⟩
    show outstandingAt .dataPhase s.sub _ = true
    rw [hsub]
    rfl
  | acknowledge i byte v _ _ _ r =>
    refine .inl ⟨nofun, ?_⟩
    show outstandingAt v.stage v.sub _ = true
    rw [r.stage, r.sub]
    rfl
  | retire i =>
    rcases restartOrIdle_cases { s.beginStep.setUsed i false with active := none } with ⟨-, he⟩ | ⟨-, he⟩
    · rw [he]
      exact .inl ⟨nofun, rfl⟩
    · rw [he]
      exact .inr ⟨rfl, rfl⟩

theorem Aside.position (a : Aside s t) : t.stage = s.stage ∧ t.sub = s.sub := by
  rw [a.frame]
  exact ⟨rfl, rfl⟩

/-- An accepted `ENQ` commands a start for an idle engine, which then has it outstanding, and else nothing (R141). -/
theorem Accepted.outstanding (a : Accepted s t) :
    (s.stage = .idle ∧ t.out.bc = .start ∧ t.stage = .starting) ∨
    (t.out.bc = .none ∧ t.stage = s.stage ∧ t.sub = s.sub) := by
  have hbus := a.bus
  have hstage : t.stage = if s.stage = .idle then .starting else s.stage := congrArg State.stage a.frame
  split_ifs at hbus hstage with hst
  · exact .inl ⟨hst, hbus, hstage⟩
  · exact .inr ⟨hbus, hstage, by rw [a.frame]⟩

/-- Settles O49: the commands come from the transitions and from the idle kick alone. -/
theorem oneCommandOutstanding : Obligations.OneCommandOutstanding := by
  intro op s t h hop hreset hx
  cases h.portStep hop hreset hx with
  | command _ a _ => exact ⟨.inr ⟨a.silent, .inl a.position⟩, fun hbc => absurd a.silent hbc⟩
  | accepted d hd a =>
    rcases a.outstanding with ⟨hidle, hbc, hst⟩ | ⟨hbc, hpos⟩
    · rw [hbc, hst]
      exact ⟨.inl ⟨nofun, rfl⟩, fun _ => .inr ⟨⟨d, hd⟩, hidle⟩⟩
    · exact ⟨.inr ⟨hbc, .inl hpos⟩, fun hne => absurd hbc hne⟩
  | unexpected _ _ ht =>
    have a : Aside s t := ht ▸ aside_unexpected s
    exact ⟨.inr ⟨a.silent, .inl a.position⟩, fun hbc => absurd a.silent hbc⟩
  | expected hev he tr =>
    refine ⟨?_, fun _ => .inl ⟨hev, he⟩⟩
    rcases tr.outstanding with hout | ⟨hbc, hidle⟩
    · exact .inl hout
    · exact .inr ⟨hbc, .inr hidle⟩

/-! ### Live descriptors -/

/-- A live descriptor is as before, or it is the active one and a received byte has extended its `rlen` (R80, R187). -/
def LiveKept (s : State) (op : Instr) (t : State) (j : Nat) : Prop :=
  poolAt t j = poolAt s j ∨
    ((∃ b, op = .evRx b) ∧ s.stage = .dataPhase ∧ s.sub = .read ∧ s.active = some j
      ∧ poolAt t j = { poolAt s j with rlen := (poolAt t j).rlen } ∧ (poolAt s j).rlen ≤ (poolAt t j).rlen)

/-- What a received byte does to a live descriptor, whatever the acknowledge after it. -/
theorem Received.liveKept {v : State} (r : Received s i v) (hst : s.stage = .dataPhase) (hsub : s.sub = .read)
    (ha : s.active = some i) (b : Byte) {j : Nat} (hj : j ∈ liveSlots s) : LiveKept s (.evRx b) v j := by
  by_cases hji : j = i
  · subst hji
    exact .inr ⟨⟨b, rfl⟩, hst, hsub, ha, r.desc, r.grows⟩
  · exact .inl (r.others j hj hji)

theorem Transition.liveKept (tr : Transition s op t) {j : Nat} (hj : j ∈ liveSlots s) : LiveKept s op t j := by
  cases tr with
  | pop | resend | sendByte | repeatStart | askByte | finish | abort => exact .inl rfl
  | acknowledge i b v hst hsub ha r | refuse i b v hst hsub ha r => exact r.liveKept hst hsub ha b hj
  | retire i =>
    rcases restartOrIdle_cases { s.beginStep.setUsed i false with active := none } with ⟨-, he⟩ | ⟨-, he⟩
    · rw [he]
      exact .inl rfl
    · rw [he]
      exact .inl rfl

theorem Aside.poolAt (a : Aside s t) (j : Nat) : poolAt t j = poolAt s j := by
  rw [a.frame]
  rfl

theorem PortStep.liveKept (p : PortStep s op t) {j : Nat} (hj : j ∈ liveSlots s) : LiveKept s op t j := by
  cases p with
  | command _ a _ => exact .inl (a.poolAt j)
  | accepted d _ a => exact .inl (a.live j hj)
  | unexpected _ _ ht => exact .inl (ht ▸ (aside_unexpected s).poolAt j)
  | expected _ _ tr => exact tr.liveKept hj

/-- Settles O50: the one descriptor that changes is the active one, and the active slot is not queued. -/
theorem liveDescriptorsAreStable : Obligations.LiveDescriptorsAreStable := by
  intro op s t j h hop hreset hx
  have hp := h.portStep hop hreset hx
  refine ⟨fun hj => ?_, fun ha => ?_⟩
  · rcases hp.liveKept (List.mem_append_right _ hj) with hsame | ⟨-, -, -, ha, -⟩
    · exact hsame
    · exact absurd hj (h.queueInv.active_not_queued ha)
  · rcases hp.liveKept (active_mem_live ha) with hsame | ⟨hrx, hst, hsub, -, hdesc, hgrow⟩
    · rw [hsame]
      exact ⟨rfl, BitVec.le_refl _, fun hne => absurd rfl hne⟩
    · exact ⟨hdesc, hgrow, fun _ => ⟨hrx, hst, hsub⟩⟩

end Sys2Proof.Machine

/-! ## The memory's statement

Who writes what (20_memory.md R75, 70_reset_and_hazards.md R322): what no operation but `REGCB` and `RESET` writes
(`SettingsKept`), what a host command leaves alone (`HostFrame`), and when a host command moves the engine. -/

namespace Sys2Proof.Machine

variable {s t : State} {op : Instr}

/-! ### The configuration, the pending inputs and the callback table -/

/-- `t` has the configuration, the pending inputs and the callback table of `s`. -/
structure SettingsKept (s t : State) : Prop where
  cfg : t.cfg = s.cfg
  inbox : t.inbox = s.inbox
  cbtab : t.cbtab = s.cbtab

theorem SettingsKept.trans {u : State} (h1 : SettingsKept s t) (h2 : SettingsKept t u) : SettingsKept s u :=
  ⟨h2.cfg.trans h1.cfg, h2.inbox.trans h1.inbox, h2.cbtab.trans h1.cbtab⟩

/-- What an operation keeps of the state its step begins from, it keeps: only the output is cleared there. -/
theorem SettingsKept.of_beginStep (h : SettingsKept s.beginStep t) : SettingsKept s t := ⟨h.cfg, h.inbox, h.cbtab⟩

theorem QueueFrame.settingsKept (f : QueueFrame s t) : SettingsKept s t := ⟨f.cfg, f.inbox, f.cbtab⟩

theorem FramingFrame.settingsKept (f : FramingFrame s t) : SettingsKept s t := ⟨f.cfg, f.inbox, f.cbtab⟩

theorem DispatchFrame.settingsKept (f : DispatchFrame s t) : SettingsKept s t := ⟨f.cfg, f.inbox, f.cbtab⟩

theorem settingsKept_alloc (s : State) : SettingsKept s (alloc s).2 := by
  rcases alloc_cases s with ⟨i, -, -, -, h⟩ | ⟨-, h⟩ <;> rw [h] <;> exact ⟨rfl, rfl, rfl⟩

theorem settingsKept_deq (s : State) : SettingsKept s (deq s).2 := by
  by_cases h : s.qCount = 0
  · rw [deq_empty s h]; exact ⟨rfl, rfl, rfl⟩
  · rw [deq_some s h]; exact ⟨rfl, rfl, rfl⟩

theorem settingsKept_release {i : Nat} (h : release i s = .ok t) : SettingsKept s t := by
  rcases release_cases s i with ⟨-, he⟩ | ⟨-, he⟩
  · cases he.symm.trans h; exact ⟨rfl, rfl, rfl⟩
  · cases he.symm.trans h

theorem settingsKept_writeNextOf (d : Desc) (s : State) : SettingsKept s (writeNextOf d s) := by
  rcases writeNextOf_cases d s with ⟨b, -, -, h⟩ | ⟨-, -, h⟩ | ⟨-, -, h⟩ <;> rw [h] <;> exact ⟨rfl, rfl, rfl⟩

theorem settingsKept_beginReadOf (d : Desc) (s : State) : SettingsKept s (beginReadOf d s) := by
  rcases beginReadOf_cases d s with ⟨-, h⟩ | ⟨-, h⟩ <;> rw [h] <;> exact ⟨rfl, rfl, rfl⟩

theorem settingsKept_ackRule (sub : SubPhase) (d : Desc) (s : State) : SettingsKept s (ackRule sub d s) := by
  unfold ackRule
  split
  · exact settingsKept_writeNextOf d s
  · exact settingsKept_beginReadOf d s

/-- A rule on the active transaction keeps what it keeps on every descriptor. -/
theorem settingsKept_withActive {f : Desc → State → State} (hf : ∀ d, SettingsKept s (f d s))
    (h : withActive f s = .ok t) : SettingsKept s t := by
  rcases withActive_cases f s with ⟨-, he⟩ | ⟨i, -, -, he⟩ | ⟨i, -, -, he⟩
  · cases he.symm.trans h; exact ⟨rfl, rfl, rfl⟩
  · cases he.symm.trans h; exact hf _
  · cases he.symm.trans h

theorem settingsKept_startNext (h : startNext s = .ok t) : SettingsKept s t := by
  by_cases hq : s.qCount = 0
  · cases (startNext_empty hq).symm.trans h; exact ⟨rfl, rfl, rfl⟩
  · rcases Nat.lt_or_ge (fifoAt s s.qHead) s.cfg.nslot with hi | hi
    · cases (startNext_pop hq hi).symm.trans h; exact ⟨rfl, rfl, rfl⟩
    · cases (startNext_missing hq hi).symm.trans h

theorem settingsKept_acknowledge (i : Nat) (add : Half) (s : State) : SettingsKept s (acknowledge i add s) := by
  rcases acknowledge_cases i add s with ⟨-, h⟩ | ⟨-, h⟩ <;> rw [h] <;> exact ⟨rfl, rfl, rfl⟩

/-- A received byte is dispatched and acknowledged (R185). -/
theorem settingsKept_receiveByte {b : Byte} {i : Nat} (h : receiveByte b i s = .ok t) : SettingsKept s t := by
  rcases Nat.lt_or_ge i s.cfg.nslot with hi | hi
  · rw [receiveByte_of_lt hi] at h
    cases hd : dispatchByte (poolAt s i).addr b (bytesRemaining (poolAt s i).rlen (nextRcount s.rcount))
        { s with rcount := nextRcount s.rcount } with
    | error f => rw [hd] at h; cases h
    | ok r =>
      rw [hd] at h
      cases h
      have hdispatch := (dispatchFrame_dispatch hd).settingsKept
      exact SettingsKept.trans ⟨hdispatch.cfg, hdispatch.inbox, hdispatch.cbtab⟩ (settingsKept_acknowledge i r.1 r.2)
  · cases (receiveByte_missing hi b).symm.trans h

theorem settingsKept_restartOrIdle (s : State) : SettingsKept s (restartOrIdle s) := by
  rcases restartOrIdle_cases s with ⟨-, h⟩ | ⟨-, h⟩ <;> rw [h] <;> exact ⟨rfl, rfl, rfl⟩

/-- The release of the active slot and what follows it (R190). -/
theorem settingsKept_stop (h : (retire s).map restartOrIdle = .ok t) : SettingsKept s t := by
  rcases retire_cases s with ⟨-, he⟩ | ⟨i, -, -, he⟩ | ⟨i, -, -, he⟩
  · rw [he] at h; cases h; exact settingsKept_restartOrIdle s
  · have hk := settingsKept_restartOrIdle { s.setUsed i false with active := none }
    rw [he] at h; cases h; exact ⟨hk.cfg, hk.inbox, hk.cbtab⟩
  · rw [he] at h; cases h

/-- A completion event, expected or not. -/
theorem settingsKept_event (hop : isEvent op = true) (hx : exec op s = .next t) : SettingsKept s t := by
  cases he : expectedAt s.stage s.sub op with
  | false => cases (exec_of_unexpected hop he).symm.trans hx; exact ⟨rfl, rfl, rfl⟩
  | true =>
    cases op with
    | evStart =>
      rcases expectedAt_evStart.1 he with hst | ⟨hst, hsub⟩
      · rw [exec_evStart_starting hst] at hx
        exact (settingsKept_startNext (outcomeOf_ok hx)).of_beginStep
      · rw [exec_evStart_reStart hst hsub] at hx
        exact (settingsKept_withActive (fun d => ⟨rfl, rfl, rfl⟩) (outcomeOf_ok hx)).of_beginStep
    | evTxAck =>
      by_cases ha : s.active = none
      · cases (exec_evTxAck_none ha).symm.trans hx; exact ⟨rfl, rfl, rfl⟩
      · rw [exec_evTxAck_expected he ha] at hx
        have hk := settingsKept_withActive (settingsKept_ackRule s.sub · _) (outcomeOf_ok hx)
        exact ⟨hk.cfg, hk.inbox, hk.cbtab⟩
    | evTxNack => cases (exec_evTxNack_expected he).symm.trans hx; exact ⟨rfl, rfl, rfl⟩
    | evRx b =>
      obtain ⟨hst, hsub⟩ := expectedAt_evRx.1 he
      cases ha : s.active with
      | none => cases (exec_evRx_none ha b).symm.trans hx; exact ⟨rfl, rfl, rfl⟩
      | some i =>
        rw [exec_evRx_reading hst hsub ha] at hx
        exact (settingsKept_receiveByte (outcomeOf_ok hx)).of_beginStep
    | evStop =>
      rw [exec_evStop_stopping (expectedAt_evStop.1 he)] at hx
      exact (settingsKept_stop (outcomeOf_ok hx)).of_beginStep
    | evReserved code => simp [expectedAt_evReserved] at he
    | _ => simp [isEvent] at hop

theorem outcomeOfAdd_ok {r : Except Fault (Half × State)} (h : outcomeOfAdd r = .next t) :
    ∃ p, r = .ok p ∧ t = p.2.returnValue (.add p.1) := by
  cases r with
  | error f => cases h
  | ok p => cases h; exact ⟨p, rfl, rfl⟩

/-- Every operation but `REGCB`, which writes the callback table, and `RESET`, which clears it. -/
theorem settingsKept_exec (hregcb : ∀ addr kind, op ≠ .regcb addr kind) (hreset : op ≠ .reset)
    (hx : exec op s = .next t) : SettingsKept s t := by
  cases op with
  | regcb addr kind => exact absurd rfl (hregcb addr kind)
  | reset => exact absurd rfl hreset
  | nop | awaitSet | size | status | hcReserved | reclaim | push
  | bcNone | bcStart | bcTx | bcRx | bcAckRx | bcNackStop | bcStop =>
    cases hx
    exact ⟨rfl, rfl, rfl⟩
  | enq d =>
    cases hx
    exact SettingsKept.trans (queueFrame_enqueue s.beginStep d).settingsKept.of_beginStep ⟨rfl, rfl, rfl⟩
  | evStart | evTxAck | evTxNack | evRx | evStop | evReserved => exact settingsKept_event rfl hx
  | bcReserved => cases hx
  | alloc =>
    cases hx
    exact (settingsKept_alloc s.beginStep).of_beginStep.trans ⟨rfl, rfl, rfl⟩
  | deq =>
    cases hx
    exact (settingsKept_deq s.beginStep).of_beginStep.trans ⟨rfl, rfl, rfl⟩
  | release slot => exact (settingsKept_release (outcomeOf_ok hx)).of_beginStep
  | writeNext => exact (settingsKept_withActive (settingsKept_writeNextOf · _) (outcomeOf_ok hx)).of_beginStep
  | beginRead => exact (settingsKept_withActive (settingsKept_beginReadOf · _) (outcomeOf_ok hx)).of_beginStep
  | dispatch addr b remaining =>
    obtain ⟨p, hp, rfl⟩ := outcomeOfAdd_ok hx
    exact (dispatchFrame_dispatch hp).settingsKept.of_beginStep.trans ⟨rfl, rfl, rfl⟩
  | shtpCb b remaining =>
    obtain ⟨p, hp, rfl⟩ := outcomeOfAdd_ok hx
    exact (dispatchFrame_shtp hp).settingsKept.of_beginStep.trans ⟨rfl, rfl, rfl⟩
  | store b =>
    cases hx
    exact (framingFrame_storeByte s.beginStep b).settingsKept.of_beginStep
  | deliver => exact (dispatchFrame_deliver (outcomeOf_ok hx)).settingsKept.of_beginStep

/-! ### What a host command leaves alone -/

/-- `t` differs from `s` at most in the fields host commands other than `RESET` write (R75). -/
def HostFrame (s t : State) : Prop :=
  t = { s with pool := t.pool, used := t.used, fifo := t.fifo, qCount := t.qCount, stage := t.stage, cbtab := t.cbtab,
               awaiting := t.awaiting, err := t.err, out := t.out }

theorem HostFrame.cfg_inbox (f : HostFrame s t) : t.cfg = s.cfg ∧ t.inbox = s.inbox := by
  unfold HostFrame at f
  rw [f]
  exact ⟨rfl, rfl⟩

theorem Aside.hostFrame (a : Aside s t) : HostFrame s t := by
  unfold HostFrame
  rw [a.frame]

theorem QueueFrame.hostFrame (f : QueueFrame s.beginStep t) (r : Response) : HostFrame s (t.respond r) := by
  unfold HostFrame
  rw [f.eq]
  rfl

/-- What `ENQ` leaves alone (R136). -/
theorem hostFrame_enq {d : Desc} (hx : exec (.enq d) s = .next t) : HostFrame s t := by
  cases hx
  exact (queueFrame_enqueue s.beginStep d).hostFrame _

theorem hostFrame_exec (hop : isHostCommand op = true) (hreset : op ≠ .reset) (hx : exec op s = .next t) :
    HostFrame s t := by
  by_cases henq : ∃ d, op = .enq d
  · obtain ⟨d, rfl⟩ := henq
    exact hostFrame_enq hx
  · exact (hostCommand_aside hop (fun d hd => henq ⟨d, hd⟩) hreset hx).1.hostFrame

/-- No operation writes the configuration or the pending inputs: `RESET` keeps both (log entries 1, 2 and 27). -/
theorem exec_cfg_inbox (hx : exec op s = .next t) : t.cfg = s.cfg ∧ t.inbox = s.inbox := by
  by_cases hreset : op = .reset
  · subst hreset
    cases hx
    exact ⟨rfl, rfl⟩
  · by_cases hregcb : ∃ addr kind, op = .regcb addr kind
    · obtain ⟨addr, kind, rfl⟩ := hregcb
      exact (hostFrame_exec rfl hreset hx).cfg_inbox
    · have hk := settingsKept_exec (fun addr kind h => hregcb ⟨addr, kind, h⟩) hreset hx
      exact ⟨hk.cfg, hk.inbox⟩

/-! ### The engine's stage and `awaiting` -/

/-- Accepting a descriptor moves the engine only by the idle kick (R141). -/
theorem acceptDesc_stage_of_ne (d : Desc) (i : Nat) (h : (acceptDesc d i s).stage ≠ s.stage) :
    s.stage = .idle ∧ (acceptDesc d i s).stage = .starting := by
  rw [acceptDesc_eq] at h ⊢
  by_cases hst : s.stage = .idle
  · exact ⟨hst, if_pos hst⟩
  · exact absurd (if_neg hst) h

/-- `ENQ` moves the engine only from Idle to Starting (R136, R141). -/
theorem enqueue_stage_of_ne (d : Desc) (h : (enqueue d s).2.stage ≠ s.stage) :
    s.stage = .idle ∧ (enqueue d s).2.stage = .starting := by
  rcases enqueue_cases s d with ⟨-, he⟩ | ⟨-, -, he⟩ | ⟨-, -, he⟩
  · exact absurd (by rw [he]) h
  · exact absurd (by rw [he]; rfl) h
  · have hn : (noteClamp d s).stage = s.stage := by rw [noteClamp_eq]
    rw [he, ← hn] at h ⊢
    generalize noteClamp d s = u at h ⊢
    rcases allocAndAccept_cases u (clampDesc s.cfg d) with ⟨i, -, ha⟩ | ⟨-, -, i, -, ha⟩ | ⟨-, -, ha⟩
    · rw [ha] at h ⊢; exact acceptDesc_stage_of_ne (s := u.setUsed i true) _ i h
    · rw [ha] at h ⊢; exact acceptDesc_stage_of_ne (s := (reclaim u).setUsed i true) _ i h
    · exact absurd (by rw [ha]) h

/-- Of the host commands other than `RESET`, only `ENQ` moves the engine. -/
theorem hostCommand_stage_of_ne (hop : isHostCommand op = true) (hreset : op ≠ .reset) (hx : exec op s = .next t)
    (h : t.stage ≠ s.stage) : (∃ d, op = .enq d) ∧ s.stage = .idle ∧ t.stage = .starting := by
  by_cases henq : ∃ d, op = .enq d
  · refine ⟨henq, ?_⟩
    obtain ⟨d, rfl⟩ := henq
    cases hx
    exact enqueue_stage_of_ne (s := s.beginStep) d h
  · have ha := (hostCommand_aside hop (fun d hd => henq ⟨d, hd⟩) hreset hx).1
    exact absurd ha.position.1 h

/-- Of the host commands other than `RESET`, only `AWAIT_SET` writes `awaiting` (R240). -/
theorem hostCommand_awaiting_of_ne (hop : isHostCommand op = true) (hreset : op ≠ .reset) (hx : exec op s = .next t)
    (h : t.awaiting ≠ s.awaiting) : op = .awaitSet := by
  cases op with
  | awaitSet => rfl
  | reset => exact absurd rfl hreset
  | nop | size | status | hcReserved => cases hx; exact absurd rfl h
  | enq d => cases hx; exact absurd (enqueue_awaiting s.beginStep d) h
  | regcb addr kind =>
    refine absurd ?_ h
    cases hx
    split
    · rfl
    · split <;> rfl
  | _ => simp [isHostCommand] at hop

/-- Settles O54: the settings by a case per operation, the rest from what leaves the engine alone and from all an `ENQ` can
write. -/
theorem singleWriter : Obligations.SingleWriter := by
  intro op s t hx
  obtain ⟨hcfg, hinbox⟩ := exec_cfg_inbox hx
  refine ⟨hcfg, hinbox, fun hev => (settingsKept_event hev hx).cbtab, fun hop hreset =>
    ⟨hostFrame_exec hop hreset hx, fun henq => ?_, hostCommand_stage_of_ne hop hreset hx, fun hne => ?_,
      hostCommand_awaiting_of_ne hop hreset hx⟩⟩
  · rw [(hostCommand_aside hop henq hreset hx).1.frame]
    exact ⟨rfl, rfl, rfl, rfl⟩
  · by_contra hregcb
    exact hne (settingsKept_exec (fun addr kind h => hregcb ⟨addr, kind, h⟩) hreset hx).cbtab

end Sys2Proof.Machine

/-! ## The encoding

What each decoder answers, one equation per row of its table (30_encoding.md R91 to R107, R117), and the statements about
them: the decoders undo the encoders, and a decoded host command is as long as its bytes say. -/

namespace Sys2Proof

/-! ### The operands of a host command -/

/-- `ENQ` takes as many write bytes as byte 1 says, before any clamp (R92). -/
theorem decodeEnq_append {b1 : Byte} {ws : List Byte} (hlen : ws.length = b1.toNat) (b0 b2 b3 : Byte) (rest : List Byte)
    (hfits : ws.length ≤ 255) :
    decodeEnq (b0 :: b1 :: b2 :: b3 :: (ws ++ rest)) =
      .ok (.enq { addr := b0.extractLsb' 1 7, dir := Dir.ofBit (b0.extractLsb' 0 1), rlen := halfOfBytes b2 b3
                  wdata := ws, wlenFits := hfits }, rest) := by
  simp [decodeEnq, ← hlen]

/-- `ENQ` decodes only from a DESC with all its write bytes (R117). -/
theorem exists_of_decodeEnq {bytes rest : List Byte} {i : Instr} (hd : decodeEnq bytes = .ok (i, rest)) :
    ∃ (b0 b1 b2 b3 : Byte) (ws : List Byte) (d : Desc),
      bytes = b0 :: b1 :: b2 :: b3 :: (ws ++ rest) ∧ ws.length = b1.toNat ∧ i = .enq d := by
  unfold decodeEnq at hd
  split at hd
  · next b0 b1 b2 b3 tail =>
    split at hd
    · next hle =>
      cases hd
      exact ⟨b0, b1, b2, b3, tail.take b1.toNat, _, by rw [List.take_append_drop], List.length_take_of_le hle, rfl⟩
    · cases hd
  · cases hd

/-- `REGCB` decodes only from its two operand bytes (R117). -/
theorem exists_of_decodeRegcb {bytes rest : List Byte} {i : Instr} (hd : decodeRegcb bytes = .ok (i, rest)) :
    ∃ (aa kk : Byte) (addr : BitVec 7) (kind : BitVec 2), bytes = aa :: kk :: rest ∧ i = .regcb addr kind := by
  unfold decodeRegcb at hd
  split at hd
  · next aa kk tail =>
    cases hd
    exact ⟨aa, kk, _, _, rfl, rfl⟩
  · cases hd

theorem ofBit_eq_read_iff : ∀ b : BitVec 1, Dir.ofBit b = .read ↔ b.toNat = 1 := by decide

/-- The direction of the DESC is read exactly for an odd byte 0 (R91, R94). -/
theorem descDir_eq_read_iff (b : Byte) : Dir.ofBit (b.extractLsb' 0 1) = .read ↔ b.toNat % 2 = 1 := by
  rw [ofBit_eq_read_iff, BitVec.extractLsb'_toNat, Nat.shiftRight_zero, Nat.pow_one]

/-- The target address of the DESC is the rest of byte 0 (R91). -/
theorem descAddr_toNat (b : Byte) : (b.extractLsb' 1 7).toNat = b.toNat / 2 := by
  have := b.isLt
  rw [BitVec.extractLsb'_toNat, Nat.shiftRight_eq_div_pow]
  omega

/-! ### The opcode of a host command -/

theorem decodeHc_enq (bytes : List Byte) : decodeHc (0x01 :: bytes) = decodeEnq bytes := rfl

theorem decodeHc_regcb (bytes : List Byte) : decodeHc (0x02 :: bytes) = decodeRegcb bytes := rfl

/-- The opcodes without a row of their own are those from 7 on (R105). -/
theorem seven_le_opcode_iff (op : Byte) :
    7 ≤ op.toNat ↔ op ≠ 0x00 ∧ op ≠ 0x01 ∧ op ≠ 0x02 ∧ op ≠ 0x03 ∧ op ≠ 0x04 ∧ op ≠ 0x05 ∧ op ≠ 0x06 := by
  constructor
  · intro h
    refine ⟨?_, ?_, ?_, ?_, ?_, ?_, ?_⟩ <;> (rintro rfl; exact absurd h (by decide))
  · intro h
    bv_omega

theorem decodeHc_reserved {op : Byte} (hop : 7 ≤ op.toNat) (rest : List Byte) :
    decodeHc (op :: rest) = .ok (.hcReserved op, rest) := by
  obtain ⟨h0, h1, h2, h3, h4, h5, h6⟩ := (seven_le_opcode_iff op).1 hop
  simp only [decodeHc, h0, h1, h2, h3, h4, h5, h6, if_false]

/-- A decoded host command is an `ENQ`, a `REGCB`, or the opcode alone; the latter is well formed. -/
theorem decodeHc_cases {op : Byte} {bytes rest : List Byte} {i : Instr} (hd : decodeHc (op :: bytes) = .ok (i, rest)) :
    (op = 0x01 ∧ decodeEnq bytes = .ok (i, rest)) ∨ (op = 0x02 ∧ decodeRegcb bytes = .ok (i, rest))
    ∨ (op ≠ 0x01 ∧ op ≠ 0x02 ∧ rest = bytes ∧ ∀ c : Config, i.wf c = true) := by
  by_cases h1 : op = 0x01
  · subst h1
    exact .inl ⟨rfl, (decodeHc_enq bytes).symm.trans hd⟩
  by_cases h2 : op = 0x02
  · subst h2
    exact .inr (.inl ⟨rfl, (decodeHc_regcb bytes).symm.trans hd⟩)
  refine .inr (.inr ⟨h1, h2, ?_⟩)
  by_cases hop : 7 ≤ op.toNat
  · rw [decodeHc_reserved hop] at hd
    cases hd
    exact ⟨rfl, fun c => decide_eq_true hop⟩
  · simp only [decodeHc, h1, h2, if_false] at hd
    split_ifs at hd with h0 h3 h4 h5 h6
    case neg => exact absurd ((seven_le_opcode_iff op).2 ⟨h0, h1, h2, h3, h4, h5, h6⟩) hop
    all_goals (cases hd; exact ⟨rfl, fun _ => rfl⟩)

/-! ### The decoders undo the encoders -/

/-- The DESC bytes of a descriptor, then any bytes (R91). -/
theorem decodeEnq_descBytes (d : Desc) (rest : List Byte) : decodeEnq (descBytes d ++ rest) = .ok (.enq d, rest) := by
  have hlen : d.wdata.length = d.wlen.toNat := (Machine.wlen_toNat d).symm
  have := decodeEnq_append hlen (d.addr ++ d.dir.bit) (lowByte d.rlen) (highByte d.rlen) rest d.wlenFits
  simpa [descBytes] using this

theorem decodeRegcb_operands (addr : BitVec 7) (kind : BitVec 2) (rest : List Byte) :
    decodeRegcb ((0#1 ++ addr) :: (0#6 ++ kind) :: rest) = .ok (.regcb addr kind, rest) := by
  simp only [decodeRegcb, extract_low]

/-- The host command bytes of an operation, then any bytes (R91, R105, R107). -/
theorem decodeHc_of_encodeIn {c : Config} {i : Instr} (hwf : i.wf c = true) {bytes : List Byte}
    (he : encodeIn i = some (.hc bytes)) (rest : List Byte) : decodeHc (bytes ++ rest) = .ok (i, rest) := by
  cases i with
  | nop | awaitSet | size | status | reset => cases he; rfl
  | enq d =>
    cases he
    exact (decodeHc_enq _).trans (decodeEnq_descBytes d rest)
  | regcb addr kind =>
    cases he
    exact (decodeHc_regcb _).trans (decodeRegcb_operands addr kind rest)
  | hcReserved op =>
    cases he
    exact decodeHc_reserved (of_decide_eq_true hwf) rest
  | _ => cases he

/-- The codes without a row of their own are those from 6 on (R97). -/
theorem decodeEv_reserved {w : PortWord} (hw : 6 ≤ (wordCode w).toNat) : decodeEv w = .ok (.evReserved (wordCode w)) := by
  have hne : ∀ k : BitVec 3, k.toNat < 6 → wordCode w ≠ k := by
    rintro k hk rfl
    omega
  simp only [decodeEv, hne 0b000 (by decide), hne 0b001 (by decide), hne 0b010 (by decide), hne 0b011 (by decide),
    hne 0b100 (by decide), hne 0b101 (by decide), if_false]

/-- The EV word of an operation (R97). -/
theorem decodeEv_of_encodeIn {c : Config} {i : Instr} (hwf : i.wf c = true) {w : PortWord}
    (he : encodeIn i = some (.ev w)) : decodeEv w = .ok i := by
  cases i with
  | evStart | evTxAck | evTxNack | evStop => cases he; rfl
  | evRx b =>
    cases he
    simp [decodeEv]
  | evReserved code =>
    cases he
    rw [decodeEv_reserved (by rw [wordCode_portWord]; exact of_decide_eq_true hwf), wordCode_portWord]
  | _ => cases he

/-- The BC word of an operation (R100). -/
theorem decodeBc_of_encodeBc {i : Instr} {w : PortWord} (he : encodeBc i = some w) : decodeBc w = i := by
  cases i with
  | bcNone | bcStart | bcRx | bcAckRx | bcNackStop | bcStop | bcReserved => cases he; rfl
  | bcTx d =>
    cases he
    simp [decodeBc]
  | _ => cases he

/-- Settles O39: a format at a time, by cases on the operation; a reserved opcode or code is told from the others by its
well-formedness. -/
theorem decodeEncode : Obligations.DecodeEncode := fun _ _ rest hwf =>
  ⟨fun _ he => decodeHc_of_encodeIn hwf he rest, fun _ he => decodeEv_of_encodeIn hwf he,
    fun _ he => decodeBc_of_encodeBc he⟩

/-- Settles O40: the descriptor is the one the four bytes and the write bytes name, field by field. -/
theorem enqOperandAssembly : Obligations.EnqOperandAssembly := by
  intro b0 b1 b2 b3 ws rest hlen
  have hfits : ws.length ≤ 255 := by have := b1.isLt; omega
  refine ⟨_, (decodeHc_enq _).trans (decodeEnq_append hlen b0 b2 b3 rest hfits), descAddr_toNat b0,
    descDir_eq_read_iff b0, halfOfBytes_toNat b2 b3, rfl, BitVec.eq_of_toNat_eq ?_⟩
  rw [Machine.wlen_toNat]
  exact hlen

/-! ### The length of a host command (R117) -/

theorem hcLength_enq (b0 b1 : Byte) (bytes : List Byte) : hcLength (0x01 :: b0 :: b1 :: bytes) = 5 + b1.toNat := rfl

theorem hcLength_regcb (aa kk : Byte) (bytes : List Byte) : hcLength (0x02 :: aa :: kk :: bytes) = 3 := rfl

theorem hcLength_opcode {op : Byte} (h1 : op ≠ 0x01) (h2 : op ≠ 0x02) (bytes : List Byte) : hcLength (op :: bytes) = 1 := by
  match bytes with
  | [] | [_] => rfl
  | _ :: _ :: _ => simp only [hcLength, h1, h2, if_false]

/-- Settles O41: for each of the three shapes of a host command, what it takes and its length. -/
theorem decodedCommandLength : Obligations.DecodedCommandLength := by
  intro bytes rest i hd
  cases bytes with
  | nil => cases hd
  | cons op bytes =>
    rcases decodeHc_cases hd with ⟨rfl, he⟩ | ⟨rfl, he⟩ | ⟨h1, h2, rfl, hwf⟩
    · obtain ⟨b0, b1, b2, b3, ws, d, rfl, hlen, rfl⟩ := exists_of_decodeEnq he
      refine ⟨⟨0x01 :: b0 :: b1 :: b2 :: b3 :: ws, rfl, ?_⟩, fun _ => rfl⟩
      rw [hcLength_enq, ← hlen]
      simp only [List.length_cons]
      omega
    · obtain ⟨aa, kk, addr, kind, rfl, rfl⟩ := exists_of_decodeRegcb he
      exact ⟨⟨[0x02, aa, kk], rfl, rfl⟩, fun _ => rfl⟩
    · exact ⟨⟨[op], rfl, (hcLength_opcode h1 h2 rest).symm⟩, hwf⟩

/-- Settles O42: each word is what the encoder writes for its operation, so O39's lemmas decode it. -/
theorem specWordsDecode : Obligations.SpecWordsDecode :=
  have hc : ∀ {i : Instr} {bytes : List Byte}, i.wf Config.testT = true → encodeIn i = some (.hc bytes) →
      decodeHc bytes = .ok (i, []) := fun {_ bytes} hwf he => by
    rw [← List.append_nil bytes]
    exact decodeHc_of_encodeIn hwf he []
  ⟨hc rfl (by decide), hc rfl (by decide), hc rfl (by decide),
    decodeEv_of_encodeIn (c := Config.testT) rfl (by decide), decodeEv_of_encodeIn (c := Config.testT) rfl (by decide),
    decodeBc_of_encodeBc (by decide), decodeBc_of_encodeBc (by decide)⟩

end Sys2Proof

/-! ## The bus

The bus commands as operations (41_engine_events.md R161 to R167), and the write and the read portion of a transaction as an
observer sees them (20_memory.md R83, 30_encoding.md R103). -/

namespace Sys2Proof.Machine

variable {s t : State} {i : Nat}

/-! ### Bus commands as operations -/

theorem emitOnly_eq (c : BusCommand) (s : State) : emitOnly c s = .next { s with out := outBus c } := rfl

/-- Settles O36: each of the seven meanings is `emitOnly` of its command, and the words are closed. -/
theorem busCommandsAreEmissions : Obligations.BusCommandsAreEmissions := fun s d =>
  ⟨⟨emitOnly_eq .none s, by decide⟩, ⟨emitOnly_eq .start s, by decide⟩, ⟨emitOnly_eq (.tx d) s, rfl⟩,
    ⟨emitOnly_eq .rx s, by decide⟩, ⟨emitOnly_eq .ackRx s, by decide⟩, ⟨emitOnly_eq .nackStop s, by decide⟩,
    ⟨emitOnly_eq .stop s, by decide⟩⟩

/-- The code of a bus command's word is its row of the code map, at most 6 (R100). -/
theorem wordCode_busWord_lt (c : BusCommand) : (wordCode (busWord c)).toNat < 7 := by
  cases c with
  | tx d => rw [busWord, wordCode_portWord]; decide
  | none | start | rx | ackRx | nackStop | stop => decide

/-- Settles O37: the refusal is the operation's whole meaning, and `0b111` is above every code of the map. -/
theorem reservedBusCommandRefused : Obligations.ReservedBusCommandRefused :=
  ⟨fun _ => rfl, fun c h => absurd (wordCode_busWord_lt c) (by rw [h]; decide)⟩

/-! ### Runs of operations that complete -/

theorem runOps_cons {op : Instr} (hx : exec op s = .next t) (ops : List Instr) :
    runOps (op :: ops) s = runOps ops t := by
  simp only [runOps, hx]

theorem runOutputs_cons {op : Instr} (hx : exec op s = .next t) (ops : List Instr) :
    runOutputs (op :: ops) s = t.out :: runOutputs ops t := by
  simp only [runOutputs, hx]

/-- Steps that each only emit a bus command are observed as those commands (R83). -/
theorem observation_map_outBus {cs : List BusCommand} (hcs : .none ∉ cs) :
    observation (cs.map outBus) = { bus := cs, responses := [], frames := [] } := by
  have hbus : ((cs.map outBus).map Output.bc).filter (fun c => decide (c ≠ .none)) = cs := by
    rw [List.map_map, show Output.bc ∘ outBus = id from rfl, List.map_id]
    exact List.filter_eq_self.2 fun c hc => decide_eq_true fun h => hcs (h ▸ hc)
  have hresp : (cs.map outBus).filterMap Output.resp = [] := by simp [outBus, Output.quiet]
  have hframe : (cs.map outBus).filterMap Output.frame = [] := by simp [outBus, Output.quiet]
  rw [observation, hbus, hresp, hframe]

/-! ### The write portion -/

/-- The engine is sending the write bytes of the transaction in pool slot `i`: its last byte, the address byte or a write
byte, is on the bus (R28, R176). -/
structure Writing (s : State) (i : Nat) : Prop where
  stage : s.stage = .addressPhase ∨ s.stage = .dataPhase
  sub : s.sub = .write
  active : s.active = some i
  inPool : i < s.cfg.nslot

/-- `EV_TX_ACK` while writing is `WRITE_NEXT` in DataPhase (R175). -/
theorem Writing.exec_evTxAck (w : Writing s i) :
    exec .evTxAck s = .next (writeNextOf (poolAt s i) { s.beginStep with stage := .dataPhase }) := by
  have he : expectedAt s.stage s.sub .evTxAck = true :=
    expectedAt_evTxAck.2 (w.stage.imp (fun h => ⟨h, .inl w.sub⟩) fun h => ⟨h, .inl w.sub⟩)
  rw [exec_evTxAck_expected he (by simp [w.active]),
    withActive_some (s := { s.beginStep with stage := .dataPhase }) w.active w.inPool, ackRule, if_pos w.sub]
  rfl

/-- With a byte left, it goes out and the engine is still writing (R176). -/
theorem Writing.sends (w : Writing s i) {b : Byte} (hb : (poolAt s i).wdata[s.widx.toNat]? = some b) :
    exec .evTxAck s = .next { s with stage := .dataPhase, widx := s.widx + 1, out := outBus (.tx b) }
    ∧ Writing { s with stage := .dataPhase, widx := s.widx + 1, out := outBus (.tx b) } i := by
  refine ⟨?_, .inr rfl, w.sub, w.active, w.inPool⟩
  rw [w.exec_evTxAck, writeNextOf]
  simp only [beginStep_widx, hb]
  rfl

/-- With none left, the bus command is the repeated start of a read or the stop (R176). -/
theorem Writing.ends (w : Writing s i) (hb : (poolAt s i).wdata[s.widx.toNat]? = none) :
    ∃ u, exec .evTxAck s = .next u ∧ u.out = outBus (if (poolAt s i).rlen = 0 then .stop else .start) := by
  rw [w.exec_evTxAck]
  refine ⟨_, rfl, ?_⟩
  rcases writeNextOf_cases (poolAt s i) { s.beginStep with stage := .dataPhase } with
    ⟨b, hsome, -⟩ | ⟨-, hr, he⟩ | ⟨-, hr, he⟩
  · exact absurd (hb.symm.trans hsome) (by simp)
  · rw [he, if_neg hr]; rfl
  · rw [he, if_pos hr]; rfl

/-- The bus commands of the write portion of `d` from write byte `k` on (R103). -/
def writeCommands (d : Desc) (k : Nat) : List BusCommand :=
  (d.wdata.drop k).map .tx ++ [if d.rlen = 0 then .stop else .start]

theorem none_not_mem_writeCommands (d : Desc) (k : Nat) : .none ∉ writeCommands d k := by
  have htx : .none ∉ (d.wdata.drop k).map BusCommand.tx := by
    intro h
    obtain ⟨b, -, hb⟩ := List.mem_map.1 h
    cases hb
  unfold writeCommands
  split
  · simpa using htx
  · simpa using htx

theorem writeCommands_of_lt {d : Desc} {k : Nat} (hk : k < d.wdata.length) :
    writeCommands d k = .tx d.wdata[k] :: writeCommands d (k + 1) := by
  rw [writeCommands, List.drop_eq_getElem_cons hk]
  rfl

theorem writeCommands_of_le {d : Desc} {k : Nat} (hk : d.wdata.length ≤ k) :
    writeCommands d k = [if d.rlen = 0 then .stop else .start] := by
  rw [writeCommands, List.drop_of_length_le hk]
  rfl

/-- An acknowledge for each of the `n` write bytes left and one more: the bytes go out in order, then what ends the portion. -/
theorem Writing.runOutputs_acks : ∀ {n : Nat} {s : State}, Writing s i →
    s.widx.toNat + n = (poolAt s i).wdata.length →
    runOutputs (List.replicate (n + 1) .evTxAck) s = (writeCommands (poolAt s i) s.widx.toNat).map outBus
  | 0, s, w, hn => by
    obtain ⟨u, hx, hout⟩ := w.ends (List.getElem?_eq_none (by omega))
    rw [List.replicate_succ, runOutputs_cons hx, hout, writeCommands_of_le (by omega)]
    rfl
  | n + 1, s, w, hn => by
    have hlt : s.widx.toNat < (poolAt s i).wdata.length := by omega
    obtain ⟨hx, w'⟩ := w.sends (List.getElem?_eq_getElem hlt)
    have hfits := (poolAt s i).wlenFits
    have hnext : (s.widx + 1).toNat = s.widx.toNat + 1 := by
      rw [BitVec.toNat_add, show (1 : BitVec 8).toNat = 1 from rfl]
      omega
    have ih := w'.runOutputs_acks (n := n) (show (s.widx + 1).toNat + n = (poolAt s i).wdata.length by omega)
    rw [List.replicate_succ, runOutputs_cons hx, ih, writeCommands_of_lt hlt, ← hnext]
    rfl

/-- Settles O56: the run's outputs are the commands of the write portion from its first byte, and none is `BC_NONE`. -/
theorem writeSendsItsBytes : Obligations.WriteSendsItsBytes := by
  intro s i hst hsub ha hi hw
  have w : Writing s i := ⟨.inl hst, hsub, ha, hi⟩
  have hwidx : s.widx.toNat = 0 := by rw [hw]; rfl
  rw [observeOps, wlen_toNat, w.runOutputs_acks (by omega), observation_map_outBus (none_not_mem_writeCommands _ _), hwidx]
  rfl

/-! ### The read portion without a callback -/

/-- The engine is receiving bytes for the transaction in pool slot `i`, whose address has no callback (R28, R214). The pool
is in canonical form. -/
structure PlainReading (s : State) (i : Nat) : Prop where
  poolWf : tableWf Desc.zero s.pool = true
  stage : s.stage = .dataPhase
  sub : s.sub = .read
  active : s.active = some i
  inPool : i < s.cfg.nslot
  noCallback : kindAt s (poolAt s i).addr = .none

theorem poolWf_of_tablesWf (h : tablesWf s = true) : tableWf Desc.zero s.pool = true := by
  simp only [tablesWf, Bool.and_eq_true] at h
  obtain ⟨⟨⟨⟨hpool, -⟩, -⟩, -⟩, -⟩ := h
  exact hpool

theorem dispatchByte_none {addr : BitVec 7} (hk : kindAt s addr = .none) (b : Byte) (remaining : Half) :
    dispatchByte addr b remaining s = .ok (0, s) := by
  simp only [dispatchByte, hk]

/-- Extending the read length by nothing leaves the pool alone (R187). -/
theorem setPool_extendRlen_zero (hw : tableWf Desc.zero s.pool = true) (i : Nat) :
    s.setPool i { poolAt s i with rlen := extendRlen (poolAt s i).rlen 0 } = s := by
  rw [extendRlen_zero]
  show { s with pool := tableSet Desc.zero s.pool i (tableGet Desc.zero s.pool i) } = s
  rw [tableSet_get_self i hw]

/-- A callback that asks for nothing leaves the test for the last byte (R187, R188). -/
theorem acknowledge_zero (hw : tableWf Desc.zero s.pool = true) (i : Nat) :
    acknowledge i 0 s =
      if (poolAt s i).rlen ≤ s.rcount then State.emit { s with stage := .stopping } .nackStop else s.emit .ackRx := by
  have hcases := acknowledge_cases i 0 s
  simp only [setPool_extendRlen_zero hw] at hcases
  rw [extendRlen_zero] at hcases
  rcases hcases with ⟨hlast, he⟩ | ⟨hmore, he⟩
  · rw [he, if_pos hlast]
  · rw [he, if_neg (BitVec.not_le.2 hmore)]

/-- A received byte is counted and goes nowhere else (R185, R188, R214). -/
theorem PlainReading.exec_evRx (r : PlainReading s i) (hdue : s.rcount.toNat < (poolAt s i).rlen.toNat) (b : Byte) :
    exec (.evRx b) s = .next
      (if (poolAt s i).rlen ≤ s.rcount + 1 then
        { s with rcount := s.rcount + 1, stage := .stopping, out := outBus .nackStop }
      else { s with rcount := s.rcount + 1, out := outBus .ackRx }) := by
  have hmax := (poolAt s i).rlen.isLt
  rw [exec_evRx_reading r.stage r.sub r.active, receiveByte_of_lt (s := s.beginStep) r.inPool, beginStep_rcount,
    nextRcount_lt (by omega), dispatchByte_none (by exact r.noCallback)]
  exact congrArg Host.Outcome.next (acknowledge_zero (s := { s.beginStep with rcount := s.rcount + 1 }) r.poolWf i)

/-- The bus commands of a read portion of `n` bytes, the request for the first not among them (R103). -/
def readCommands (n : Nat) : List BusCommand := List.replicate (n - 1) .ackRx ++ [.nackStop]

/-- The bytes still due: all but the last are acknowledged, the last ends the transaction (R103, R188). -/
theorem PlainReading.run_bytes : ∀ {bs : List Byte} {s : State}, PlainReading s i → bs ≠ [] →
    s.rcount.toNat + bs.length = (poolAt s i).rlen.toNat →
    runOps (bs.map .evRx) s =
        .next { s with rcount := (poolAt s i).rlen, stage := .stopping, out := outBus .nackStop }
    ∧ runOutputs (bs.map .evRx) s = (readCommands bs.length).map outBus
  | [], _, _, hne, _ => absurd rfl hne
  | b :: bs, s, r, _, hn => by
    rw [List.length_cons] at hn
    have hmax := (poolAt s i).rlen.isLt
    have hx := r.exec_evRx (by omega) b
    have hnext : (s.rcount + 1).toNat = s.rcount.toNat + 1 := by
      rw [BitVec.toNat_add, show (1 : Half).toNat = 1 from rfl]
      omega
    cases bs with
    | nil =>
      have hlast : (poolAt s i).rlen = s.rcount + 1 := BitVec.eq_of_toNat_eq (hn.symm.trans hnext.symm)
      rw [if_pos (BitVec.le_of_eq hlast)] at hx
      rw [List.map_cons, runOps_cons hx, runOutputs_cons hx, hlast]
      exact ⟨rfl, rfl⟩
    | cons b' bs =>
      rw [List.length_cons] at hn
      rw [if_neg (by rw [BitVec.le_def, hnext]; omega)] at hx
      have r' : PlainReading { s with rcount := s.rcount + 1, out := outBus .ackRx } i := { r with }
      obtain ⟨hrun, houts⟩ := r'.run_bytes (List.cons_ne_nil b' bs)
        (show (s.rcount + 1).toNat + (b' :: bs).length = (poolAt s i).rlen.toNat by rw [List.length_cons]; omega)
      rw [List.map_cons, runOps_cons hx, runOutputs_cons hx]
      exact ⟨hrun, congrArg (outBus .ackRx :: ·) houts⟩

/-- Settles O57: the run from the first byte, and none of its commands is `BC_NONE`. -/
theorem readReceivesItsBytes : Obligations.ReadReceivesItsBytes := by
  intro s i bs hwf hst hsub ha hi hr hk hne hlen
  have r : PlainReading s i := ⟨poolWf_of_tablesWf hwf, hst, hsub, ha, hi, hk⟩
  obtain ⟨hrun, houts⟩ := r.run_bytes hne (by rw [hr, hlen]; exact Nat.zero_add _)
  refine ⟨hrun, ?_⟩
  rw [observeOps, houts, observation_map_outBus (by simp [readCommands])]
  rfl

end Sys2Proof.Machine

/-! ## The queue operations

The primitives and `ENQ` run by themselves (40_queue_ops.md R130 to R146): what each answers, one equation per branch of
its rule, and what the arrays read afterwards. -/

namespace Sys2Proof.Machine

variable {s : State} {i : Nat}

/-! ### The canonical arrays -/

theorem usedWf_of_tablesWf (h : tablesWf s = true) : tableWf false s.used = true := by
  simp only [tablesWf, Bool.and_eq_true] at h
  obtain ⟨⟨⟨⟨-, hused⟩, -⟩, -⟩, -⟩ := h
  exact hused

theorem fifoWf_of_tablesWf (h : tablesWf s = true) : tableWf 0 s.fifo = true := by
  simp only [tablesWf, Bool.and_eq_true] at h
  obtain ⟨⟨⟨-, hfifo⟩, -⟩, -⟩ := h
  exact hfifo

/-- Every slot now reads as before, but the one marked used. -/
theorem usedAt_setUsed_or (hw : tableWf false s.used = true) (i j : Nat) :
    usedAt (s.setUsed i true) j = (decide (j = i) || usedAt s j) := by
  rw [usedAt_setUsed hw]
  by_cases hj : j = i <;> simp [hj]

/-- Every slot now reads as before, but the one freed. -/
theorem usedAt_setUsed_and (hw : tableWf false s.used = true) (i j : Nat) :
    usedAt (s.setUsed i false) j = (decide (j ≠ i) && usedAt s j) := by
  rw [usedAt_setUsed hw]
  by_cases hj : j = i <;> simp [hj]

/-! ### SIZE -/

/-- 16 bits hold every count below 65536 (R140). -/
theorem zext16_toNat {n : Nat} (h : n < 65536) : (zext16 n).toNat = n := by
  rw [zext16, if_pos h, BitVec.toNat_ofNat]
  exact Nat.mod_eq_of_lt h

/-- Settles O3: the answer is `zext16` of `q_count`. -/
theorem sizeCountsQueued : Obligations.SizeCountsQueued :=
  ⟨rfl, fun s => ⟨zext16 s.qCount, rfl, zext16_toNat⟩⟩

/-! ### ALLOC, RECLAIM, PUSH, DEQ, RELEASE -/

/-- There is one least free slot. -/
theorem LeastFree.unique {j : Nat} (hi : LeastFree s i) (hj : LeastFree s j) : i = j := by
  obtain ⟨-, hui, hli⟩ := hi
  obtain ⟨-, huj, hlj⟩ := hj
  rcases Nat.lt_trichotomy i j with hlt | heq | hgt
  · exact absurd (hlj i hlt) (by simp [hui])
  · exact heq
  · exact absurd (hli j hgt) (by simp [huj])

/-- `ALLOC` with a free slot (R131). -/
theorem alloc_leastFree (h : LeastFree s i) : alloc s = (some i, s.setUsed i true) := by
  rcases alloc_cases s with ⟨j, hj, hu, hl, he⟩ | ⟨hall, -⟩
  · rw [he, h.unique ⟨hj, hu, hl⟩]
  · obtain ⟨hi, hu, -⟩ := h
    exact absurd (hall i hi) (by simp [hu])

/-- `ALLOC` with no free slot (R131). -/
theorem alloc_allUsed (h : ∀ j < s.cfg.nslot, usedAt s j = true) : alloc s = (none, s) := by
  rcases alloc_cases s with ⟨j, hj, hu, -, -⟩ | ⟨-, he⟩
  · exact absurd (h j hj) (by simp [hu])
  · exact he

theorem exec_alloc (s : State) :
    exec .alloc s = .next ((alloc s.beginStep).2.returnValue (.slot (alloc s.beginStep).1)) := rfl

/-- Settles O14: with a free slot and with none. -/
theorem allocTakesLeastFree : Obligations.AllocTakesLeastFree := by
  refine ⟨rfl, rfl, fun s hw => ⟨fun i hi hu hl => ?_, fun hall => ?_⟩⟩
  · have hfree : LeastFree s.beginStep i := ⟨hi, hu, hl⟩
    refine ⟨_, exec_alloc s, ?_, fun j => ?_⟩
    · rw [alloc_leastFree hfree]; rfl
    · rw [alloc_leastFree hfree]; exact usedAt_setUsed_or (usedWf_of_tablesWf hw) i j
  · rw [exec_alloc, alloc_allUsed (s := s.beginStep) hall]; rfl

/-- The used bit of a pool slot after `RECLAIM` (R132). -/
theorem usedAt_reclaim_lt {j : Nat} (hj : j < s.cfg.nslot) :
    usedAt (reclaim s) j = (decide (s.active = some j) && usedAt s j) := by
  rw [usedAt_reclaim]
  by_cases ha : s.active = some j
  · simp [ha]
  · simp [ha, Nat.not_le.2 hj]

/-- Settles O15: the frame is `reclaim_frame`, and only the active slot keeps its bit. -/
theorem reclaimFreesAllButActive : Obligations.ReclaimFreesAllButActive :=
  ⟨rfl, rfl, fun s => ⟨reclaim s.beginStep, rfl, reclaim_frame s.beginStep,
    fun _ hj => usedAt_reclaim_lt (s := s.beginStep) hj⟩⟩

/-- Settles O16: the ring position written is the one after the newest entry. -/
theorem pushAppends : Obligations.PushAppends :=
  ⟨fun _ => ⟨rfl, rfl⟩, fun slot s hw hq => ⟨push slot s.beginStep, rfl, rfl,
    fun j => fifoAt_setFifo (fifoWf_of_tablesWf hw) (tailPos s) j slot,
    queuedSlots_push (s := s.beginStep) (fifoWf_of_tablesWf hw) hq slot⟩⟩

theorem exec_deq (s : State) : exec .deq s = .next ((deq s.beginStep).2.returnValue (.slot (deq s.beginStep).1)) := rfl

/-- Settles O17: the empty and the non-empty queue. -/
theorem deqTakesOldest : Obligations.DeqTakesOldest := by
  refine ⟨rfl, rfl, fun s => ⟨fun hq => ?_, fun hq hhead => ?_⟩⟩
  · rw [exec_deq, deq_empty s.beginStep hq]; rfl
  · refine ⟨_, exec_deq s, ?_, ?_⟩
    · rw [deq_some s.beginStep hq]; rfl
    · rw [deq_some s.beginStep hq, queuedSlots_deq hq, Nat.mod_eq_of_lt hhead]; rfl

theorem release_lt (h : i < s.cfg.nslot) : release i s = .ok (s.setUsed i false) := by
  rw [release, if_pos h]

/-- Settles O18: the slot is one of the pool, so the release does not fault. -/
theorem releaseFreesSlot : Obligations.ReleaseFreesSlot :=
  ⟨fun _ => ⟨rfl, rfl⟩, fun slot s hw hslot => ⟨s.beginStep.setUsed slot false,
    congrArg outcomeOf (release_lt (s := s.beginStep) hslot), rfl, usedAt_setUsed_and (usedWf_of_tablesWf hw) slot⟩⟩

/-! ### ENQ, branch by branch -/

theorem exec_enq (d : Desc) (s : State) :
    exec (.enq d) s = .next ((enqueue d s.beginStep).2.respond (.accepted (enqueue d s.beginStep).1)) := rfl

/-- Line 1 of R136: POOL_FATAL is latched. -/
theorem enqueue_fatal (hf : flagSet s.err .poolFatal = true) (d : Desc) : enqueue d s = (false, s) := by
  rw [enqueue, if_pos hf]

/-- Line 2 of R136: the queue is full. -/
theorem enqueue_full (hf : flagSet s.err .poolFatal = false) (hq : s.qCount = s.cfg.qcap) (d : Desc) :
    enqueue d s = (false, s.raise .qfull) := by
  rw [enqueue, if_neg (by simp [hf]), if_pos hq]

/-- `err` after line 3 of R136, where an over-long write is noted (R139). -/
def clampErr (d : Desc) (s : State) : BitVec 8 := if s.cfg.maxw < d.wlen.toNat then s.err ||| errMask .desc else s.err

/-- The queue has room: line 3 of R136 cuts the descriptor and notes an over-long write, and lines 4 to 8 follow. -/
theorem enqueue_room (hf : flagSet s.err .poolFatal = false) (hq : s.qCount ≠ s.cfg.qcap) (d : Desc) :
    enqueue d s = allocAndAccept (cutDesc s.cfg.maxw d) { s with err := clampErr d s } := by
  rw [enqueue, if_neg (by simp [hf]), if_neg hq, clampDesc_eq, noteClamp_eq]
  rfl

/-- Line 4 of R136 finds a slot. -/
theorem allocAndAccept_leastFree (h : LeastFree s i) (d : Desc) :
    allocAndAccept d s = (true, acceptDesc d i (s.setUsed i true)) := by
  simp only [allocAndAccept, alloc_leastFree h]

/-- Line 5 of R136: no slot is free and nothing is queued, so the leaked slots are reclaimed (R132). -/
theorem allocAndAccept_reclaim (hall : ∀ j < s.cfg.nslot, usedAt s j = true) (hq : s.qCount = 0)
    (h : LeastFree (reclaim s) i) (d : Desc) :
    allocAndAccept d s = (true, acceptDesc d i ((reclaim s).setUsed i true)) := by
  simp only [allocAndAccept, alloc_allUsed hall, hq, if_true, alloc_leastFree h]

/-- Line 6 of R136: no slot is free and something is queued (R145). -/
theorem allocAndAccept_exhausted (hall : ∀ j < s.cfg.nslot, usedAt s j = true) (hq : s.qCount ≠ 0) (d : Desc) :
    allocAndAccept d s = (false, s) := by
  simp only [allocAndAccept, alloc_allUsed hall, hq, if_false]

/-- Settles O9: the three branches that answer 0. -/
theorem enqDeclines : Obligations.EnqDeclines := by
  refine fun d s => ⟨fun hf => ?_, fun hf hq => ?_, fun hf hq hq0 hall => ?_⟩
  · rw [exec_enq, enqueue_fatal (s := s.beginStep) hf]; rfl
  · rw [exec_enq, enqueue_full (s := s.beginStep) hf hq]; rfl
  · rw [exec_enq, enqueue_room (s := s.beginStep) hf hq,
      allocAndAccept_exhausted (s := { s.beginStep with err := clampErr d s.beginStep }) hall hq0]
    rfl

/-! ### An accepted ENQ, field by field -/

/-- `t` is `s` with `d` stored in slot `i` and queued, an idle engine kicked, and the answer given (lines 4, 7, 8 and 9
of R136). -/
structure Stored (s : State) (d : Desc) (i : Nat) (t : State) : Prop where
  frame : t = { s with
                pool := t.pool
                used := t.used
                fifo := t.fifo
                qCount := s.qCount + 1
                stage := if s.stage = .idle then .starting else s.stage
                out := { Output.quiet with
                          bc := if s.stage = .idle then .start else .none
                          resp := some (.accepted true) } }
  pool : ∀ j, poolAt t j = if j = i then d else poolAt s j
  used : ∀ j, usedAt t j = (decide (j = i) || usedAt s j)
  fifo : ∀ j, fifoAt t j = if j = tailPos s then i else fifoAt s j

theorem stored_acceptDesc (hp : tableWf Desc.zero s.pool = true) (hu : tableWf false s.used = true)
    (hf : tableWf 0 s.fifo = true) (hout : s.out = Output.quiet) (d : Desc) (i : Nat) :
    Stored s d i ((acceptDesc d i (s.setUsed i true)).respond (.accepted true)) := by
  rw [acceptDesc_eq]
  refine ⟨?_, fun j => tableGet_set hp i j d, usedAt_setUsed_or hu i, fun j => tableGet_set hf (tailPos s) j i⟩
  simp only [setUsed_out, setUsed_stage, hout]
  by_cases hst : s.stage = .idle
  · simp only [hst, if_true]; rfl
  · simp only [hst, if_false]; rfl

/-- An `ENQ` that finds a free slot at the first attempt (lines 3, 4 and 7 to 9 of R136). -/
theorem exec_enq_leastFree (hw : tablesWf s = true) (hf : flagSet s.err .poolFatal = false)
    (hq : s.qCount ≠ s.cfg.qcap) (hi : LeastFree s i) (d : Desc) :
    ∃ t, exec (.enq d) s = .next t ∧ Stored { s with err := clampErr d s } (cutDesc s.cfg.maxw d) i t := by
  have hstored := stored_acceptDesc (s := { s.beginStep with err := clampErr d s.beginStep })
    (poolWf_of_tablesWf (s := s) hw) (usedWf_of_tablesWf (s := s) hw) (fifoWf_of_tablesWf (s := s) hw) rfl
    (cutDesc s.cfg.maxw d) i
  refine ⟨_, ?_, { hstored with }⟩
  rw [exec_enq, enqueue_room (s := s.beginStep) hf hq,
    allocAndAccept_leastFree (s := { s.beginStep with err := clampErr d s.beginStep }) hi]
  rfl

/-- Settles O10: the slot is the least free one, and every clause is a field of `Stored`. -/
theorem enqAccepts : Obligations.EnqAccepts := by
  intro d s i hw hf hq hi hu hl
  obtain ⟨t, hx, hst⟩ := exec_enq_leastFree hw hf hq ⟨hi, hu, hl⟩ d
  exact ⟨t, hx, hst.frame, hst.pool, hst.used, hst.fifo⟩

/-- The least slot `RECLAIM` frees: slot 0, or slot 1 where slot 0 is active and used (R131, R132). -/
theorem leastFree_reclaim (hu : usedAt s 0 = true) : LeastFree (reclaim s) (if s.active = some 0 then 1 else 0) := by
  have h0 : 0 < s.cfg.nslot := Nat.succ_pos _
  have h1 : 1 < s.cfg.nslot := Nat.succ_lt_succ (Nat.succ_pos _)
  split
  · next ha =>
    refine ⟨h1, by simp [usedAt_reclaim_lt h1, ha], fun j hj => ?_⟩
    rw [Nat.lt_one_iff.1 hj, usedAt_reclaim_lt h0]
    simp [ha, hu]
  · next ha => exact ⟨h0, by simp [usedAt_reclaim_lt h0, ha], nofun⟩

/-- An `ENQ` that finds every slot used and nothing queued (lines 3, 5 and 7 to 9 of R136). -/
theorem exec_enq_reclaim (hw : tablesWf s = true) (hf : flagSet s.err .poolFatal = false) (hq : s.qCount = 0)
    (hcap : s.cfg.qcap ≠ 0) (hall : ∀ j < s.cfg.nslot, usedAt s j = true) (d : Desc) :
    ∃ t, exec (.enq d) s = .next t
      ∧ Stored (reclaim { s with err := clampErr d s }) (cutDesc s.cfg.maxw d)
          (if s.active = some 0 then 1 else 0) t := by
  have hstored := stored_acceptDesc (s := reclaim { s.beginStep with err := clampErr d s.beginStep })
    (poolWf_of_tablesWf (s := s) hw) (tableFilter_wfFrom _ (usedWf_of_tablesWf (s := s) hw))
    (fifoWf_of_tablesWf (s := s) hw) rfl (cutDesc s.cfg.maxw d) (if s.active = some 0 then 1 else 0)
  refine ⟨_, ?_, { hstored with }⟩
  rw [exec_enq, enqueue_room (s := s.beginStep) hf (by rw [beginStep_qCount, hq]; exact hcap.symm),
    allocAndAccept_reclaim (s := { s.beginStep with err := clampErr d s.beginStep }) hall hq
      (leastFree_reclaim (hall 0 (Nat.succ_pos _)))]
  rfl

/-- Settles O11: the branch of line 5; of the used bits only the active slot's is left. -/
theorem enqReclaims : Obligations.EnqReclaims := by
  rintro d s i hw hf hq hcap hall rfl
  obtain ⟨t, hx, hst⟩ := exec_enq_reclaim hw hf hq hcap hall d
  have hframe := hst.frame
  refine ⟨t, hx, ?_, hst.pool, fun j hj => ?_, fun j => ?_⟩
  · rw [show (reclaim { s with err := clampErr d s }).qCount = 0 from hq] at hframe
    exact hframe
  · have hu := usedAt_reclaim_lt (s := { s with err := clampErr d s }) hj
    rw [show usedAt { s with err := clampErr d s } j = true from hall j hj, Bool.and_true] at hu
    rw [hst.used, hu]
  · have hfifo := hst.fifo j
    rw [show tailPos (reclaim { s with err := clampErr d s }) = (s.qHead + s.qCount) % s.cfg.qcap from rfl, hq] at hfifo
    exact hfifo

/-! ### POOL_FATAL -/

/-- No branch of `ENQ` raises POOL_FATAL, in any state (R137). -/
theorem enqueue_poolFatal (d : Desc) (s : State) :
    flagSet (enqueue d s).2.err .poolFatal = flagSet s.err .poolFatal := by
  rcases enqueue_cases s d with ⟨-, he⟩ | ⟨-, -, he⟩ | ⟨-, -, he⟩
  · rw [he]
  · rw [he]; simp [flagSet_raise]
  · have hnote : flagSet (noteClamp d s).err .poolFatal = flagSet s.err .poolFatal := by
      unfold noteClamp
      split <;> simp [flagSet_raise]
    rw [he, ← hnote]
    generalize noteClamp d s = u
    rcases allocAndAccept_cases u (clampDesc s.cfg d) with ⟨i, -, ha⟩ | ⟨-, -, i, -, ha⟩ | ⟨-, -, ha⟩
    · rw [ha, acceptDesc_eq]; rfl
    · rw [ha, acceptDesc_eq, reclaim_frame]; simp [flagSet_raise]
    · rw [ha]

/-- Settles O12: the host command is `enqueue`, which leaves POOL_FATAL in each of its branches. -/
theorem enqNeverGoesFatal : Obligations.EnqNeverGoesFatal := fun d s =>
  ⟨_, exec_enq d s, enqueue_poolFatal d s.beginStep⟩

/-- Settles O13: under the invariants only the full queue declines, and they say that no repair flag is set. -/
theorem enqDeclinedIffFull : Obligations.EnqDeclinedIffFull := by
  intro d s h
  have q : QueueInv s.beginStep := { h.queueInv with }
  refine ⟨_, (enqueue d s.beginStep).1, exec_enq d s, rfl, ?_, (q.enqueue d).1.noRepair⟩
  rcases q.enqueue_cases d with ⟨hq, he⟩ | ⟨hq, i, -, he⟩
  · rw [he]
    exact iff_of_true rfl hq
  · rw [he]
    exact iff_of_false nofun (Nat.ne_of_lt hq)

end Sys2Proof.Machine

/-! ## The queue as a FIFO

What each port operation does to the queued slots (10_state.md R24, 40_queue_ops.md R133, R134, R142): the pop takes the
oldest, `ENQ` and the `ENQ`s of a delivery append, everything else leaves them. -/

namespace Sys2Proof.Machine

variable {s t : State} {op : Instr}

/-! ### A received byte appends -/

/-- The queued slots of `t` are those of `s`, followed by others. -/
def QueueGrows (s t : State) : Prop := ∃ new, queuedSlots t = queuedSlots s ++ new

theorem QueueGrows.of_eq (h : queuedSlots t = queuedSlots s) : QueueGrows s t := ⟨[], by rw [h, List.append_nil]⟩

theorem QueueGrows.trans {u : State} (h1 : QueueGrows s t) (h2 : QueueGrows t u) : QueueGrows s u := by
  obtain ⟨a, ha⟩ := h1
  obtain ⟨b, hb⟩ := h2
  exact ⟨a ++ b, by rw [hb, ha, List.append_assoc]⟩

theorem QueueInv.queueGrows_enqueue (q : QueueInv s) (d : Desc) : QueueGrows s (Machine.enqueue d s).2 := by
  rcases q.enqueue_cases d with ⟨-, he⟩ | ⟨hq, i, hi, he⟩
  · rw [he]
    exact .of_eq rfl
  · rw [he]
    obtain ⟨-, hslots, -, -⟩ := q.accept hi hq d
    exact ⟨[i], hslots⟩

theorem QueueInv.queueGrows_enqueueAll : ∀ (ds : List Desc) {s : State}, QueueInv s →
    QueueGrows s (Machine.enqueueAll ds s).2
  | [], _, _ => .of_eq rfl
  | d :: ds, _, q => (q.queueGrows_enqueue d).trans (QueueInv.queueGrows_enqueueAll ds (q.enqueue d).1)

/-- SINK's `ENQ`s are all a delivery does to the queue (R236). -/
theorem QueueInv.queueGrows_deliver (q : QueueInv s) (b : BufferInv s) (hd : deliverFrame s = .ok t) :
    QueueGrows s t := by
  rw [deliverFrame_ok s b.cursor] at hd
  cases hd
  exact QueueInv.queueGrows_enqueueAll (sinkAnswer s) (s := handOver s) { q with }

theorem FramingFrame.queuedSlots_eq (f : FramingFrame s t) : queuedSlots t = queuedSlots s := by
  rw [f.eq]
  rfl

theorem queueGrows_shtp (q : QueueInv s) (b : BufferInv s) {byte : Byte} {remaining : Half} {r : Half × State}
    (hr : shtpCallback byte remaining s = .ok r) : QueueGrows s r.2 := by
  obtain ⟨hbuf, hovf⟩ := b.transferByte byte
  have h0 := dispatched_of_framing q (framingFrame_transferByte s byte) hbuf hovf
  have hslots := (framingFrame_transferByte s byte).queuedSlots_eq
  rcases shtpCallback_cases s byte remaining with ⟨-, he⟩ | ⟨-, -, -, he⟩ | ⟨-, -, -, he⟩
  · cases he.symm.trans hr
    exact .of_eq hslots
  · cases he.symm.trans hr
    exact .of_eq hslots
  · rw [he] at hr
    cases hd : deliverFrame { (transferByte byte s).2 with xfIdx := nextIdx s.xfIdx } with
    | error e => rw [hd] at hr; cases hr
    | ok u =>
      rw [hd] at hr
      cases hr
      have hgrows : QueueGrows (transferByte byte s).2 u :=
        QueueInv.queueGrows_deliver (s := { (transferByte byte s).2 with xfIdx := nextIdx s.xfIdx }) { h0.queue with }
          { h0.buffer with } hd
      exact QueueGrows.trans (.of_eq hslots) hgrows

theorem queueGrows_dispatch (q : QueueInv s) (b : BufferInv s) {addr : BitVec 7} {byte : Byte} {remaining : Half}
    {r : Half × State} (hr : dispatchByte addr byte remaining s = .ok r) : QueueGrows s r.2 := by
  unfold dispatchByte at hr
  split at hr
  · cases hr
    exact .of_eq rfl
  · exact queueGrows_shtp q b hr

/-- The acknowledge extends a read length and leaves the ring alone (R187, R188). -/
theorem queuedSlots_acknowledge (i : Nat) (add : Half) (s : State) :
    queuedSlots (acknowledge i add s) = queuedSlots s := by
  rcases acknowledge_cases i add s with ⟨-, he⟩ | ⟨-, he⟩
  · rw [he]; rfl
  · rw [he]; rfl

theorem queueGrows_receiveByte (q : QueueInv s) (b : BufferInv s) {byte : Byte} {i : Nat}
    (hx : receiveByte byte i s = .ok t) : QueueGrows s t := by
  rcases Nat.lt_or_ge i s.cfg.nslot with hi | hi
  · rw [receiveByte_of_lt hi] at hx
    cases hd : dispatchByte (poolAt s i).addr byte (bytesRemaining (poolAt s i).rlen (nextRcount s.rcount))
        { s with rcount := nextRcount s.rcount } with
    | error f => rw [hd] at hx; cases hx
    | ok r =>
      rw [hd] at hx
      cases hx
      have hgrows : QueueGrows s r.2 :=
        queueGrows_dispatch (s := { s with rcount := nextRcount s.rcount }) { q with } { b with } hd
      exact hgrows.trans (.of_eq (queuedSlots_acknowledge i r.1 r.2))
  · cases (receiveByte_missing hi byte).symm.trans hx

/-- `EV_RX` appends what SINK answers to a delivery, and takes nothing (R236). -/
theorem queueGrows_evRx (h : s.Inv) {b : Byte} (hx : exec (.evRx b) s = .next t) : QueueGrows s t := by
  cases he : expectedAt s.stage s.sub (.evRx b) with
  | false =>
    cases (exec_of_unexpected rfl he).symm.trans hx
    exact .of_eq rfl
  | true =>
    obtain ⟨hst, hsub⟩ := expectedAt_evRx.1 he
    obtain ⟨i, ha⟩ := h.engineInv.exists_active (.inr (.inl hst))
    rw [exec_evRx_reading hst hsub ha] at hx
    exact queueGrows_receiveByte (s := s.beginStep) { h.queueInv with } { h.bufferInv with } (outcomeOf_ok hx)

/-! ### The other operations -/

/-- `ENQ` appends one slot, holding its cut descriptor, exactly when the queue is not full (R136, R142). -/
theorem queuedSlots_enq (h : s.Inv) {d : Desc} (hx : exec (.enq d) s = .next t) :
    ∃ new, queuedSlots t = queuedSlots s ++ new ∧
      new.map (poolAt t) = if s.qCount < s.cfg.qcap then [cutDesc s.cfg.maxw d] else [] := by
  have q : QueueInv s.beginStep := { h.queueInv with }
  cases (exec_enq d s).symm.trans hx
  rcases q.enqueue_cases d with ⟨hq, he⟩ | ⟨hq, i, hi, he⟩
  · refine ⟨[], ?_, ?_⟩
    · rw [he, List.append_nil]; rfl
    · rw [if_neg (show ¬s.qCount < s.cfg.qcap from Nat.not_lt.2 (Nat.le_of_eq hq.symm))]; rfl
  · obtain ⟨-, hslots, hpool, -⟩ := q.accept hi hq d
    rw [if_pos (show s.qCount < s.cfg.qcap from hq)]
    refine ⟨[i], ?_, ?_⟩
    · rw [he]; exact hslots
    · rw [he]; exact congrArg ([·]) (hpool.trans (clampDesc_eq s.cfg d))

/-- `EV_START` in Starting takes the oldest queued slot and makes it active (R143, R170). -/
theorem queuedSlots_pop (h : s.Inv) (hst : s.stage = .starting) (hx : exec .evStart s = .next t) :
    ∃ a, t.active = some a ∧ queuedSlots s = a :: queuedSlots t := by
  have he : expectedAt s.stage s.sub .evStart = true := expectedAt_evStart.2 (.inl hst)
  cases h.transition rfl he hx with
  | pop _ hq =>
    refine ⟨fifoAt s s.qHead, rfl, ?_⟩
    rw [queuedSlots_deq hq, Nat.mod_eq_of_lt h.headRange]
    rfl
  | resend i hst' => exact absurd (hst.symm.trans hst') nofun

theorem Aside.queuedSlots_eq (a : Aside s t) : queuedSlots t = queuedSlots s := by
  rw [a.frame]
  rfl

theorem Transition.queuedSlots_eq (tr : Transition s op t) (hpop : ¬(op = .evStart ∧ s.stage = .starting))
    (hrx : ∀ b, op ≠ .evRx b) : queuedSlots t = queuedSlots s := by
  cases tr with
  | pop hst => exact absurd ⟨rfl, hst⟩ hpop
  | acknowledge i b | refuse i b => exact absurd rfl (hrx b)
  | resend | sendByte | repeatStart | askByte | finish | abort => rfl
  | retire i =>
    rcases restartOrIdle_cases { s.beginStep.setUsed i false with active := none } with ⟨-, he⟩ | ⟨-, he⟩
    · rw [he]; rfl
    · rw [he]; rfl

/-- Every operation but the pop, `ENQ` and `EV_RX` leaves the queued slots alone. -/
theorem PortStep.queuedSlots_eq (p : PortStep s op t) (hpop : ¬(op = .evStart ∧ s.stage = .starting))
    (hrx : ∀ b, op ≠ .evRx b) (henq : ∀ d, op ≠ .enq d) : queuedSlots t = queuedSlots s := by
  cases p with
  | command _ a _ => exact a.queuedSlots_eq
  | accepted d hd _ => exact absurd hd (henq d)
  | unexpected _ _ ht => exact ht ▸ (aside_unexpected s).queuedSlots_eq
  | expected _ _ tr => exact tr.queuedSlots_eq hpop hrx

/-! ### The queued transactions -/

/-- The descriptors of queued slots stay (R26), so the old queued slots still hold the old transactions. -/
theorem map_poolAt_queued (h : s.Inv) (hop : isPortOp op = true) (hreset : op ≠ .reset)
    (hx : exec op s = .next t) : (queuedSlots s).map (poolAt t) = queuedDescs s :=
  List.map_congr_left fun j hj => (liveDescriptorsAreStable op s t j h hop hreset hx).1 hj

theorem queuedDescs_of_append {new : List Nat} (hslots : queuedSlots t = queuedSlots s ++ new)
    (hpool : (queuedSlots s).map (poolAt t) = queuedDescs s) : queuedDescs t = queuedDescs s ++ new.map (poolAt t) := by
  rw [queuedDescs, hslots, List.map_append, hpool]

/-- Settles O51: the pop, `ENQ`, `EV_RX` and all the rest. -/
theorem queueIsFifo : Obligations.QueueIsFifo := by
  intro op s t h hop hreset hx
  have hpool := map_poolAt_queued h hop hreset hx
  by_cases hpop : op = .evStart ∧ s.stage = .starting
  · obtain ⟨rfl, hst⟩ := hpop
    obtain ⟨a, ha, hslots⟩ := queuedSlots_pop h hst hx
    have hdescs : queuedDescs s = poolAt t a :: queuedDescs t := by
      rw [← hpool, hslots]; rfl
    refine ⟨[], ?_, fun _ _ => ⟨a, ha, ?_⟩, nofun, fun _ _ => rfl⟩
    · rw [if_pos ⟨rfl, hst⟩, hdescs, List.append_nil]; rfl
    · rw [hdescs]; rfl
  · rw [if_neg hpop]
    have hstart : op = .evStart → s.stage = .starting →
        ∃ a, t.active = some a ∧ (queuedDescs s).head? = some (poolAt t a) := fun h1 h2 => absurd ⟨h1, h2⟩ hpop
    by_cases henq : ∃ d, op = .enq d
    · obtain ⟨d, rfl⟩ := henq
      obtain ⟨new, hslots, hnew⟩ := queuedSlots_enq h hx
      refine ⟨_, queuedDescs_of_append hslots hpool, hstart, ?_, fun hne => absurd rfl (hne d)⟩
      rintro _ ⟨⟩
      exact hnew
    · by_cases hrx : ∃ b, op = .evRx b
      · obtain ⟨b, rfl⟩ := hrx
        obtain ⟨new, hslots⟩ := queueGrows_evRx h hx
        exact ⟨_, queuedDescs_of_append hslots hpool, hstart, nofun, fun _ hne => absurd rfl (hne b)⟩
      · have hslots := (h.portStep hop hreset hx).queuedSlots_eq hpop (fun b hb => hrx ⟨b, hb⟩)
          fun d hd => henq ⟨d, hd⟩
        refine ⟨[], ?_, hstart, fun d hd => absurd ⟨d, hd⟩ henq, fun _ _ => rfl⟩
        rw [List.append_nil, queuedDescs, hslots, hpool]

end Sys2Proof.Machine

/-! ## The engine's events, as exact next states

What each completion event answers at a position that lists it and everywhere else (41_engine_events.md R170 to R195), and
the helpers `WRITE_NEXT` and `BEGIN_READ` run by themselves. -/

namespace Sys2Proof.Machine

variable {s u : State} {i : Nat} {b : Byte}

/-! ### Event words -/

/-- The data of an EV word is ignored but for `EV_RX` (R104). -/
theorem decodeEv_ignores_data {code : BitVec 3} (hcode : code ≠ 0b100) (data data' : Byte) :
    decodeEv (portWord code data) = decodeEv (portWord code data') := by
  simp only [decodeEv, wordCode_portWord, hcode, if_false]

/-! ### Unexpected events -/

/-- The one answer to an event that the position does not list (R195). -/
theorem exec_unexpected {op : Instr} (hop : isEvent op = true) (he : ¬expectedAt s.stage s.sub op = true) :
    exec op s = .next { s with err := s.err ||| 0x20, out := Output.quiet } :=
  exec_of_unexpected hop (Bool.eq_false_iff.2 he)

/-- Settles O27: the two reserved codes, and `exec_unexpected` at every position. -/
theorem unexpectedEventIgnored : Obligations.UnexpectedEventIgnored :=
  ⟨fun _ => decodeEv_reserved, fun _ _ hop he => exec_unexpected hop (Bool.eq_false_iff.1 he)⟩

/-! ### WRITE_NEXT and BEGIN_READ -/

theorem writeNextOf_byte {d : Desc} (hb : d.wdata[s.widx.toNat]? = some b) :
    writeNextOf d s = State.emit { s with widx := s.widx + 1 } (.tx b) := by
  simp only [writeNextOf, hb]

theorem writeNextOf_restart {d : Desc} (hle : d.wlen.toNat ≤ s.widx.toNat) (hr : d.rlen ≠ 0) :
    writeNextOf d s = State.emit { s with sub := .reStart } .start := by
  rcases writeNextOf_cases d s with ⟨b, -, hlt, -⟩ | ⟨-, -, he⟩ | ⟨-, h0, -⟩
  · exact absurd hlt (Nat.not_lt.2 hle)
  · exact he
  · exact absurd h0 hr

theorem writeNextOf_stop {d : Desc} (hle : d.wlen.toNat ≤ s.widx.toNat) (hr : d.rlen = 0) :
    writeNextOf d s = State.emit { s with stage := .stopping } .stop := by
  rcases writeNextOf_cases d s with ⟨b, -, hlt, -⟩ | ⟨-, h0, -⟩ | ⟨-, -, he⟩
  · exact absurd hlt (Nat.not_lt.2 hle)
  · exact absurd hr h0
  · exact he

theorem exec_writeNext_active (ha : s.active = some i) (hi : i < s.cfg.nslot) :
    exec .writeNext s = .next (writeNextOf (poolAt s i) s.beginStep) :=
  congrArg outcomeOf (withActive_some (s := s.beginStep) ha hi)

theorem exec_beginRead_active (ha : s.active = some i) (hi : i < s.cfg.nslot) :
    exec .beginRead s = .next (beginReadOf (poolAt s i) s.beginStep) :=
  congrArg outcomeOf (withActive_some (s := s.beginStep) ha hi)

/-- Settles O21: the three branches of R176. -/
theorem writeNextSendsByte : Obligations.WriteNextSendsByte := by
  refine ⟨rfl, rfl, fun s i ha hi => ?_⟩
  rw [exec_writeNext_active ha hi]
  exact ⟨fun b hb => congrArg Host.Outcome.next (writeNextOf_byte (s := s.beginStep) hb),
    fun hle hr => congrArg Host.Outcome.next (writeNextOf_restart (s := s.beginStep) hle hr),
    fun hle hr => congrArg Host.Outcome.next (writeNextOf_stop (s := s.beginStep) hle hr)⟩

/-- Settles O22: the two branches of R177. -/
theorem beginReadAsksFirstByte : Obligations.BeginReadAsksFirstByte := by
  refine ⟨rfl, rfl, fun s i ha hi => ?_⟩
  rw [exec_beginRead_active ha hi, beginReadOf]
  refine ⟨fun hr => ?_, fun hr => ?_⟩
  · rw [if_pos hr]; rfl
  · rw [if_neg hr]; rfl

/-! ### EV_START -/

theorem subOfDir_eq (dir : Dir) : subOfDir dir = if dir = .write then .write else .read := by
  cases dir <;> rfl

/-- Settles O19: the pop, the empty queue, the re-sent address, and the positions that do not list the event. -/
theorem startEventAddresses : Obligations.StartEventAddresses := by
  refine ⟨fun data => decodeEv_ignores_data (code := 0b001) (by decide) data 0,
    fun s => ⟨?pop, fun hst hq => ?empty, fun i hst hsub ha hi => ?resend, fun hst hsub => ?unexpected⟩⟩
  case pop =>
    rintro _ _ hst hq rfl hslot rfl
    rw [exec_evStart_starting hst, startNext_pop (s := s.beginStep) hq hslot, ← subOfDir_eq]
    rfl
  case empty =>
    rw [exec_evStart_starting hst, startNext_empty (s := s.beginStep) hq]
    rfl
  case resend =>
    rw [exec_evStart_reStart hst hsub, withActive_some (s := s.beginStep) ha hi]
    rfl
  case unexpected =>
    exact exec_unexpected rfl fun he => (expectedAt_evStart.1 he).elim hst hsub

/-! ### EV_TX_ACK -/

/-- While writing, `EV_TX_ACK` is `WRITE_NEXT` in DataPhase (R175). -/
theorem Writing.exec_evTxAck_eq (w : Writing s i) : exec .evTxAck s = exec .writeNext { s with stage := .dataPhase } :=
  w.exec_evTxAck.trans (exec_writeNext_active (s := { s with stage := .dataPhase }) w.active w.inPool).symm

/-- After an address byte with the read bit, `EV_TX_ACK` is `BEGIN_READ` in DataPhase (R175). -/
theorem exec_evTxAck_addressed
    (hpos : (s.stage = .addressPhase ∧ s.sub = .read) ∨ (s.stage = .dataPhase ∧ s.sub = .reAddr)) (ha : s.active ≠ none) :
    exec .evTxAck s = exec .beginRead { s with stage := .dataPhase } := by
  have he := expectedAt_evTxAck.2 (hpos.imp (And.imp_right .inr) (And.imp_right .inr))
  have hsub : s.sub ≠ .write := by
    rcases hpos with ⟨-, h⟩ | ⟨-, h⟩ <;> simp [h]
  rw [exec_evTxAck_expected he ha, ackRule, if_neg hsub]
  rfl

theorem exec_evTxAck_unexpected (h : s.active = none ∨ ¬expectedAt s.stage s.sub .evTxAck = true) :
    exec .evTxAck s = .next { s with err := s.err ||| 0x20, out := Output.quiet } :=
  h.elim exec_evTxAck_none (exec_unexpected rfl)

/-- Settles O20: the acknowledge of a sent byte is `WRITE_NEXT` or `BEGIN_READ` in DataPhase, which O21 and O22 settle. -/
theorem ackEventAdvances : Obligations.AckEventAdvances := by
  refine ⟨fun data => decodeEv_ignores_data (code := 0b010) (by decide) data 0,
    fun s => ⟨fun i ha hi => ?_, fun h => ?_⟩⟩
  · obtain ⟨-, -, hwrite⟩ := writeNextSendsByte
    obtain ⟨-, -, hread⟩ := beginReadAsksFirstByte
    refine ⟨fun hst hsub => ?_, fun hpos => ?_⟩
    · rw [Writing.exec_evTxAck_eq ⟨hst, hsub, ha, hi⟩]
      exact hwrite { s with stage := .dataPhase } i ha hi
    · rw [exec_evTxAck_addressed hpos (by simp [ha])]
      exact hread { s with stage := .dataPhase } i ha hi
  · exact exec_evTxAck_unexpected (h.imp_right (mt expectedAt_evTxAck.1))

/-! ### EV_TX_NACK -/

/-- Settles O23: `abortTransaction` where a sent byte can be rejected, PROTO elsewhere. -/
theorem nackEventAborts : Obligations.NackEventAborts :=
  ⟨fun data => decodeEv_ignores_data (code := 0b011) (by decide) data 0, fun _ =>
    ⟨fun hpos => exec_evTxNack_expected (expectedAt_evTxNack.2 hpos),
      fun hpos => exec_unexpected rfl (mt expectedAt_evTxNack.1 hpos)⟩⟩

/-! ### EV_RX -/

/-- The count of a byte that is due does not wrap (R32). -/
theorem rcount_succ_toNat {r n : Half} (hdue : r.toNat + 1 ≤ n.toNat) : (r + 1).toNat = r.toNat + 1 := by
  have := n.isLt
  rw [BitVec.toNat_add, show (1 : Half).toNat = 1 from rfl]
  omega

/-- The acknowledge as one equation (R187, R188). -/
theorem acknowledge_eq (slot : Nat) (add : Half) (s : State) :
    acknowledge slot add s =
      { s.setPool slot { poolAt s slot with rlen := extendRlen (poolAt s slot).rlen add } with
        stage := if extendRlen (poolAt s slot).rlen add ≤ s.rcount then .stopping else s.stage
        out := { s.out with bc := if extendRlen (poolAt s slot).rlen add ≤ s.rcount then .nackStop else .ackRx } } := by
  rcases acknowledge_cases slot add s with ⟨hlast, he⟩ | ⟨hmore, he⟩
  · rw [he, if_pos hlast, if_pos hlast]; rfl
  · rw [he, if_neg (BitVec.not_le.2 hmore), if_neg (BitVec.not_le.2 hmore)]; rfl

/-- `DISPATCH` by itself is the dispatch, and the answer stands in `out.ret` (log entry 14). -/
theorem exec_dispatch_next {addr : BitVec 7} {remaining : Half} (hx : exec (.dispatch addr b remaining) s = .next u) :
    ∃ add v, dispatchByte addr b remaining s.beginStep = .ok (add, v) ∧ u = v.returnValue (.add add)
      ∧ DispatchFrame s.beginStep v := by
  rw [exec_dispatch] at hx
  cases hd : dispatchByte addr b remaining s.beginStep with
  | error f => rw [hd] at hx; cases hx
  | ok r =>
    rw [hd] at hx
    cases hx
    exact ⟨r.1, r.2, rfl, rfl, dispatchFrame_dispatch hd⟩

/-- `EV_RX`, with a byte due, acknowledges in the state that the `DISPATCH` it calls leaves (R185, R186). -/
theorem exec_evRx_dispatch {add : Half} (hst : s.stage = .dataPhase) (hsub : s.sub = .read) (ha : s.active = some i)
    (hi : i < s.cfg.nslot) (hdue : s.rcount.toNat + 1 ≤ (poolAt s i).rlen.toNat)
    (hx : exec (.dispatch (poolAt s i).addr b (BitVec.ofNat 16 ((poolAt s i).rlen.toNat - (s.rcount.toNat + 1))))
      { s with rcount := s.rcount + 1 } = .next u)
    (hret : u.out.ret = some (.add add)) :
    exec (.evRx b) s = .next (acknowledge i add { u with out := { u.out with ret := none } }) := by
  have hmax := (poolAt s i).rlen.isLt
  obtain ⟨add', v, hd, rfl, hframe⟩ := exec_dispatch_next hx
  cases hret
  have hv : { v.returnValue (.add add) with out := { (v.returnValue (.add add)).out with ret := none } } = v := by
    show { v with out := { v.out with ret := none } } = v
    rw [show none = v.out.ret from hframe.ret.symm]
  rw [← bytesRemaining_eq hdue] at hd
  have hd' : dispatchByte (poolAt s i).addr b (bytesRemaining (poolAt s i).rlen (s.rcount + 1))
      { s.beginStep with rcount := s.rcount + 1 } = .ok (add, v) := hd
  rw [hv, exec_evRx_reading hst hsub ha, receiveByte_of_lt (s := s.beginStep) hi, beginStep_rcount,
    nextRcount_lt (by omega), show poolAt s.beginStep i = poolAt s i from rfl, hd']
  rfl

/-- Settles O24: the state is `acknowledge` of what `DISPATCH` leaves, whose count and pool `DispatchFrame` gives. -/
theorem receiveEventExtends : Obligations.ReceiveEventExtends := by
  refine ⟨fun data => decodeEv_of_encodeIn (c := Config.testT) (i := .evRx data) rfl rfl, fun b s => ⟨?_, fun hpos => ?_⟩⟩
  · intro i u add rlen hwf hst hsub ha hi hdue hx hret hrlen
    have hx' := exec_evRx_dispatch hst hsub ha hi hdue hx hret
    obtain ⟨add', v, -, rfl, hframe⟩ := exec_dispatch_next hx
    have hpool := hframe.poolWf (poolWf_of_tablesWf hwf)
    have hlast : extendRlen (poolAt v i).rlen add ≤ v.rcount ↔ rlen ≤ s.rcount.toNat + 1 := by
      rw [BitVec.le_def, extendRlen_toNat, hframe.rcount, ← rcount_succ_toNat hdue, hrlen]
      rfl
    have hext : extendRlen (poolAt v i).rlen add = BitVec.ofNat 16 rlen := congrArg (BitVec.ofNat 16) hrlen.symm
    refine ⟨_, hx', ?_, fun j => ?_⟩
    · simp only [acknowledge_eq, ← hlast]
      rfl
    · rw [← hext, acknowledge_eq]
      exact poolAt_setPool hpool i j _
  · by_cases he : expectedAt s.stage s.sub (.evRx b) = true
    · obtain ⟨hst, hsub⟩ := expectedAt_evRx.1 he
      exact exec_evRx_none (by simpa [hst, hsub] using hpos) b
    · exact exec_unexpected rfl he

/-- Settles O25: the byte goes nowhere, so the read length stays and the test for the last byte is an equation. -/
theorem receiveWithoutCallback : Obligations.ReceiveWithoutCallback := by
  intro b s i hwf hst hsub ha hi hk hdue
  have r : PlainReading s i := ⟨poolWf_of_tablesWf hwf, hst, hsub, ha, hi, hk⟩
  have hlast : (poolAt s i).rlen ≤ s.rcount + 1 ↔ (poolAt s i).rlen.toNat = s.rcount.toNat + 1 := by
    rw [BitVec.le_def, rcount_succ_toNat hdue]
    omega
  rw [r.exec_evRx hdue b]
  by_cases h : (poolAt s i).rlen.toNat = s.rcount.toNat + 1
  · rw [if_pos (hlast.2 h), if_pos h, if_pos h]
  · rw [if_neg (mt hlast.1 h), if_neg h, if_neg h, ← hst]

/-! ### EV_STOP -/

/-- `v` is `s` with the active slot, if any, freed and no transaction active (R190). -/
structure Retired (s v : State) : Prop where
  frame : v = { s with used := v.used, active := none }
  used : ∀ j, usedAt v j = (decide (s.active ≠ some j) && usedAt s j)

/-- With the active slot, if any, in the pool, the release completes (R190). -/
theorem retire_retired (hwf : tableWf false s.used = true) (hin : ∀ i, s.active = some i → i < s.cfg.nslot) :
    ∃ v, retire s = .ok v ∧ Retired s v := by
  rcases retire_cases s with ⟨ha, he⟩ | ⟨i, ha, -, he⟩ | ⟨i, ha, hle, -⟩
  · refine ⟨s, he, ?_, fun j => by simp [ha]⟩
    rw [← ha]
  · have hact : ∀ j, decide (s.active ≠ some j) = decide (j ≠ i) := fun j => by simp [ha, eq_comm]
    exact ⟨_, he, rfl, fun j => hact j ▸ usedAt_setUsed_and hwf i j⟩
  · exact absurd (hin i ha) (Nat.not_lt.2 hle)

/-- What follows the release, as one equation (R190). -/
theorem restartOrIdle_eq (s : State) :
    restartOrIdle s =
      { s with
        stage := if s.qCount = 0 then .idle else .starting
        out := { s.out with bc := if s.qCount = 0 then s.out.bc else .start } } := by
  rcases restartOrIdle_cases s with ⟨hq, he⟩ | ⟨hq, he⟩
  · rw [he, if_neg (Nat.ne_of_gt hq), if_neg (Nat.ne_of_gt hq)]; rfl
  · rw [he, if_pos hq, if_pos hq]

/-- Settles O26: the release, then the queue decides. -/
theorem stopEventReleases : Obligations.StopEventReleases := by
  refine ⟨fun data => decodeEv_ignores_data (code := 0b101) (by decide) data 0,
    fun s hwf => ⟨fun hst hin => ?_, fun hst => ?_⟩⟩
  · obtain ⟨v, hv, hframe, hused⟩ := retire_retired (s := s.beginStep) (usedWf_of_tablesWf hwf) hin
    have hx : exec .evStop s = .next (restartOrIdle v) := by
      rw [exec_evStop_stopping hst, hv]
      rfl
    rw [restartOrIdle_eq] at hx
    refine ⟨_, hx, ?_, hused⟩
    rw [hframe]
    rfl
  · exact exec_unexpected rfl (mt expectedAt_evStop.1 hst)

end Sys2Proof.Machine

/-! ## Dispatch and framing

What `REGCB`, `AWAIT_SET`, `STORE`, `DELIVER`, `SHTP_CB` and `DISPATCH` answer, one equation per branch of their rules
(42_dispatch_framing.md R210 to R241), and the statements about them. -/

namespace Sys2Proof.Machine

variable {s t u : State} {b : Byte} {remaining : Half}

/-! ### REGCB and AWAIT_SET -/

theorem cbtabWf_of_tablesWf (h : tablesWf s = true) : tableWf Kind.none s.cbtab = true := by
  simp only [tablesWf, Bool.and_eq_true] at h
  obtain ⟨⟨-, hcbtab⟩, -⟩ := h
  exact hcbtab

theorem rxWf_of_tablesWf (h : tablesWf s = true) : s.rxbuf.wf = true := by
  simp only [tablesWf, Bool.and_eq_true] at h
  exact h.2

/-- Settles O7: the whole meaning of `AWAIT_SET`. -/
theorem awaitSetSetsFlag : Obligations.AwaitSetSetsFlag := ⟨rfl, fun _ => rfl⟩

theorem exec_regcb_none (addr : BitVec 7) (s : State) :
    exec (.regcb addr 0) s = .next (s.beginStep.setKind addr .none) := rfl

theorem exec_regcb_shtp (addr : BitVec 7) (s : State) :
    exec (.regcb addr 1) s = .next (s.beginStep.setKind addr .shtp) := rfl

theorem exec_regcb_reserved (addr : BitVec 7) {kind : BitVec 2} (hk : kind = 2 ∨ kind = 3) (s : State) :
    exec (.regcb addr kind) s = .next (s.beginStep.raise .desc) := by
  rcases hk with rfl | rfl <;> rfl

theorem kind_cases : ∀ kind : BitVec 2, kind = 0 ∨ kind = 1 ∨ kind = 2 ∨ kind = 3 := by decide

/-- Settles O8: a kind at a time; the reads of the table are those after one write. -/
theorem regcbSetsOneEntry : Obligations.RegcbSetsOneEntry := by
  refine ⟨fun _ _ _ => rfl, fun addr kind s hw => ?_⟩
  have hset := kindAt_setKind (s := s.beginStep) (cbtabWf_of_tablesWf hw) addr
  rcases kind_cases kind with rfl | rfl | hk
  · exact ⟨_, exec_regcb_none addr s, rfl, fun _ => ⟨rfl, fun a => hset a .none⟩,
      fun h => absurd h (by decide), fun h => absurd h (by decide)⟩
  · exact ⟨_, exec_regcb_shtp addr s, rfl, fun h => absurd h (by decide),
      fun _ => ⟨rfl, fun a => hset a .shtp⟩, fun h => absurd h (by decide)⟩
  · refine ⟨_, exec_regcb_reserved addr hk s, rfl, ?_, ?_, fun _ => ⟨rfl, rfl⟩⟩
    · rintro rfl; exact absurd hk (by decide)
    · rintro rfl; exact absurd hk (by decide)

/-! ### STORE -/

theorem exec_store (b : Byte) (s : State) : exec (.store b) s = .next (storeByte b s.beginStep) := rfl

/-- Settles O34: with room the read after the write, else FrameOverflow. -/
theorem storeIsGuarded : Obligations.StoreIsGuarded := by
  refine ⟨fun _ => ⟨rfl, rfl⟩, fun b s hw => ⟨fun hroom => ?_, fun hfull => ?_⟩⟩
  · rw [exec_store, storeByte_room s.beginStep b hroom]
    exact ⟨_, rfl, rfl, fun k => Memory.read_write (rxWf_of_tablesWf hw) s.rxCur.toNat k b⟩
  · rw [exec_store, storeByte_full s.beginStep b hfull]
    rfl

/-! ### A byte of a transfer -/

theorem transferByte_first (hx : s.xfIdx = 0) (b : Byte) : transferByte b s = (0, { s with h0 := b }) := by
  simp [transferByte, hx]

theorem transferByte_second (hx : s.xfIdx = 1) (b : Byte) : transferByte b s = headerByte b s := by
  simp [transferByte, hx]

/-- Bytes 2 and 3 in append mode are dropped (R225). -/
theorem transferByte_dropped (hx : s.xfIdx = 2 ∨ s.xfIdx = 3) (happ : s.app = true) (b : Byte) :
    transferByte b s = (0, s) := by
  rcases hx with hx | hx <;> simp [transferByte, hx, happ]

/-- The next byte of the transfer is one that is stored (R225, R229). -/
def Storing (s : State) : Prop := s.xfIdx = 4 ∨ ((s.xfIdx = 2 ∨ s.xfIdx = 3) ∧ s.app = false)

theorem Storing.transferByte (h : Storing s) (b : Byte) : transferByte b s = (0, storeByte b s) := by
  rcases h with hx | ⟨hx | hx, happ⟩
  · simp [Machine.transferByte, hx]
  · simp [Machine.transferByte, hx, happ]
  · simp [Machine.transferByte, hx, happ]

/-- A byte that is not the transfer's last, or that asks for more, is only taken in (R222). -/
theorem shtpCallback_due (h : remaining ≠ 0 ∨ addOf b s ≠ 0) :
    shtpCallback b remaining s = .ok (addOf b s, { (transferByte b s).2 with xfIdx := nextIdx s.xfIdx }) := by
  rcases shtpCallback_cases s b remaining with ⟨-, he⟩ | ⟨hr, ha, -⟩ | ⟨hr, ha, -⟩
  · exact he
  · exact absurd ha (h.resolve_left (not_not_intro hr))
  · exact absurd ha (h.resolve_left (not_not_intro hr))

/-- The last byte of a transfer that leaves the frame incomplete (R233, R234). -/
theorem shtpCallback_last_incomplete (ha : addOf b s = 0)
    (hf : ¬(s.xfIdx ≠ 0 ∧ (transferByte b s).2.frameLen ≤ (transferByte b s).2.rxCur)) :
    shtpCallback b 0 s = .ok (0, { (transferByte b s).2 with xfIdx := 0 }) := by
  rcases shtpCallback_cases s b 0 with ⟨h, -⟩ | ⟨-, -, -, he⟩ | ⟨-, -, h, -⟩
  · exact absurd ⟨rfl, ha⟩ h
  · exact he
  · rw [frameComplete, Bool.and_eq_true, decide_eq_true_eq, decide_eq_true_eq] at h
    exact absurd ⟨fun h0 => absurd h.1 (by rw [h0]; decide), h.2⟩ hf

/-- The last byte of a transfer that completes the frame (R233, R234). -/
theorem shtpCallback_last_complete (ha : addOf b s = 0) (hx : s.xfIdx ≠ 0)
    (hf : (transferByte b s).2.frameLen ≤ (transferByte b s).2.rxCur) :
    shtpCallback b 0 s =
      (deliverFrame { (transferByte b s).2 with xfIdx := nextIdx s.xfIdx }).map (fun t => (0, { t with xfIdx := 0 })) := by
  rcases shtpCallback_cases s b 0 with ⟨h, -⟩ | ⟨-, -, h, -⟩ | ⟨-, -, -, he⟩
  · exact absurd ⟨rfl, ha⟩ h
  · have hx1 : 1 ≤ s.xfIdx.val := Nat.one_le_iff_ne_zero.2 fun h0 => hx (Fin.ext h0)
    simp [frameComplete, hx1, hf] at h
  · exact he

theorem addOf_of_ne_one (hx : s.xfIdx ≠ 1) (b : Byte) : addOf b s = 0 := if_neg hx

/-- Byte 0 of a transfer, the only one or not (R223, R234). -/
theorem shtpCallback_first (hx : s.xfIdx = 0) (b : Byte) (remaining : Half) :
    shtpCallback b remaining s = .ok (0, { s with h0 := b, xfIdx := if remaining = 0 then 0 else 1 }) := by
  have ha : addOf b s = 0 := addOf_of_ne_one (by simp [hx]) b
  by_cases hr : remaining = 0
  · rw [hr, shtpCallback_last_incomplete ha (fun h => h.1 hx), transferByte_first hx]
    rfl
  · rw [shtpCallback_due (.inl hr), transferByte_first hx, ha, if_neg hr, hx]
    rfl

/-- Settles O29: the first byte by itself is `shtpCallback_first`. -/
theorem firstByteIsLatched : Obligations.FirstByteIsLatched := by
  intro b remaining s hx
  rw [exec_shtpCb, shtpCallback_first (s := s.beginStep) hx]
  rfl

/-- Settles O28: the two kinds of a callback-table entry. -/
theorem dispatchSelectsCallback : Obligations.DispatchSelectsCallback := by
  refine ⟨fun _ _ _ => ⟨rfl, rfl⟩, fun addr b remaining s => ⟨fun hk => ?_, fun hk => ?_⟩⟩
  · rw [exec_dispatch, dispatchByte_none (s := s.beginStep) hk]
    rfl
  · rw [exec_dispatch, dispatchByte_shtp (s := s.beginStep) hk]
    rfl

/-- A returned value is all that a quiet step puts out. -/
theorem returnValue_quiet (h : s.out = Output.quiet) (r : PrimResult) : s.returnValue r = { s with out := outRet r } := by
  rw [State.returnValue, h]
  rfl

/-- A byte that is only taken in, as a primitive by itself (R222, log entry 14). -/
theorem exec_shtpCb_more (h : remaining ≠ 0 ∨ addOf b s ≠ 0) :
    exec (.shtpCb b remaining) s =
      .next { (transferByte b s.beginStep).2 with xfIdx := nextIdx s.xfIdx, out := outRet (.add (addOf b s)) } := by
  have hout : (transferByte b s.beginStep).2.out = Output.quiet := (framingFrame_transferByte s.beginStep b).out
  rw [exec_shtpCb, shtpCallback_due (s := s.beginStep) h]
  exact congrArg Host.Outcome.next
    (returnValue_quiet (s := { (transferByte b s.beginStep).2 with xfIdx := nextIdx s.xfIdx }) hout _)

theorem Storing.ne_one (h : Storing s) : s.xfIdx ≠ 1 := by
  rcases h with hx | ⟨hx | hx, -⟩ <;> simp [hx]

/-- A stored byte with more due: what `STORE` does, and the position advances (R222, R229). -/
theorem exec_shtpCb_storing (h : Storing s) (hr : remaining ≠ 0) (b : Byte) :
    exec (.shtpCb b remaining) s =
      .next { storeByte b s.beginStep with xfIdx := nextIdx s.xfIdx, out := outRet (.add 0) } := by
  rw [exec_shtpCb_more (.inl hr), Storing.transferByte (s := s.beginStep) h, addOf_of_ne_one h.ne_one]

theorem nextIdx_of_ne_four {i : Fin 5} (h : i ≠ 4) : nextIdx i = i + 1 := if_neg h

/-- Settles O32: dropped in append mode, else what `STORE` does, and the position advances up to 4. -/
theorem laterBytesAreStored : Obligations.LaterBytesAreStored := by
  refine ⟨fun _ _ => ⟨rfl, rfl⟩, fun b remaining s hr => ⟨fun hx happ => ?_, fun hx happ => ?_, fun hx => ?_⟩⟩
  · have hne : s.xfIdx ≠ 4 := by rcases hx with hx | hx <;> simp [hx]
    have ha : addOf b s = 0 := addOf_of_ne_one (by rcases hx with hx | hx <;> simp [hx]) b
    rw [exec_shtpCb_more (.inl hr), transferByte_dropped (s := s.beginStep) hx happ, ha, nextIdx_of_ne_four hne]
    rfl
  · have hne : s.xfIdx ≠ 4 := by rcases hx with hx | hx <;> simp [hx]
    refine ⟨_, exec_store b s, ?_⟩
    rw [exec_shtpCb_storing (.inr ⟨hx, happ⟩) hr, nextIdx_of_ne_four hne]
  · refine ⟨_, exec_store b s, ?_⟩
    have hkeep : nextIdx s.xfIdx = (storeByte b s.beginStep).xfIdx := by
      rw [hx]
      unfold storeByte
      split <;> exact hx.symm
    rw [exec_shtpCb_storing (.inl hx) hr, hkeep]

/-! ### Byte 1 of a transfer -/

theorem noteOverlong_eq (len : Nat) (s : State) :
    noteOverlong len s = { s with err := if s.cfg.rxcap < len then s.err ||| errMask .ovf else s.err } := by
  unfold noteOverlong State.raise
  split <;> rfl

/-- Fresh mode: the two length bytes are all that is held (R224, R227, R232). -/
theorem startFresh_eq (hroom : 2 ≤ s.cfg.rxcap) (byte0 byte1 : Byte) (len : Nat) :
    startFresh byte0 byte1 len s =
      { s with
        rxbuf := (s.rxbuf.write 0 byte0).write 1 byte1
        rxCur := 2
        app := false
        frameLen := BitVec.ofNat 16 len } := by
  have h0 := storeByte_room { s with app := false, rxCur := 0 } byte0 (show 0 < s.cfg.rxcap by omega)
  have h1 := storeByte_room { s with app := false, rxCur := 1, rxbuf := s.rxbuf.write 0 byte0 } byte1
    (show 1 < s.cfg.rxcap by omega)
  rw [startFresh, h0]
  exact congrArg (fun u : State => { u with frameLen := BitVec.ofNat 16 len }) h1

/-- The length a header announces, from byte 1 and the latched byte 0 (R111). -/
def claimedLen (b : Byte) (s : State) : Nat := headerLen (headerRaw s.h0 b)

theorem claimedLen_eq (b : Byte) (s : State) : claimedLen b s = (b.toNat % 128) * 256 + s.h0.toNat := headerLen_eq s.h0 b

/-- Byte 1 in fresh mode (R224, R226, R227). -/
theorem headerByte_fresh (hv : s.cfg.Valid) (hfresh : ¬(b.getLsbD 7 = true ∧ s.rxCur ≠ 0)) :
    (headerByte b s).2 =
      { s with
        rxbuf := (s.rxbuf.write 0 s.h0).write 1 b
        rxCur := 2
        app := false
        frameLen := BitVec.ofNat 16 (clampLen s.cfg (claimedLen b s))
        err := if s.cfg.rxcap < claimedLen b s then s.err ||| errMask .ovf else s.err } := by
  have hmode : ¬(headerCont (headerRaw s.h0 b) && decide (0 < s.rxCur.toNat)) = true := by
    rw [headerCont_eq, Bool.and_eq_true, decide_eq_true_eq]
    exact fun h => hfresh ⟨h.1, fun h0 => absurd h.2 (by rw [h0]; decide)⟩
  have hroom : 2 ≤ s.cfg.rxcap := by omega
  rw [headerByte, noteOverlong_eq]
  simp only [if_neg hmode]
  rw [startFresh_eq (by exact hroom)]
  rfl

/-- Byte 1 in append mode (R224, R226, R227). -/
theorem headerByte_append (hcont : b.getLsbD 7 = true) (hheld : s.rxCur ≠ 0) :
    (headerByte b s).2 =
      { s with
        app := true
        frameLen := BitVec.ofNat 16 (min (s.rxCur.toNat + (clampLen s.cfg (claimedLen b s) - 4)) s.cfg.rxcap)
        err := if s.cfg.rxcap < claimedLen b s then s.err ||| errMask .ovf else s.err } := by
  have hpos : 0 < s.rxCur.toNat := Nat.pos_of_ne_zero fun h0 => hheld (BitVec.eq_of_toNat_eq h0)
  have hmode : (headerCont (headerRaw s.h0 b) && decide (0 < s.rxCur.toNat)) = true := by
    rw [headerCont_eq, hcont, decide_eq_true hpos]
    rfl
  rw [headerByte, noteOverlong_eq]
  simp only [if_pos hmode, ← contribution_eq]
  rfl

theorem addOf_second (hx : s.xfIdx = 1) (b : Byte) :
    addOf b s = BitVec.ofNat 16 (clampLen s.cfg (claimedLen b s) - 4) := by
  rw [addOf, if_pos hx, contribution_eq]
  rfl

theorem ofNat16_ne_zero {n : Nat} (h0 : n ≠ 0) (h : n < 65536) : BitVec.ofNat 16 n ≠ 0 := fun hz =>
  h0 ((Nat.mod_eq_of_lt h).symm.trans (congrArg BitVec.toNat hz))

/-- A header that announces a payload asks for it (R226). -/
theorem addOf_ne_zero (hv : s.cfg.Valid) (hx : s.xfIdx = 1) (hlen : 4 < clampLen s.cfg (claimedLen b s)) :
    addOf b s ≠ 0 := by
  have hle := clampLen_le s.cfg (claimedLen b s)
  rw [addOf_second hx]
  exact ofNat16_ne_zero (by omega) (by omega)

/-- Byte 1 with more bytes due, or asked for by it. -/
theorem exec_shtpCb_second (hv : s.cfg.Valid) (hx : s.xfIdx = 1)
    (hmore : remaining ≠ 0 ∨ 4 < clampLen s.cfg (claimedLen b s)) :
    exec (.shtpCb b remaining) s =
      .next { (headerByte b s.beginStep).2 with
                xfIdx := 2
                out := outRet (.add (BitVec.ofNat 16 (clampLen s.cfg (claimedLen b s) - 4))) } := by
  rw [exec_shtpCb_more (hmore.imp_right (addOf_ne_zero hv hx)), transferByte_second (s := s.beginStep) hx,
    addOf_second hx, hx]
  rfl

/-- Settles O30: byte 1 is `headerByte`, and two writes read back. -/
theorem freshHeaderStartsFrame : Obligations.FreshHeaderStartsFrame := by
  intro b remaining s claimed len hv hw hx hfresh hclaimed hlen hmore
  rw [← claimedLen_eq] at hclaimed
  subst hclaimed
  have hlen' : len = clampLen s.cfg (claimedLen b s) := hlen
  subst hlen'
  refine ⟨_, exec_shtpCb_second hv hx hmore, ?_⟩
  rw [headerByte_fresh (s := s.beginStep) hv hfresh]
  have hwf := rxWf_of_tablesWf hw
  have hread : ∀ k, ((s.rxbuf.write 0 s.h0).write 1 b).read k =
      if k = 1 then b else if k = 0 then s.h0 else rxAt s k := fun k => by
    rw [Memory.read_write (Memory.write_wf hwf 0 s.h0), Memory.read_write hwf]
    rfl
  refine ⟨rfl, hread 0, hread 1, fun k hk => (hread k).trans ?_⟩
  rw [if_neg (by omega), if_neg (by omega)]

/-- Settles O31: byte 1 is `headerByte` in append mode. -/
theorem continuationHeaderAppends : Obligations.ContinuationHeaderAppends := by
  intro b remaining s claimed len hv hx hcont hheld hclaimed hlen hmore
  rw [← claimedLen_eq] at hclaimed
  subst hclaimed
  have hlen' : len = clampLen s.cfg (claimedLen b s) := hlen
  subst hlen'
  rw [exec_shtpCb_second hv hx hmore, headerByte_append (s := s.beginStep) hcont hheld]
  rfl

/-! ### The end of a transfer -/

/-- Settles O33: the three ways a byte with none due can go; in the state `u` that the byte leaves with one still due, the
delivery finds what it finds in the transfer. -/
theorem transferEndDelivers : Obligations.TransferEndDelivers := by
  intro b s u hu
  have hout : (transferByte b s.beginStep).2.out = Output.quiet := (framingFrame_transferByte s.beginStep b).out
  rw [exec_shtpCb_more (.inl (by decide))] at hu
  cases hu
  refine ⟨fun add hadd hne => ?_, fun hadd hf => ?_, fun hadd hx hf v hv => ?_⟩
  · cases hadd
    exact exec_shtpCb_more (.inr hne)
  · have ha : addOf b s = 0 := by simpa [outRet] using hadd
    rw [exec_shtpCb, shtpCallback_last_incomplete (s := s.beginStep) ha hf, ha]
    exact congrArg Host.Outcome.next (returnValue_quiet (s := { (transferByte b s.beginStep).2 with xfIdx := 0 }) hout _)
  · have ha : addOf b s = 0 := by simpa [outRet] using hadd
    have hdeliver : deliverFrame { (transferByte b s.beginStep).2 with xfIdx := nextIdx s.xfIdx } = .ok v := by
      have hv' := outcomeOf_ok (hv : outcomeOf (deliverFrame _) = .next v)
      have hquiet : { (transferByte b s.beginStep).2 with xfIdx := nextIdx s.xfIdx, out := Output.quiet } =
          { (transferByte b s.beginStep).2 with xfIdx := nextIdx s.xfIdx } := by rw [← hout]
      exact (congrArg deliverFrame hquiet).symm.trans hv'
    rw [exec_shtpCb, shtpCallback_last_complete (s := s.beginStep) ha hx hf]
    exact congrArg (fun r => outcomeOfAdd (r.map fun t => (0, { t with xfIdx := 0 }))) hdeliver

/-! ### DELIVER -/

/-- `s` with another output put out and other answers of SINK's to come. -/
def State.withOutside (s : State) (o : Output) (l : List (List Desc)) : State := { s with out := o, sinkAnswers := l }

/-- A busy engine is not kicked, so accepting a descriptor puts nothing out (R141). -/
theorem acceptDesc_withOutside (hst : s.stage ≠ .idle) (d : Desc) (i : Nat) (o : Output) (l : List (List Desc)) :
    acceptDesc d i (s.withOutside o l) = (acceptDesc d i s).withOutside o l := by
  have hst' : (s.withOutside o l).stage ≠ .idle := hst
  rw [acceptDesc_eq, acceptDesc_eq, if_neg hst, if_neg hst, if_neg hst', if_neg hst']
  rfl

theorem allocAndAccept_withOutside (hst : s.stage ≠ .idle) (d : Desc) (o : Output) (l : List (List Desc)) :
    allocAndAccept d (s.withOutside o l) = ((allocAndAccept d s).1, (allocAndAccept d s).2.withOutside o l) := by
  rcases allocAndAccept_cases s d with ⟨i, hi, he⟩ | ⟨hall, hq, i, hi, he⟩ | ⟨hall, hq, he⟩
  · rw [he, allocAndAccept_leastFree (s := s.withOutside o l) hi]
    exact congrArg (Prod.mk true) (acceptDesc_withOutside (s := s.setUsed i true) hst d i o l)
  · rw [he, allocAndAccept_reclaim (s := s.withOutside o l) hall hq hi]
    exact congrArg (Prod.mk true) (acceptDesc_withOutside (s := (reclaim s).setUsed i true) hst d i o l)
  · rw [he, allocAndAccept_exhausted (s := s.withOutside o l) hall hq]

/-- An `ENQ` to a busy engine reads neither what was put out nor SINK's answers, and writes neither (R136, R141). -/
theorem enqueue_withOutside (hst : s.stage ≠ .idle) (d : Desc) (o : Output) (l : List (List Desc)) :
    enqueue d (s.withOutside o l) = ((enqueue d s).1, (enqueue d s).2.withOutside o l) := by
  by_cases hf : flagSet s.err .poolFatal = true
  · rw [enqueue_fatal hf, enqueue_fatal (s := s.withOutside o l) hf]
  · rw [Bool.not_eq_true] at hf
    by_cases hq : s.qCount = s.cfg.qcap
    · rw [enqueue_full hf hq, enqueue_full (s := s.withOutside o l) hf hq]
      rfl
    · rw [enqueue_room hf hq, enqueue_room (s := s.withOutside o l) hf hq]
      exact allocAndAccept_withOutside (s := { s with err := clampErr d s }) hst _ o l

/-- `ENQ` leaves a busy engine busy. -/
theorem enqueue_busy (hst : s.stage ≠ .idle) (d : Desc) : (enqueue d s).2.stage ≠ .idle := by
  by_cases h : (enqueue d s).2.stage = s.stage
  · rwa [h]
  · rw [(enqueue_stage_of_ne d h).2]
    decide

/-- SINK's `ENQ`s to a busy engine are ordinary ones, but for what is put out (R236). -/
theorem enqueueAll_eq_runEnqs (o : Output) (l : List (List Desc)) : ∀ (ds : List Desc) {s : State},
    s.stage ≠ .idle ∨ ds = [] →
    enqueueAll ds (s.withOutside o l) = ((runEnqs ds s).1, (runEnqs ds s).2.withOutside o l)
  | [], _, _ => rfl
  | d :: ds, s, hst => by
    have hbusy : s.stage ≠ .idle := hst.resolve_right (List.cons_ne_nil d ds)
    have hstep : (enqueue d s.beginStep).1 = (enqueue d s).1 ∧
        ∀ r, ((enqueue d s.beginStep).2.respond r).withOutside o l = (enqueue d s).2.withOutside o l := by
      have hb : enqueue d s.beginStep = _ := enqueue_withOutside hbusy d Output.quiet s.sinkAnswers
      rw [hb]
      exact ⟨rfl, fun _ => rfl⟩
    have ih := enqueueAll_eq_runEnqs o l ds
      (s := (enqueue d s.beginStep).2.respond (.accepted (enqueue d s.beginStep).1))
      (.inl (enqueue_busy (s := s.beginStep) hbusy d))
    rw [hstep.2] at ih
    have hans : decide (some (Response.accepted (enqueue d s.beginStep).1) = some (.accepted true)) = (enqueue d s).1 := by
      rw [hstep.1]
      cases (enqueue d s).1 <;> rfl
    simp only [enqueueAll, enqueue_withOutside hbusy, ih, runEnqs, exec_enq]
    exact congrArg (fun ok => (ok :: _, _)) hans.symm

/-- Settles O35: the frame is the one held, and SINK's `ENQ`s are those of `runEnqs`. -/
theorem deliverHandsOver : Obligations.DeliverHandsOver := by
  refine ⟨rfl, rfl, fun s u answers oks f hcur hst hans hruns hn hbytes => ?_⟩
  obtain ⟨rfl, rfl⟩ := Prod.mk.inj hruns
  have hf : f = heldFrame s := by cases f; cases hn; cases hbytes; rfl
  have henqs : enqueueAll answers (handOver s.beginStep) = _ :=
    enqueueAll_eq_runEnqs { Output.quiet with frame := some (heldFrame s) } s.sinkAnswers.tail answers (s := s) hst
  show outcomeOf (deliverFrame s.beginStep) = _
  rw [deliverFrame_ok s.beginStep hcur, show sinkAnswer s.beginStep = answers from hans.symm, henqs, hf]
  rfl

/-! ### What clears `awaiting` -/

/-- `t` has the awaiting flag of `s`, and the frame put out in `s`, if any. -/
structure NoDelivery (s t : State) : Prop where
  awaiting : t.awaiting = s.awaiting
  frame : t.out.frame = s.out.frame

/-- `t` has just delivered a frame: the buffer is empty and nothing is awaited (R235). -/
structure Delivered (t : State) : Prop where
  awaiting : t.awaiting = false
  rxCur : t.rxCur = 0
  frameLen : t.frameLen = 0
  frame : t.out.frame.isSome = true

theorem NoDelivery.trans (h1 : NoDelivery s t) (h2 : NoDelivery t u) : NoDelivery s u :=
  ⟨h2.awaiting.trans h1.awaiting, h2.frame.trans h1.frame⟩

theorem QueueFrame.noDelivery (f : QueueFrame s t) : NoDelivery s t := ⟨f.awaiting, f.frame⟩

theorem FramingFrame.noDelivery (f : FramingFrame s t) : NoDelivery s t := ⟨f.awaiting, congrArg Output.frame f.out⟩

theorem noDelivery_alloc (s : State) : NoDelivery s (alloc s).2 := by
  rcases alloc_cases s with ⟨i, -, -, -, h⟩ | ⟨-, h⟩ <;> rw [h] <;> exact ⟨rfl, rfl⟩

theorem noDelivery_deq (s : State) : NoDelivery s (deq s).2 := by
  by_cases h : s.qCount = 0
  · rw [deq_empty s h]; exact ⟨rfl, rfl⟩
  · rw [deq_some s h]; exact ⟨rfl, rfl⟩

theorem noDelivery_release {i : Nat} (h : release i s = .ok t) : NoDelivery s t := by
  rcases release_cases s i with ⟨-, he⟩ | ⟨-, he⟩
  · cases he.symm.trans h; exact ⟨rfl, rfl⟩
  · cases he.symm.trans h

theorem noDelivery_writeNextOf (d : Desc) (s : State) : NoDelivery s (writeNextOf d s) := by
  rcases writeNextOf_cases d s with ⟨b, -, -, h⟩ | ⟨-, -, h⟩ | ⟨-, -, h⟩ <;> rw [h] <;> exact ⟨rfl, rfl⟩

theorem noDelivery_beginReadOf (d : Desc) (s : State) : NoDelivery s (beginReadOf d s) := by
  rcases beginReadOf_cases d s with ⟨-, h⟩ | ⟨-, h⟩ <;> rw [h] <;> exact ⟨rfl, rfl⟩

theorem noDelivery_ackRule (sub : SubPhase) (d : Desc) (s : State) : NoDelivery s (ackRule sub d s) := by
  unfold ackRule
  split
  · exact noDelivery_writeNextOf d s
  · exact noDelivery_beginReadOf d s

/-- A rule on the active transaction delivers nothing if it delivers nothing on any descriptor. -/
theorem noDelivery_withActive {f : Desc → State → State} (hf : ∀ d, NoDelivery s (f d s))
    (h : withActive f s = .ok t) : NoDelivery s t := by
  rcases withActive_cases f s with ⟨-, he⟩ | ⟨i, -, -, he⟩ | ⟨i, -, -, he⟩
  · cases he.symm.trans h; exact ⟨rfl, rfl⟩
  · cases he.symm.trans h; exact hf _
  · cases he.symm.trans h

theorem noDelivery_startNext (h : startNext s = .ok t) : NoDelivery s t := by
  by_cases hq : s.qCount = 0
  · cases (startNext_empty hq).symm.trans h; exact ⟨rfl, rfl⟩
  · rcases Nat.lt_or_ge (fifoAt s s.qHead) s.cfg.nslot with hi | hi
    · cases (startNext_pop hq hi).symm.trans h; exact ⟨rfl, rfl⟩
    · cases (startNext_missing hq hi).symm.trans h

/-- The release of the active slot and what follows it (R190). -/
theorem noDelivery_stop (h : (retire s).map restartOrIdle = .ok t) : NoDelivery s t := by
  have hgo : ∀ u : State, NoDelivery u (restartOrIdle u) := fun u => by
    rcases restartOrIdle_cases u with ⟨-, he⟩ | ⟨-, he⟩ <;> rw [he] <;> exact ⟨rfl, rfl⟩
  rcases retire_cases s with ⟨-, he⟩ | ⟨i, -, -, he⟩ | ⟨i, -, -, he⟩
  · rw [he] at h; cases h; exact hgo s
  · rw [he] at h; cases h; exact NoDelivery.trans (t := { s.setUsed i false with active := none }) ⟨rfl, rfl⟩ (hgo _)
  · rw [he] at h; cases h

/-- `DELIVER` (R235). -/
theorem delivered_deliver (h : deliverFrame s = .ok t) : Delivered t := by
  rcases Nat.lt_or_ge s.cfg.rxcap s.rxCur.toNat with hc | hc
  · cases (deliverFrame_error s hc).symm.trans h
  · cases (deliverFrame_ok s hc).symm.trans h
    have hframe := (queueFrame_enqueueAll (sinkAnswer s) (handOver s)).frame
    exact ⟨rfl, rfl, rfl, congrArg Option.isSome hframe⟩

/-- A byte given to the callback delivers nothing, or a frame with the transfer's last byte (R222, R233). -/
theorem shtpCallback_delivery {r : Half × State} (h : shtpCallback b remaining s = .ok r) :
    NoDelivery s r.2 ∨ Delivered r.2 := by
  have hbyte := (framingFrame_transferByte s b).noDelivery
  rcases shtpCallback_cases s b remaining with ⟨-, he⟩ | ⟨-, -, -, he⟩ | ⟨-, -, -, he⟩
  · cases he.symm.trans h; exact .inl (hbyte.trans ⟨rfl, rfl⟩)
  · cases he.symm.trans h; exact .inl (hbyte.trans ⟨rfl, rfl⟩)
  · rw [he] at h
    cases hd : deliverFrame { (transferByte b s).2 with xfIdx := nextIdx s.xfIdx } with
    | error f => rw [hd] at h; cases h
    | ok v =>
      rw [hd] at h
      cases h
      exact .inr { delivered_deliver hd with }

theorem dispatchByte_delivery {addr : BitVec 7} {r : Half × State} (h : dispatchByte addr b remaining s = .ok r) :
    NoDelivery s r.2 ∨ Delivered r.2 := by
  cases hk : kindAt s addr with
  | none => cases (dispatchByte_none hk b remaining).symm.trans h; exact .inl ⟨rfl, rfl⟩
  | shtp => rw [dispatchByte_shtp hk] at h; exact shtpCallback_delivery h

/-- A received byte delivers what its dispatch delivers (R185). -/
theorem receiveByte_delivery {i : Nat} (h : receiveByte b i s = .ok t) : NoDelivery s t ∨ Delivered t := by
  rcases Nat.lt_or_ge i s.cfg.nslot with hi | hi
  · rw [receiveByte_of_lt hi] at h
    cases hd : dispatchByte (poolAt s i).addr b (bytesRemaining (poolAt s i).rlen (nextRcount s.rcount))
        { s with rcount := nextRcount s.rcount } with
    | error f => rw [hd] at h; cases h
    | ok r =>
      rw [hd] at h
      cases h
      simp only [acknowledge_eq]
      exact (dispatchByte_delivery hd).imp (fun k => ⟨k.awaiting, k.frame⟩) fun k => { k with }
  · cases (receiveByte_missing hi b).symm.trans h

/-- Of the completion events only `EV_RX` can deliver. -/
theorem event_delivery {op : Instr} (hop : isEvent op = true) (hx : exec op s = .next t) :
    NoDelivery s.beginStep t ∨ Delivered t := by
  cases he : expectedAt s.stage s.sub op with
  | false => cases (exec_of_unexpected hop he).symm.trans hx; exact .inl ⟨rfl, rfl⟩
  | true =>
    cases op with
    | evStart =>
      rcases expectedAt_evStart.1 he with hst | ⟨hst, hsub⟩
      · rw [exec_evStart_starting hst] at hx
        exact .inl (noDelivery_startNext (outcomeOf_ok hx))
      · rw [exec_evStart_reStart hst hsub] at hx
        exact .inl (noDelivery_withActive (fun _ => ⟨rfl, rfl⟩) (outcomeOf_ok hx))
    | evTxAck =>
      by_cases ha : s.active = none
      · cases (exec_evTxAck_none ha).symm.trans hx; exact .inl ⟨rfl, rfl⟩
      · rw [exec_evTxAck_expected he ha] at hx
        have hk := noDelivery_withActive (noDelivery_ackRule s.sub · _) (outcomeOf_ok hx)
        exact .inl ⟨hk.awaiting, hk.frame⟩
    | evTxNack => cases (exec_evTxNack_expected he).symm.trans hx; exact .inl ⟨rfl, rfl⟩
    | evRx b =>
      obtain ⟨hst, hsub⟩ := expectedAt_evRx.1 he
      cases ha : s.active with
      | none => cases (exec_evRx_none ha b).symm.trans hx; exact .inl ⟨rfl, rfl⟩
      | some i =>
        rw [exec_evRx_reading hst hsub ha] at hx
        exact receiveByte_delivery (outcomeOf_ok hx)
    | evStop =>
      rw [exec_evStop_stopping (expectedAt_evStop.1 he)] at hx
      exact .inl (noDelivery_stop (outcomeOf_ok hx))
    | evReserved code => simp [expectedAt_evReserved] at he
    | _ => simp [isEvent] at hop

/-- All that any operation but `AWAIT_SET` and `RESET` does to `awaiting`. -/
theorem exec_delivery {op : Instr} (hawait : op ≠ .awaitSet) (hreset : op ≠ .reset) (hx : exec op s = .next t) :
    NoDelivery s.beginStep t ∨ Delivered t := by
  cases op with
  | awaitSet => exact absurd rfl hawait
  | reset => exact absurd rfl hreset
  | nop | size | status | hcReserved | reclaim | push
  | bcNone | bcStart | bcTx | bcRx | bcAckRx | bcNackStop | bcStop => cases hx; exact .inl ⟨rfl, rfl⟩
  | bcReserved => cases hx
  | enq d =>
    cases hx
    exact .inl ((queueFrame_enqueue s.beginStep d).noDelivery.trans ⟨rfl, rfl⟩)
  | regcb addr kind =>
    rcases kind_cases kind with rfl | rfl | hk
    · cases hx; exact .inl ⟨rfl, rfl⟩
    · cases hx; exact .inl ⟨rfl, rfl⟩
    · cases (exec_regcb_reserved addr hk s).symm.trans hx; exact .inl ⟨rfl, rfl⟩
  | evStart | evTxAck | evTxNack | evRx | evStop | evReserved => exact event_delivery rfl hx
  | alloc => cases hx; exact .inl ((noDelivery_alloc s.beginStep).trans ⟨rfl, rfl⟩)
  | deq => cases hx; exact .inl ((noDelivery_deq s.beginStep).trans ⟨rfl, rfl⟩)
  | release slot => exact .inl (noDelivery_release (outcomeOf_ok hx))
  | writeNext => exact .inl (noDelivery_withActive (noDelivery_writeNextOf · _) (outcomeOf_ok hx))
  | beginRead => exact .inl (noDelivery_withActive (noDelivery_beginReadOf · _) (outcomeOf_ok hx))
  | dispatch addr b remaining =>
    obtain ⟨p, hp, rfl⟩ := outcomeOfAdd_ok hx
    exact (dispatchByte_delivery hp).imp (·.trans ⟨rfl, rfl⟩) fun k => { k with }
  | shtpCb b remaining =>
    obtain ⟨p, hp, rfl⟩ := outcomeOfAdd_ok hx
    exact (shtpCallback_delivery hp).imp (·.trans ⟨rfl, rfl⟩) fun k => { k with }
  | store b => cases hx; exact .inl (framingFrame_storeByte s.beginStep b).noDelivery
  | deliver => exact .inr (delivered_deliver (outcomeOf_ok hx))

/-- Settles O55: an operation delivers, or leaves `awaiting`, or is `AWAIT_SET`, which sets it, or `RESET`. -/
theorem awaitingClearedByDelivery : Obligations.AwaitingClearedByDelivery := by
  intro op s t hx
  by_cases hreset : op = .reset
  · subst hreset
    cases hx
    exact ⟨fun _ _ => .inl rfl, nofun⟩
  · by_cases hawait : op = .awaitSet
    · subst hawait
      cases hx
      exact ⟨nofun, nofun⟩
    · rcases exec_delivery hawait hreset hx with k | k
      · refine ⟨fun hs ht => ?_, fun h => ?_⟩
        · exact absurd (ht.symm.trans (k.awaiting.trans hs)) (by decide)
        · rw [k.frame] at h; cases h
      · exact ⟨fun _ _ => .inr k.frame, fun _ => ⟨k.awaiting, k.rxCur, k.frameLen⟩⟩

end Sys2Proof.Machine

/-! ## Frames end to end

A transfer whose bytes are stored is followed by the bytes it holds (`Collecting`): through the `SHTP_CB` calls of a
transfer, and through the `EV_RX` events of a read (42_dispatch_framing.md R230 to R239, 20_memory.md R83). -/

namespace Sys2Proof.Machine

variable {s t u : State} {i n : Nat} {b b0 b1 : Byte} {l rest : List Byte} {remaining : Half}

/-! ### The bytes held -/

/-- The bytes the receive buffer holds (R115, R235). -/
def heldBytes (s : State) : List Byte := (List.range s.rxCur.toNat).map (rxAt s)

/-- The frame of these bytes (R115). -/
def frameOf (l : List Byte) : Frame := { n := BitVec.ofNat 16 l.length, bytes := l }

theorem heldBytes_length (s : State) : (heldBytes s).length = s.rxCur.toNat := by
  rw [heldBytes, List.length_map, List.length_range]

theorem heldFrame_eq (s : State) : heldFrame s = frameOf (heldBytes s) := by
  rw [frameOf, heldBytes_length, BitVec.ofNat_toNat, BitVec.setWidth_eq]
  rfl

theorem deliverFrame_frame (h : deliverFrame s = .ok t) : t.out.frame = some (heldFrame s) := by
  rcases Nat.lt_or_ge s.cfg.rxcap s.rxCur.toNat with hc | hc
  · cases (deliverFrame_error s hc).symm.trans h
  · cases (deliverFrame_ok s hc).symm.trans h
    exact (queueFrame_enqueueAll (sinkAnswer s) (handOver s)).frame

/-- A byte stored where there is room is held after the others (R228). -/
theorem heldBytes_storeByte (hv : s.cfg.Valid) (hw : s.rxbuf.wf = true) (hroom : s.rxCur.toNat < s.cfg.rxcap) (b : Byte) :
    heldBytes (storeByte b s) = heldBytes s ++ [b] := by
  have hnext : (s.rxCur + 1).toNat = s.rxCur.toNat + 1 := by
    rw [BitVec.toNat_add, show (1 : Half).toNat = 1 from rfl]
    omega
  have hread : ∀ j, (s.rxbuf.write s.rxCur.toNat b).read j = if j = s.rxCur.toNat then b else rxAt s j := fun j =>
    Memory.read_write hw s.rxCur.toNat j b
  rw [storeByte_room s b hroom]
  show (List.range (s.rxCur + 1).toNat).map (s.rxbuf.write s.rxCur.toNat b).read = _
  rw [hnext, List.range_succ, List.map_append, List.map_singleton, hread, if_pos rfl]
  refine congrArg (· ++ [b]) (List.map_congr_left fun j hj => ?_)
  rw [hread, if_neg (Nat.ne_of_lt (List.mem_range.1 hj))]

/-! ### A transfer that stores its bytes -/

/-- The bytes of the current transfer are being stored: `l` is held, and the frame is complete at `n` bytes. -/
structure Collecting (s : State) (l : List Byte) (n : Nat) : Prop where
  storing : Storing s
  valid : s.cfg.Valid
  rxWf : s.rxbuf.wf = true
  held : heldBytes s = l
  frameLen : s.frameLen.toNat = n

theorem Collecting.rxCur (c : Collecting s l n) : s.rxCur.toNat = l.length := by rw [← heldBytes_length, c.held]

/-- The state after a stored byte of a transfer (R222). -/
def State.collect (s : State) (b : Byte) : State := { storeByte b s with xfIdx := nextIdx s.xfIdx }

theorem framingFrame_collect (s : State) (b : Byte) : FramingFrame s (s.collect b) :=
  { framingFrame_storeByte s b with }

theorem storing_next (h : Storing s) (happ : t.app = s.app) (hx : t.xfIdx = nextIdx s.xfIdx) : Storing t := by
  rcases h with h4 | ⟨h2 | h3, hfresh⟩
  · exact .inl (by rw [hx, h4]; rfl)
  · exact .inr ⟨.inr (by rw [hx, h2]; rfl), happ.trans hfresh⟩
  · exact .inl (by rw [hx, h3]; rfl)

theorem Collecting.collect (c : Collecting s l n) (hroom : l.length < s.cfg.rxcap) (b : Byte) :
    Collecting (s.collect b) (l ++ [b]) n := by
  have hcur : s.rxCur.toNat < s.cfg.rxcap := c.rxCur ▸ hroom
  have hheld : heldBytes (storeByte b s) = l ++ [b] := by rw [heldBytes_storeByte c.valid c.rxWf hcur, c.held]
  have hs := storeByte_room s b hcur
  refine ⟨storing_next c.storing ?_ rfl, ?_, ?_, hheld, ?_⟩
  · show (storeByte b s).app = _; rw [hs]
  · rw [(framingFrame_collect s b).cfg]; exact c.valid
  · show (storeByte b s).rxbuf.wf = true; rw [hs]; exact Memory.write_wf c.rxWf _ _
  · show (storeByte b s).frameLen.toNat = n; rw [hs]; exact c.frameLen

/-- A byte with more due (R222, R229). -/
theorem Collecting.exec_due (c : Collecting s l n) (hroom : l.length < s.cfg.rxcap) (hr : remaining ≠ 0) (b : Byte) :
    exec (.shtpCb b remaining) s = .next { s.beginStep.collect b with out := outRet (.add 0) }
    ∧ Collecting { s.beginStep.collect b with out := outRet (.add 0) } (l ++ [b]) n := by
  have c' : Collecting s.beginStep l n := { c with }
  exact ⟨exec_shtpCb_storing c.storing hr b, { c'.collect hroom b with }⟩

theorem Collecting.addOf (c : Collecting s l n) (b : Byte) : addOf b s = 0 := addOf_of_ne_one c.storing.ne_one b

/-- The state after the last byte of a transfer that leaves the frame incomplete (R233). -/
theorem Collecting.exec_last_incomplete (c : Collecting s l n) (hroom : l.length < s.cfg.rxcap) (hn : l.length + 1 < n)
    (b : Byte) :
    exec (.shtpCb b 0) s = .next { s.beginStep.collect b with xfIdx := 0, out := outRet (.add 0) } := by
  have c' : Collecting s.beginStep l n := { c with }
  have c1 := c'.collect hroom b
  have hcur : (storeByte b s.beginStep).rxCur.toNat = l.length + 1 := c1.rxCur.trans (by simp)
  have hlen : (storeByte b s.beginStep).frameLen.toNat = n := c1.frameLen
  have hout : (storeByte b s.beginStep).out = Output.quiet := (framingFrame_storeByte s.beginStep b).out
  rw [exec_shtpCb, shtpCallback_last_incomplete (c'.addOf b), c'.storing.transferByte]
  · exact congrArg Host.Outcome.next (returnValue_quiet (s := { storeByte b s.beginStep with xfIdx := 0 }) hout _)
  · rw [c'.storing.transferByte, BitVec.le_def, hcur, hlen]
    exact fun h => absurd h.2 (by omega)

/-- The last byte of a transfer that completes the frame delivers it (R233, R235). -/
theorem Collecting.exec_last (c : Collecting s l n) (hroom : l.length < s.cfg.rxcap) (hn : n ≤ l.length + 1) (b : Byte) :
    ∃ t, exec (.shtpCb b 0) s = .next t ∧ t.out.ret = some (.add 0) ∧ Delivered t ∧ t.xfIdx = 0
      ∧ t.out.frame = some (frameOf (l ++ [b])) := by
  have c' : Collecting s.beginStep l n := { c with }
  have c1 := c'.collect hroom b
  have hcur : (s.beginStep.collect b).rxCur.toNat = l.length + 1 := c1.rxCur.trans (by simp)
  have hcap : (s.beginStep.collect b).rxCur.toNat ≤ (s.beginStep.collect b).cfg.rxcap := by
    rw [hcur, (framingFrame_collect s.beginStep b).cfg]
    exact hroom
  obtain ⟨v, hd⟩ : ∃ v, deliverFrame (s.beginStep.collect b) = .ok v := ⟨_, deliverFrame_ok _ hcap⟩
  have hframe := deliverFrame_frame hd
  rw [heldFrame_eq, c1.held] at hframe
  have hx : s.beginStep.xfIdx ≠ 0 := by
    rcases c.storing with h | ⟨h | h, -⟩ <;> simp [h]
  refine ⟨State.returnValue { v with xfIdx := 0 } (.add 0), ?_, rfl, { delivered_deliver hd with }, rfl, hframe⟩
  rw [exec_shtpCb, shtpCallback_last_complete (c'.addOf b) hx, c'.storing.transferByte]
  · exact congrArg (fun r => outcomeOfAdd (r.map fun t => (0, { t with xfIdx := 0 }))) hd
  · rw [c'.storing.transferByte, BitVec.le_def]
    show (s.beginStep.collect b).frameLen.toNat ≤ (s.beginStep.collect b).rxCur.toNat
    rw [hcur, c1.frameLen]
    exact hn

/-! ### The header of a transfer -/

/-- The two bytes that announce `len` (R110, R111): the length they give, and the continuation flag. -/
theorem headerBytes_eq {len flag : Nat} (hlen : len < 32768) (hflag : flag = 0 ∨ flag = 128) :
    ((BitVec.ofNat 8 (len / 256 + flag)).toNat % 128) * 256 + (BitVec.ofNat 8 len).toNat = len
    ∧ ((BitVec.ofNat 8 (len / 256 + flag)).getLsbD 7 = true ↔ flag = 128) := by
  have hbyte : (BitVec.ofNat 8 (len / 256 + flag)).toNat = len / 256 + flag := by
    rw [BitVec.toNat_ofNat]
    omega
  refine ⟨?_, ?_⟩
  · rw [hbyte, BitVec.toNat_ofNat]
    omega
  · have hmsb := BitVec.msb_eq_decide (BitVec.ofNat 8 (len / 256 + flag))
    rw [BitVec.msb_eq_getLsbD_last, hbyte] at hmsb
    rw [hmsb, decide_eq_true_eq]
    omega

/-- The header in fresh mode leaves the two length bytes (R224, R227, R232). -/
theorem collecting_fresh (hv : s.cfg.Valid) (hw : s.rxbuf.wf = true) (hfresh : ¬(b.getLsbD 7 = true ∧ s.rxCur ≠ 0)) :
    Collecting { (headerByte b s).2 with xfIdx := 2 } [s.h0, b] (clampLen s.cfg (claimedLen b s)) := by
  have hw0 := Memory.write_wf hw 0 s.h0
  have hle := clampLen_le s.cfg (claimedLen b s)
  rw [headerByte_fresh hv hfresh]
  refine ⟨.inr ⟨.inl rfl, rfl⟩, hv, Memory.write_wf hw0 1 b, ?_, ofNat16_toNat (by omega)⟩
  show [((s.rxbuf.write 0 s.h0).write 1 b).read 0, ((s.rxbuf.write 0 s.h0).write 1 b).read 1] = _
  rw [Memory.read_write hw0, Memory.read_write hw0, Memory.read_write hw]
  rfl

/-- The header in append mode, after the two bytes that are dropped, leaves what was held (R224, R225, R227). -/
theorem collecting_append (hv : s.cfg.Valid) (hw : s.rxbuf.wf = true) (hcont : b.getLsbD 7 = true) (hheld : s.rxCur ≠ 0) :
    Collecting { (headerByte b s).2 with xfIdx := 4 } (heldBytes s)
      (min (s.rxCur.toNat + (clampLen s.cfg (claimedLen b s) - 4)) s.cfg.rxcap) := by
  rw [headerByte_append hcont hheld]
  exact ⟨.inl rfl, hv, hw, rfl, ofNat16_toNat (by omega)⟩

/-! ### The `SHTP_CB` calls of a transfer -/

/-- The frames that a sequence of operations delivers (R83). -/
def framesOf (ops : List Instr) (s : State) : List Frame := (observeOps ops s).frames

/-- An operation that delivers nothing. -/
theorem framesOf_cons {op : Instr} (hx : exec op s = .next t) (hf : t.out.frame = none) (ops : List Instr) :
    framesOf (op :: ops) s = framesOf ops t := by
  simp only [framesOf, observeOps, observation, runOutputs_cons hx, List.filterMap_cons, hf]

theorem framesOf_singleton {op : Instr} {f : Frame} (hx : exec op s = .next t) (hf : t.out.frame = some f) :
    framesOf [op] s = [f] := by
  simp only [framesOf, observeOps, observation, runOutputs_cons hx, List.filterMap_cons, hf]
  rfl

/-- While bytes follow, the number of them that a call is given is not 0. -/
theorem length_ne_zero (hne : rest ≠ []) (hlen : rest.length < 65536) : BitVec.ofNat 16 rest.length ≠ 0 :=
  ofNat16_ne_zero (fun h0 => hne (List.eq_nil_of_length_eq_zero h0)) hlen

/-- The bytes of a transfer before some that follow are stored, and deliver nothing. -/
theorem Collecting.framesOf_due (hne : rest ≠ []) (more : List Instr) : ∀ (bs : List Byte) {s : State} {l : List Byte},
    Collecting s l n → l.length + bs.length ≤ s.cfg.rxcap → bs.length + rest.length < 65536 →
    ∃ u, Collecting u (l ++ bs) n ∧ u.cfg = s.cfg ∧
      framesOf (transferOps (bs ++ rest) ++ more) s = framesOf (transferOps rest ++ more) u
  | [], s, l, c, _, _ => ⟨s, by rwa [List.append_nil], rfl, rfl⟩
  | b :: bs, s, l, c, hcap, hlen => by
    rw [List.length_cons] at hcap hlen
    have hr : BitVec.ofNat 16 (bs ++ rest).length ≠ 0 :=
      length_ne_zero (by simp [hne]) (by rw [List.length_append]; omega)
    obtain ⟨hx, c1⟩ := c.exec_due (by omega) hr b
    have hcfg : (s.beginStep.collect b).cfg = s.cfg := (framingFrame_collect s.beginStep b).cfg
    obtain ⟨u, cu, hu, hframes⟩ := c1.framesOf_due hne more bs
      (by rw [List.length_append, List.length_singleton, hcfg]; omega) (by omega)
    refine ⟨u, by simpa using cu, hu.trans hcfg, ?_⟩
    rw [List.cons_append, transferOps, List.cons_append, framesOf_cons hx rfl, hframes]

/-- A transfer that completes the frame delivers it with its last byte. -/
theorem Collecting.framesOf_complete (c : Collecting s l n) {bs : List Byte} (hne : bs ≠ [])
    (hn : n ≤ l.length + bs.length) (hcap : l.length + bs.length ≤ s.cfg.rxcap) :
    framesOf (transferOps bs) s = [frameOf (l ++ bs)] := by
  have hv := c.valid
  obtain ⟨init, b, rfl⟩ := (List.eq_nil_or_concat' bs).resolve_left hne
  rw [List.length_append, List.length_singleton] at hn hcap
  obtain ⟨u, cu, hcfg, hframes⟩ := c.framesOf_due (rest := [b]) (List.cons_ne_nil b []) [] init (by omega)
    (by rw [List.length_singleton]; omega)
  rw [List.append_nil, List.append_nil] at hframes
  have hlen : (l ++ init).length = l.length + init.length := List.length_append
  obtain ⟨t, hx, -, -, -, hf⟩ := cu.exec_last (by rw [hlen, hcfg]; omega) (by rw [hlen]; omega) b
  rw [hframes, ← List.append_assoc]
  exact framesOf_singleton hx hf

/-- A transfer that ends before the frame is complete delivers nothing and keeps its bytes (R233). -/
theorem Collecting.framesOf_incomplete (c : Collecting s l n) {bs : List Byte} (hne : bs ≠ [])
    (hn : l.length + bs.length < n) (hcap : l.length + bs.length ≤ s.cfg.rxcap) (more : List Instr) :
    ∃ u, u.cfg = s.cfg ∧ u.rxbuf.wf = true ∧ u.xfIdx = 0 ∧ heldBytes u = l ++ bs ∧
      framesOf (transferOps bs ++ more) s = framesOf more u := by
  have hv := c.valid
  obtain ⟨init, b, rfl⟩ := (List.eq_nil_or_concat' bs).resolve_left hne
  rw [List.length_append, List.length_singleton] at hn hcap
  obtain ⟨u, cu, hcfg, hframes⟩ := c.framesOf_due (rest := [b]) (List.cons_ne_nil b []) more init (by omega)
    (by rw [List.length_singleton]; omega)
  have hlen : (l ++ init).length = l.length + init.length := List.length_append
  have hroom : (l ++ init).length < u.cfg.rxcap := by rw [hlen, hcfg]; omega
  have c1 := Collecting.collect (s := u.beginStep) { cu with } hroom b
  have hx := cu.exec_last_incomplete hroom (by rw [hlen]; omega) b
  have hcfg' : (u.beginStep.collect b).cfg = u.cfg := (framingFrame_collect u.beginStep b).cfg
  refine ⟨{ u.beginStep.collect b with xfIdx := 0, out := outRet (.add 0) }, hcfg'.trans hcfg, c1.rxWf, rfl, ?_, ?_⟩
  · rw [← List.append_assoc]; exact c1.held
  · rw [hframes]; exact framesOf_cons hx rfl more

/-- The state after byte 0 of a transfer, with bytes that follow (R223). -/
def State.latch (s : State) (b : Byte) : State := { s with h0 := b, xfIdx := 1, out := outRet (.add 0) }

theorem exec_shtpCb_first (hx : s.xfIdx = 0) (hr : remaining ≠ 0) (b : Byte) :
    exec (.shtpCb b remaining) s = .next (s.latch b) := by
  rw [firstByteIsLatched b remaining s hx, if_neg hr]
  rfl

/-- The state after the two length bytes of a transfer, with bytes that follow (R224). -/
def State.header (s : State) (b0 b1 : Byte) : State :=
  { (headerByte b1 (s.latch b0).beginStep).2 with
    xfIdx := 2
    out := outRet (.add (BitVec.ofNat 16 (clampLen s.cfg (claimedLen b1 (s.latch b0)) - 4))) }

theorem exec_shtpCb_header (hv : s.cfg.Valid) (hr : remaining ≠ 0) :
    exec (.shtpCb b1 remaining) (s.latch b0) = .next (s.header b0 b1) :=
  exec_shtpCb_second (s := s.latch b0) hv rfl (.inl hr)

theorem header_cfg (s : State) (b0 b1 : Byte) : (s.header b0 b1).cfg = s.cfg := by
  have hframe := framingFrame_transferByte (s.latch b0).beginStep b1
  rw [transferByte_second rfl] at hframe
  exact hframe.cfg

/-- The calls for the two length bytes. -/
theorem framesOf_header (hv : s.cfg.Valid) (hx : s.xfIdx = 0) (hne : rest ≠ []) (hlen : rest.length + 1 < 65536)
    (more : List Instr) :
    framesOf (transferOps (b0 :: b1 :: rest) ++ more) s = framesOf (transferOps rest ++ more) (s.header b0 b1) := by
  have hr0 := length_ne_zero (rest := b1 :: rest) (List.cons_ne_nil b1 rest) hlen
  have hr1 := length_ne_zero hne (by omega)
  rw [transferOps, transferOps, List.cons_append, List.cons_append, framesOf_cons (exec_shtpCb_first hx hr0 b0) rfl,
    framesOf_cons (exec_shtpCb_header hv hr1) rfl]

/-- In fresh mode the two length bytes are held after the header. -/
theorem collecting_header (hv : s.cfg.Valid) (hw : s.rxbuf.wf = true) (hfresh : ¬(b1.getLsbD 7 = true ∧ s.rxCur ≠ 0)) :
    Collecting (s.header b0 b1) [b0, b1] (clampLen s.cfg ((b1.toNat % 128) * 256 + b0.toNat)) := by
  have c := collecting_fresh (s := (s.latch b0).beginStep) hv hw hfresh
  rw [claimedLen_eq] at c
  exact { c with }

/-- In append mode what was held is held after the header and the two bytes that are dropped (R225). -/
theorem framesOf_continuation (hv : s.cfg.Valid) (hw : s.rxbuf.wf = true) (hx : s.xfIdx = 0) (hcont : b1.getLsbD 7 = true)
    (hheld : s.rxCur ≠ 0) (hne : rest ≠ []) (hlen : rest.length + 3 < 65536) (b2 b3 : Byte) :
    ∃ u, Collecting u (heldBytes s)
        (min (s.rxCur.toNat + (clampLen s.cfg ((b1.toNat % 128) * 256 + b0.toNat) - 4)) s.cfg.rxcap)
      ∧ u.cfg = s.cfg ∧ framesOf (transferOps (b0 :: b1 :: b2 :: b3 :: rest)) s = framesOf (transferOps rest) u := by
  have c := collecting_append (s := (s.latch b0).beginStep) hv hw hcont hheld
  rw [claimedLen_eq] at c
  have happ : (s.header b0 b1).app = true :=
    congrArg State.app (headerByte_append (s := (s.latch b0).beginStep) hcont hheld)
  have hframes := framesOf_header (b0 := b0) (b1 := b1) hv hx (List.cons_ne_nil b2 (b3 :: rest))
    (by simp only [List.length_cons]; omega) []
  rw [List.append_nil, List.append_nil] at hframes
  have hr2 := length_ne_zero (List.cons_ne_nil b3 rest) (by rw [List.length_cons]; omega)
  have hr3 := length_ne_zero hne (by omega)
  have hx2 := (laterBytesAreStored.2 b2 _ (s.header b0 b1) hr2).1 (.inl rfl) happ
  have hx3 := (laterBytesAreStored.2 b3 _ { s.header b0 b1 with xfIdx := 3, out := outRet (.add 0) } hr3).1 (.inr rfl) happ
  refine ⟨{ s.header b0 b1 with xfIdx := 4, out := outRet (.add 0) }, { c with }, header_cfg s b0 b1, ?_⟩
  rw [hframes, transferOps, framesOf_cons hx2 rfl, transferOps]
  exact framesOf_cons hx3 rfl _

theorem exists_of_take_two {f : List Byte} (h : f.take 2 = [b0, b1]) : ∃ rest, f = b0 :: b1 :: rest :=
  ⟨f.drop 2, (List.take_append_drop 2 f).symm.trans (by rw [h]; rfl)⟩

theorem clampLen_of_le {c : Config} {len : Nat} (h : len ≤ c.rxcap) : clampLen c len = len := if_neg (Nat.not_lt.2 h)

/-- A transfer `p` that announces `m` bytes, without the continuation flag: after its header its bytes are stored. -/
theorem framesOf_announced (hv : s.cfg.Valid) (hw : s.rxbuf.wf = true) (hx : s.xfIdx = 0) {p : List Byte} {m : Nat}
    (hm : m ≤ s.cfg.rxcap) (hp : p.take 2 = [BitVec.ofNat 8 m, BitVec.ofNat 8 (m / 256)]) (hlen : 2 < p.length)
    (hlen' : p.length < 65536) :
    ∃ u, Collecting u (p.take 2) m ∧ u.cfg = s.cfg ∧
      ∀ more, framesOf (transferOps p ++ more) s = framesOf (transferOps (p.drop 2) ++ more) u := by
  obtain ⟨rest, rfl⟩ := exists_of_take_two hp
  simp only [List.length_cons] at hlen hlen'
  obtain ⟨hannounced, hflag⟩ := headerBytes_eq (len := m) (flag := 0) (by omega) (.inl rfl)
  rw [Nat.add_zero] at hannounced hflag
  have c := collecting_header (b0 := BitVec.ofNat 8 m) (b1 := BitVec.ofNat 8 (m / 256)) hv hw
    fun h => absurd (hflag.1 h.1) (by decide)
  rw [hannounced, clampLen_of_le hm] at c
  exact ⟨_, c, header_cfg s _ _, framesOf_header hv hx (List.ne_nil_of_length_pos (by omega)) (by omega)⟩

/-- The first `k` bytes of a frame, as one transfer: they are held, and nothing is delivered (R233). -/
theorem framesOf_first_part (hv : s.cfg.Valid) (hw : s.rxbuf.wf = true) (hx : s.xfIdx = 0) {f : List Byte} {k : Nat}
    (hk : 2 < k) (hkf : k < f.length) (hcap : f.length ≤ s.cfg.rxcap)
    (htake : f.take 2 = [BitVec.ofNat 8 f.length, BitVec.ofNat 8 (f.length / 256)]) (more : List Instr) :
    ∃ u, u.cfg = s.cfg ∧ u.rxbuf.wf = true ∧ u.xfIdx = 0 ∧ heldBytes u = f.take k ∧
      framesOf (transferOps (f.take k) ++ more) s = framesOf more u := by
  have hklen : (f.take k).length = k := by rw [List.length_take]; omega
  have htake' : (f.take k).take 2 = [BitVec.ofNat 8 f.length, BitVec.ofNat 8 (f.length / 256)] := by
    rw [List.take_take, Nat.min_eq_left (by omega), htake]
  obtain ⟨u, c, hcfg, hframes⟩ := framesOf_announced hv hw hx hcap htake' (by omega) (by omega)
  have hlen : ((f.take k).take 2).length + ((f.take k).drop 2).length = k := by
    rw [← List.length_append, List.take_append_drop, hklen]
  obtain ⟨v, hvcfg, hvwf, hvx, hheld, hframes'⟩ := c.framesOf_incomplete (bs := (f.take k).drop 2)
    (List.ne_nil_of_length_pos (by rw [List.length_drop]; omega)) (by omega) (by rw [hlen, hcfg]; omega) more
  rw [List.take_append_drop] at hheld
  exact ⟨v, hvcfg.trans hcfg, hvwf, hvx, hheld, (hframes more).trans hframes'⟩

/-- A continuation that announces the `rest` of a frame whose first bytes `l` are held delivers the frame (R224, R225). -/
theorem framesOf_last_part (hv : s.cfg.Valid) (hw : s.rxbuf.wf = true) (hx : s.xfIdx = 0) (hheld : heldBytes s = l)
    {m : Nat} (hm : m = rest.length + 4) (hl : 4 ≤ l.length) (hne : rest ≠ [])
    (hcap : l.length + rest.length ≤ s.cfg.rxcap) (chan seq : Byte) :
    framesOf (transferOps ([BitVec.ofNat 8 m, BitVec.ofNat 8 (128 + m / 256), chan, seq] ++ rest)) s
      = [frameOf (l ++ rest)] := by
  have hcur : s.rxCur.toNat = l.length := by rw [← heldBytes_length, hheld]
  have hpos : s.rxCur.toNat ≠ 0 := by omega
  have hsome : s.rxCur ≠ 0 := fun h0 => hpos (by rw [h0]; rfl)
  obtain ⟨hannounced, hflag⟩ := headerBytes_eq (len := m) (flag := 128) (by omega) (.inr rfl)
  rw [Nat.add_comm _ 128] at hannounced hflag
  obtain ⟨u, c, hcfg, hframes⟩ := framesOf_continuation hv hw hx (hflag.2 rfl) hsome hne (by omega) chan seq
  rw [hannounced, clampLen_of_le (by omega), hcur, hheld] at c
  exact hframes.trans (c.framesOf_complete hne (by omega) (by rw [hcfg]; exact hcap))

/-- A frame as one transfer is delivered with its last byte. -/
theorem framesOf_whole (hv : s.cfg.Valid) (hw : s.rxbuf.wf = true) (hx : s.xfIdx = 0) {f : List Byte} (hlen : 2 < f.length)
    (hcap : f.length ≤ s.cfg.rxcap) (htake : f.take 2 = [BitVec.ofNat 8 f.length, BitVec.ofNat 8 (f.length / 256)]) :
    framesOf (transferOps f) s = [frameOf f] := by
  obtain ⟨u, c, hcfg, hframes⟩ := framesOf_announced hv hw hx hcap htake hlen (by omega)
  have hparts : (f.take 2).length + (f.drop 2).length = f.length := by rw [← List.length_append, List.take_append_drop]
  have hbody := c.framesOf_complete (bs := f.drop 2) (List.ne_nil_of_length_pos (by rw [List.length_drop]; omega))
    (Nat.le_of_eq hparts.symm) (by rw [hparts, hcfg]; exact hcap)
  have hall := hframes []
  rw [List.append_nil, List.append_nil, hbody, List.take_append_drop] at hall
  exact hall

/-- Settles O60: the continuation goes on from the bytes that the first transfer leaves held. -/
theorem splitFrameReassembles : Obligations.SplitFrameReassembles := by
  intro s f k chan seq hv hw hx hk hkf hcap htake
  have hwf := rxWf_of_tablesWf hw
  refine ⟨framesOf_whole hv hwf hx (by omega) hcap htake, ?_⟩
  obtain ⟨u, hcfg, huwf, hux, hheld, hframes⟩ := framesOf_first_part hv hwf hx (by omega) hkf hcap htake
    (transferOps ([BitVec.ofNat 8 (f.length - k + 4), BitVec.ofNat 8 (128 + (f.length - k + 4) / 256), chan, seq]
      ++ f.drop k))
  have hklen : (f.take k).length = k := by rw [List.length_take]; omega
  have hdrop : (f.drop k).length = f.length - k := List.length_drop
  have hlast := framesOf_last_part (by rw [hcfg]; exact hv) huwf hux hheld (m := f.length - k + 4) (by rw [hdrop])
    (by rw [hklen]; exact hk) (List.ne_nil_of_length_pos (by omega)) (by rw [hklen, hdrop, hcfg]; omega) chan seq
  rw [List.take_append_drop] at hlast
  exact hframes.trans hlast

end Sys2Proof.Machine

/-! ## A header read on the bus

The `EV_RX` events of a read from an address with the framing callback: each is the `SHTP_CB` of its byte, then the
acknowledge (41_engine_events.md R185 to R188, 42_dispatch_framing.md R230, R238). -/

namespace Sys2Proof.Machine

variable {s t u : State} {i n : Nat} {b b0 b1 : Byte} {l : List Byte} {add : Half}

/-! ### A received byte and the callback -/

/-- The engine is receiving bytes for the transaction in slot `i`, whose address has the framing callback. -/
structure FramedReading (s : State) (i : Nat) : Prop where
  inv : s.Inv
  stage : s.stage = .dataPhase
  sub : s.sub = .read
  active : s.active = some i
  callback : kindAt s (poolAt s i).addr = .shtp

theorem FramedReading.due (r : FramedReading s i) : s.rcount.toNat + 1 ≤ (poolAt s i).rlen.toNat :=
  r.inv.readingLeft r.stage r.sub i r.active

/-- `t` is what `EV_RX` makes of `u`, the state the callback leaves, when the read length becomes `n` (R185, R187, R188). -/
structure Acknowledged (s : State) (i : Nat) (u : State) (n : Nat) (t : State) : Prop where
  inv : t.Inv
  frame : t = { u with
                  pool := t.pool
                  stage := if n ≤ s.rcount.toNat + 1 then .stopping else .dataPhase
                  out := { u.out with bc := if n ≤ s.rcount.toNat + 1 then .nackStop else .ackRx, ret := none } }
  sub : t.sub = .read
  active : t.active = some i
  rcount : t.rcount.toNat = s.rcount.toNat + 1
  desc : poolAt t i = { poolAt s i with rlen := BitVec.ofNat 16 n }
  cbtab : t.cbtab = s.cbtab
  cfg : t.cfg = s.cfg
  resp : t.out.resp = none

/-- A received byte goes to the callback, and what that asks for extends the read (R185 to R187, R213). -/
theorem FramedReading.exec_evRx (r : FramedReading s i)
    (hx : exec (.shtpCb b (BitVec.ofNat 16 ((poolAt s i).rlen.toNat - (s.rcount.toNat + 1))))
      { s with rcount := s.rcount + 1 } = .next u)
    (hret : u.out.ret = some (.add add)) (hn : n = min ((poolAt s i).rlen.toNat + add.toNat) 65535) :
    ∃ t, exec (.evRx b) s = .next t ∧ Acknowledged s i u n t := by
  have hlive := active_mem_live r.active
  have hi := r.inv.queueInv.live_lt hlive
  have hcall := dispatchSelectsCallback.2 (poolAt s i).addr b
    (BitVec.ofNat 16 ((poolAt s i).rlen.toNat - (s.rcount.toNat + 1))) { s with rcount := s.rcount + 1 }
  have hd := (hcall.2 r.callback).trans hx
  obtain ⟨add', v, hv, rfl, hframe⟩ := exec_dispatch_next hd
  have du := dispatched_dispatch (s := State.beginStep { s with rcount := s.rcount + 1 }) { r.inv.queueInv with }
    { r.inv.bufferInv with } (by rw [beginStep_stage, r.stage]; decide) hv
  have hpool : poolAt v i = poolAt s i := (du.live i hlive).2
  obtain ⟨t, ht, hframe', hpool'⟩ := (receiveEventExtends.2 b s).1 i _ add n r.inv.canonical r.stage r.sub r.active hi
    r.due hd hret (hn.trans (by rw [← hpool]; rfl))
  have hstage : v.stage = .dataPhase := du.stage.trans r.stage
  have hcount : v.rcount.toNat = s.rcount.toNat + 1 :=
    (congrArg BitVec.toNat du.frame.rcount).trans (rcount_succ_toNat r.due)
  refine ⟨t, ht, r.inv.exec rfl ht, ?_, ?_, ?_, ?_, ?_, ?_, ?_, ?_⟩
  · rw [hframe', ← hstage]; rfl
  · rw [hframe']; exact du.frame.sub.trans r.sub
  · rw [hframe']; exact du.frame.active.trans r.active
  · rw [hframe']; exact hcount
  · rw [hpool', if_pos rfl, ← hpool]; rfl
  · rw [hframe']; exact du.frame.cbtab
  · rw [hframe']; exact du.frame.cfg
  · rw [hframe']; exact du.frame.resp

/-- With bytes still due the read goes on. -/
theorem Acknowledged.reading (a : Acknowledged s i u n t) (r : FramedReading s i) (hmore : s.rcount.toNat + 1 < n) :
    FramedReading t i where
  inv := a.inv
  stage := by rw [a.frame]; exact if_neg (Nat.not_le.2 hmore)
  sub := a.sub
  active := a.active
  callback := by
    rw [a.desc]
    show tableGet Kind.none t.cbtab _ = _
    rw [a.cbtab]
    exact r.callback

theorem Acknowledged.out_more (a : Acknowledged s i u n t) (hmore : s.rcount.toNat + 1 < n) :
    t.out = { u.out with bc := .ackRx, ret := none } := by
  rw [a.frame, if_neg (Nat.not_le.2 hmore), if_neg (Nat.not_le.2 hmore)]

theorem Acknowledged.rlen (a : Acknowledged s i u n t) (hn : n < 65536) : (poolAt t i).rlen.toNat = n := by
  rw [a.desc]
  exact (BitVec.toNat_ofNat ..).trans (Nat.mod_eq_of_lt hn)

/-- The framing layer's fields are as the callback leaves them. -/
theorem Acknowledged.collecting (a : Acknowledged s i u n t) {m : Nat} (c : Collecting u l m) : Collecting t l m := by
  rw [a.frame]
  exact { c with }

/-! ### The bytes after the header -/

/-- The last byte of a read has delivered the frame `l` and stopped the transaction (R188, R233, R235). -/
structure FrameRead (l : List Byte) (t : State) : Prop where
  stage : t.stage = .stopping
  rcount : t.rcount.toNat = l.length
  xfIdx : t.xfIdx = 0
  delivered : Delivered t
  frame : t.out.frame = some (frameOf l)
  bc : t.out.bc = .nackStop
  resp : t.out.resp = none

/-- A byte with more due is stored and acknowledged. -/
theorem FramedReading.exec_more (r : FramedReading s i) (c : Collecting s l n) (hroom : l.length < s.cfg.rxcap)
    (hmore : s.rcount.toNat + 1 < (poolAt s i).rlen.toNat) (b : Byte) :
    ∃ t, exec (.evRx b) s = .next t ∧ FramedReading t i ∧ Collecting t (l ++ [b]) n ∧ t.out = outBus .ackRx
      ∧ t.rcount.toNat = s.rcount.toNat + 1 ∧ (poolAt t i).rlen.toNat = (poolAt s i).rlen.toNat ∧ t.cfg = s.cfg := by
  have hmax := (poolAt s i).rlen.isLt
  have hr : BitVec.ofNat 16 ((poolAt s i).rlen.toNat - (s.rcount.toNat + 1)) ≠ 0 :=
    ofNat16_ne_zero (by omega) (by omega)
  obtain ⟨hx, cu⟩ := Collecting.exec_due (s := { s with rcount := s.rcount + 1 }) { c with } hroom hr b
  obtain ⟨t, ht, a⟩ := r.exec_evRx hx rfl (n := (poolAt s i).rlen.toNat) (by
    show _ = min ((poolAt s i).rlen.toNat + 0) 65535
    omega)
  exact ⟨t, ht, a.reading r hmore, a.collecting cu, a.out_more hmore, a.rcount, a.rlen hmax, a.cfg⟩

/-- The last byte completes the frame: it is delivered, and the transaction stops. -/
theorem FramedReading.exec_last (r : FramedReading s i) (c : Collecting s l n) (hroom : l.length < s.cfg.rxcap)
    (hn : n ≤ l.length + 1) (hcount : s.rcount.toNat = l.length) (hlast : (poolAt s i).rlen.toNat = l.length + 1)
    (b : Byte) : ∃ t, exec (.evRx b) s = .next t ∧ FrameRead (l ++ [b]) t := by
  have hmax := (poolAt s i).rlen.isLt
  obtain ⟨u, hx, hret, hdel, hidx, hframe⟩ := Collecting.exec_last (s := { s with rcount := s.rcount + 1 }) { c with }
    hroom hn b
  have hzero : (0 : Half) = BitVec.ofNat 16 ((poolAt s i).rlen.toNat - (s.rcount.toNat + 1)) := by
    rw [hlast, hcount, Nat.sub_self]
    rfl
  rw [hzero] at hx
  obtain ⟨t, ht, a⟩ := r.exec_evRx hx hret (n := l.length + 1) (by
    show _ = min ((poolAt s i).rlen.toNat + 0) 65535
    omega)
  have hle : l.length + 1 ≤ s.rcount.toNat + 1 := by omega
  have hresp := a.resp
  have hrcount : t.rcount.toNat = (l ++ [b]).length := by rw [a.rcount, hcount, List.length_append, List.length_singleton]
  have hf := a.frame
  rw [if_pos hle, if_pos hle] at hf
  refine ⟨t, ht, ?_, hrcount, ?_, ?_, ?_, ?_, hresp⟩
  · rw [hf]
  · rw [hf]; exact hidx
  · rw [hf]; exact { hdel with }
  · rw [hf]; exact hframe
  · rw [hf]

/-- The bytes of a read after the header: all but the last are acknowledged, and the last delivers the frame. -/
theorem FramedReading.run_bytes : ∀ {bs : List Byte} {s : State} {l : List Byte}, FramedReading s i → Collecting s l n →
    bs ≠ [] → s.rcount.toNat = l.length → (poolAt s i).rlen.toNat = l.length + bs.length → n ≤ l.length + bs.length →
    l.length + bs.length ≤ s.cfg.rxcap →
    ∃ t, runOps (bs.map .evRx) s = .next t ∧ FrameRead (l ++ bs) t
      ∧ runOutputs (bs.map .evRx) s = List.replicate (bs.length - 1) (outBus .ackRx) ++ [t.out]
  | [], _, _, _, _, hne, _, _, _, _ => absurd rfl hne
  | [b], s, l, r, c, _, hcount, hlen, hn, hcap => by
    rw [List.length_singleton] at hlen hn hcap
    obtain ⟨t, hx, hread⟩ := r.exec_last c (by omega) hn hcount hlen b
    exact ⟨t, runOps_cons hx [], hread, runOutputs_cons hx []⟩
  | b :: b' :: bs, s, l, r, c, _, hcount, hlen, hn, hcap => by
    rw [List.length_cons] at hlen hn hcap
    have hmore : s.rcount.toNat + 1 < (poolAt s i).rlen.toNat := by rw [List.length_cons] at hlen; omega
    obtain ⟨v, hx, r', c', hout, hcount', hlen', hcfg⟩ := r.exec_more c (by omega) hmore b
    have hl : (l ++ [b]).length = l.length + 1 := by simp
    obtain ⟨t, hrun, hread, houts⟩ := r'.run_bytes c' (List.cons_ne_nil b' bs) (by omega) (by omega) (by omega)
      (by rw [hcfg]; omega)
    refine ⟨t, ?_, ?_, ?_⟩
    · rw [List.map_cons, runOps_cons hx, hrun]
    · simpa using hread
    · rw [List.map_cons, runOutputs_cons hx, houts, hout]
      rfl

/-! ### The two length bytes -/

/-- Byte 0 of a 4-byte read is latched and acknowledged (R223). -/
theorem FramedReading.exec_first (r : FramedReading s i) (hx : s.xfIdx = 0) (hrlen : (poolAt s i).rlen = 4)
    (hcount : s.rcount = 0) (b : Byte) :
    ∃ t, exec (.evRx b) s = .next t ∧ FramedReading t i ∧ t.out = outBus .ackRx ∧ t.rcount.toNat = 1
      ∧ (poolAt t i).rlen.toNat = 4 ∧ t.cfg = s.cfg ∧ t.xfIdx = 1 ∧ t.h0 = b ∧ t.rxCur = s.rxCur := by
  have h4 : (poolAt s i).rlen.toNat = 4 := by rw [hrlen]; rfl
  have h0 : s.rcount.toNat = 0 := by rw [hcount]; rfl
  have hcall := exec_shtpCb_first (s := { s with rcount := s.rcount + 1 }) (remaining := BitVec.ofNat 16 3) hx (by decide) b
  obtain ⟨t, ht, a⟩ := r.exec_evRx (n := 4) (by rw [h4, h0]; exact hcall) rfl (by rw [h4]; rfl)
  have hmore : s.rcount.toNat + 1 < 4 := by omega
  have hframe := a.frame
  refine ⟨t, ht, a.reading r hmore, a.out_more hmore, by rw [a.rcount, h0], a.rlen (by decide), a.cfg, ?_⟩
  rw [hframe]
  exact ⟨rfl, rfl, rfl⟩

/-- Byte 1 of a 4-byte read, in fresh mode: the read becomes as long as the frame, at least 4 bytes (R226, R230). -/
theorem FramedReading.exec_second (r : FramedReading s i) (hx : s.xfIdx = 1) (hrlen : (poolAt s i).rlen.toNat = 4)
    (hcount : s.rcount.toNat = 1) (hfresh : ¬(b.getLsbD 7 = true ∧ s.rxCur ≠ 0)) :
    ∃ t, exec (.evRx b) s = .next t ∧ FramedReading t i ∧ t.out = outBus .ackRx ∧ t.rcount.toNat = 2
      ∧ (poolAt t i).rlen.toNat = max (clampLen s.cfg (claimedLen b s)) 4 ∧ t.cfg = s.cfg
      ∧ Collecting t [s.h0, b] (clampLen s.cfg (claimedLen b s))
      ∧ (s.cfg.rxcap < claimedLen b s → flagSet t.err .ovf = true) := by
  have hv := r.inv.cfgValid
  have hle := clampLen_le s.cfg (claimedLen b s)
  have hcall := exec_shtpCb_second (s := { s with rcount := s.rcount + 1 }) (b := b) (remaining := BitVec.ofNat 16 2) hv hx
    (.inl (by decide))
  have c := collecting_fresh (s := State.beginStep { s with rcount := s.rcount + 1 }) hv r.inv.bufferInv.rxWf hfresh
  have herr := congrArg State.err (headerByte_fresh (s := State.beginStep { s with rcount := s.rcount + 1 }) hv hfresh)
  have hadd : (BitVec.ofNat 16 (clampLen s.cfg (claimedLen b s) - 4)).toNat = clampLen s.cfg (claimedLen b s) - 4 :=
    ofNat16_toNat (by omega)
  obtain ⟨t, ht, a⟩ := r.exec_evRx (add := BitVec.ofNat 16 (clampLen s.cfg (claimedLen b s) - 4))
    (n := max (clampLen s.cfg (claimedLen b s)) 4) (by rw [hrlen, hcount]; exact hcall) rfl (by omega)
  have hmore : s.rcount.toNat + 1 < max (clampLen s.cfg (claimedLen b s)) 4 := by omega
  refine ⟨t, ht, a.reading r hmore, a.out_more hmore, by rw [a.rcount, hcount], a.rlen (by omega), a.cfg,
    a.collecting { c with }, fun hover => ?_⟩
  rw [a.frame]
  refine (congrArg (flagSet · .ovf) herr).trans ?_
  rw [if_pos (by exact hover), flagSet_raise]
  simp

/-! ### The whole read -/

/-- A flag once set stays set over the events of a run (R47). -/
theorem flagSet_runOps {k : ErrKind} : ∀ {bs : List Byte} {s : State}, runOps (bs.map .evRx) s = .next t →
    flagSet s.err k = true → flagSet t.err k = true
  | [], _, hrun, hk => by cases hrun; exact hk
  | b :: bs, s, hrun, hk => by
    cases hx : exec (.evRx b) s with
    | next u =>
      rw [List.map_cons, runOps_cons hx] at hrun
      exact flagSet_runOps hrun (errorFlagsAreSticky (.evRx b) s u k nofun hx hk)
    | fault f => simp [runOps, hx] at hrun
    | refused f => simp [runOps, hx] at hrun

/-- A header read in fresh mode of as many bytes as its header announces, clamped, and at least 4. -/
theorem FramedReading.run_frame (r : FramedReading s i) (hx : s.xfIdx = 0) (hrlen : (poolAt s i).rlen = 4)
    (hcount : s.rcount = 0) (hfresh : ¬(b1.getLsbD 7 = true ∧ s.rxCur ≠ 0)) {rest : List Byte} {claimed : Nat}
    (hclaimed : (b1.toNat % 128) * 256 + b0.toNat = claimed)
    (htotal : (b0 :: b1 :: rest).length = max (clampLen s.cfg claimed) 4) :
    ∃ t, runOps ((b0 :: b1 :: rest).map .evRx) s = .next t ∧ FrameRead (b0 :: b1 :: rest) t
      ∧ runOutputs ((b0 :: b1 :: rest).map .evRx) s
        = List.replicate ((b0 :: b1 :: rest).length - 1) (outBus .ackRx) ++ [t.out]
      ∧ (s.cfg.rxcap < claimed → flagSet t.err .ovf = true) := by
  obtain ⟨u, hx0, ru, hout0, hcount0, hrlen0, hcfg0, hidx0, hh0, hcur0⟩ := r.exec_first hx hrlen hcount b0
  obtain ⟨v, hx1, rv, hout1, hcount1, hrlen1, hcfg1, c, hovf⟩ :=
    ru.exec_second hidx0 hrlen0 hcount0 (by rw [hcur0]; exact hfresh)
  rw [claimedLen_eq, hh0, hclaimed, hcfg0] at hrlen1 c hovf
  have hv := r.inv.cfgValid
  have hle := clampLen_le s.cfg claimed
  simp only [List.length_cons] at htotal
  obtain ⟨t, hrun, hread, houts⟩ := rv.run_bytes c (bs := rest) (List.ne_nil_of_length_pos (by omega)) hcount1
    (by rw [hrlen1]; simp only [List.length_cons, List.length_nil]; omega)
    (by simp only [List.length_cons, List.length_nil]; omega)
    (by rw [hcfg1, hcfg0]; simp only [List.length_cons, List.length_nil]; omega)
  have hlen : (b0 :: b1 :: rest).length - 1 = rest.length - 1 + 1 + 1 := by simp only [List.length_cons]; omega
  refine ⟨t, ?_, hread, ?_, fun hover => flagSet_runOps hrun (hovf hover)⟩
  · rw [List.map_cons, List.map_cons, runOps_cons hx0, runOps_cons hx1, hrun]
  · rw [List.map_cons, List.map_cons, runOutputs_cons hx0, runOutputs_cons hx1, houts, hout0, hout1, hlen]
    rfl

/-- What is observed of a read that delivers its frame with its last byte (R83). -/
theorem FrameRead.observation (hread : FrameRead l t) (m : Nat) :
    observation (List.replicate m (outBus .ackRx) ++ [t.out])
      = { bus := List.replicate m .ackRx ++ [.nackStop], responses := [], frames := [frameOf l] } := by
  simp [Machine.observation, hread.bc, hread.resp, hread.frame, outBus, Output.quiet]

/-- A header read of as many bytes as its header announces, clamped, and at least 4: the run and what is observed of it. -/
theorem FramedReading.run_announced (r : FramedReading s i) (hx : s.xfIdx = 0) (hrlen : (poolAt s i).rlen = 4)
    (hcount : s.rcount = 0) {f : List Byte} {len flag : Nat} (hlen : len < 32768)
    (hflag : flag = 0 ∨ (flag = 128 ∧ s.rxCur = 0))
    (htake : f.take 2 = [BitVec.ofNat 8 len, BitVec.ofNat 8 (len / 256 + flag)])
    (htotal : f.length = max (clampLen s.cfg len) 4) :
    (∃ t, runOps (f.map .evRx) s = .next t ∧ FrameRead f t ∧ (s.cfg.rxcap < len → flagSet t.err .ovf = true))
    ∧ observeOps (f.map .evRx) s
      = { bus := List.replicate (f.length - 1) .ackRx ++ [.nackStop], responses := [], frames := [frameOf f] } := by
  obtain ⟨rest, rfl⟩ := exists_of_take_two htake
  obtain ⟨hannounced, hcont⟩ := headerBytes_eq hlen (hflag.imp_right And.left)
  have hfresh : ¬((BitVec.ofNat 8 (len / 256 + flag)).getLsbD 7 = true ∧ s.rxCur ≠ 0) := fun ⟨h, hne⟩ =>
    hflag.elim (fun h0 => absurd (hcont.1 h) (by omega)) fun h1 => hne h1.2
  obtain ⟨t, hrun, hread, houts, hovf⟩ := r.run_frame hx hrlen hcount hfresh hannounced htotal
  exact ⟨⟨t, hrun, hread, hovf⟩, by rw [observeOps, houts, hread.observation]⟩

/-- Settles O58: up to `RXCAP` the length is not clamped. -/
theorem headerReadDeliversFrame : Obligations.HeaderReadDeliversFrame := by
  intro s i f len flag h hst hsub ha hrlen hcount hk hx hcap hlen hflag htake
  have r : FramedReading s i := ⟨h, hst, hsub, ha, hk⟩
  have hv := h.cfgValid
  obtain ⟨⟨t, hrun, hread, -⟩, hobs⟩ := r.run_announced hx hrlen hcount (by omega) hflag htake
    (by rw [clampLen_of_le hcap, hlen])
  exact ⟨⟨t, hrun, hread.stage, hread.rcount, hread.delivered.awaiting, hread.delivered.rxCur, hread.xfIdx⟩, hobs⟩

/-- Settles O59: above `RXCAP` the length is clamped to `RXCAP - 1`, and the flag that byte 1 raises stays. -/
theorem overlongFrameIsTruncated : Obligations.OverlongFrameIsTruncated := by
  intro s i f len flag h hst hsub ha hrlen hcount hk hx hover hlt hlen hflag htake
  have r : FramedReading s i := ⟨h, hst, hsub, ha, hk⟩
  have hv := h.cfgValid
  obtain ⟨⟨t, hrun, hread, hovf⟩, hobs⟩ := r.run_announced hx hrlen hcount hlt hflag htake
    (by rw [clampLen, if_pos hover, hlen]; omega)
  exact ⟨⟨t, hrun, hread.stage, hread.rcount.trans hlen, hovf hover, hread.delivered.awaiting, hread.delivered.rxCur,
    hread.xfIdx⟩, hobs⟩

end Sys2Proof.Machine

/-! ## The system commands

`NOP`, `STATUS`, `RESET` and the reserved opcodes (43_host_system_ops.md R250 to R253): the meaning of each, and the fields
of the status word. -/

namespace Sys2Proof

variable {m n : Nat}

/-- A field above the low part of a word is a field of the high part. -/
theorem extract_above (x : BitVec m) (y : BitVec n) (start len : Nat) :
    (x ++ y).extractLsb' (n + start) len = x.extractLsb' start len := by
  rw [BitVec.extractLsb'_append_eq_of_le (Nat.le_add_right n start), Nat.add_sub_cancel_left]

/-- A bit of a word, read from the field that holds it. -/
theorem getLsbD_of_field {w : BitVec n} {x : BitVec m} {start k : Nat} (h : w.extractLsb' start m = x) (hk : k < m) :
    w.getLsbD (start + k) = x.getLsbD k := by
  rw [← h, BitVec.getLsbD_extractLsb', decide_eq_true hk, Bool.true_and]

end Sys2Proof

namespace Sys2Proof.Machine

/-! ### The meanings -/

theorem exec_nop (s : State) : exec .nop s = .next s.beginStep := rfl

theorem exec_status (s : State) : exec .status s = .next { s with out := outResp (.word (statusWord s)) } := rfl

theorem exec_reset (s : State) :
    exec .reset s = .next { State.resetWith s.cfg with inbox := s.inbox, sinkAnswers := s.sinkAnswers } := rfl

theorem exec_hcReserved (op : Byte) (s : State) : exec (.hcReserved op) s = .next (s.beginStep.raise .desc) := rfl

/-! ### The fields of the status word (R116)

The offsets of a proof are the field's position above each lower field in turn. -/

theorem statusWord_stage (s : State) : (statusWord s).extractLsb' 0 3 = stageCode s.stage := extract_low _ _

theorem statusWord_sub (s : State) : (statusWord s).extractLsb' 3 2 = subCode s.sub := by
  rw [statusWord, extract_above _ _ 0, extract_low]

theorem statusWord_active (s : State) : (statusWord s).extractLsb' 5 1 = BitVec.ofBool s.active.isSome := by
  rw [statusWord, extract_above _ _ 2, extract_above _ _ 0, extract_low]

theorem statusWord_awaiting (s : State) : (statusWord s).extractLsb' 6 1 = BitVec.ofBool s.awaiting := by
  rw [statusWord, extract_above _ _ 3, extract_above _ _ 1, extract_above _ _ 0, extract_low]

theorem statusWord_reserved (s : State) : (statusWord s).extractLsb' 7 1 = 0#1 := by
  rw [statusWord, extract_above _ _ 4, extract_above _ _ 2, extract_above _ _ 1, extract_above _ _ 0, extract_low]

theorem statusWord_err (s : State) : (statusWord s).extractLsb' 8 8 = errRead s.err := by
  rw [statusWord, extract_above _ _ 5, extract_above _ _ 3, extract_above _ _ 2, extract_above _ _ 1, extract_above _ _ 0,
    extract_low]

theorem statusWord_qCount (s : State) : (statusWord s).extractLsb' 16 16 = zext16 s.qCount := by
  rw [statusWord, extract_above _ _ 13, extract_above _ _ 11, extract_above _ _ 10, extract_above _ _ 9, extract_above _ _ 8,
    extract_high]

/-! ### The error flags as they are read (R47) -/

theorem errCode_lt (k : ErrKind) : errCode k < 7 := by
  cases k <;> decide

/-- The mask keeps every flag. -/
theorem errRead_flag (e : BitVec 8) (k : ErrKind) : (errRead e).getLsbD (errCode k) = flagSet e k := by
  cases k <;> simp [errRead, flagSet, errCode]

theorem errRead_bit7 (e : BitVec 8) : (errRead e).getLsbD 7 = false := by
  simp [errRead]

/-! ### The statements -/

/-- Settles O1. -/
theorem nopChangesNothing : Obligations.NopChangesNothing := ⟨rfl, exec_nop⟩

/-- Settles O2: the word is `statusWord`, and each clause is read from the field that holds it. -/
theorem statusReportsState : Obligations.StatusReportsState := by
  refine ⟨rfl, fun s => ⟨statusWord s, exec_status s, fun hcount => ?_, fun k => ?_, ?_, ?_, ?_, ?_, statusWord_sub s,
    statusWord_stage s⟩⟩
  · rw [statusWord_qCount, zext16_toNat hcount]
  · rw [getLsbD_of_field (statusWord_err s) ((errCode_lt k).trans (by decide)), errRead_flag]
  · exact (getLsbD_of_field (statusWord_err s) (k := 7) (by decide)).trans (errRead_bit7 s.err)
  · exact getLsbD_of_field (statusWord_reserved s) (k := 0) Nat.one_pos
  · exact (getLsbD_of_field (statusWord_awaiting s) Nat.one_pos).trans (BitVec.getLsbD_ofBool s.awaiting 0)
  · exact (getLsbD_of_field (statusWord_active s) Nat.one_pos).trans (BitVec.getLsbD_ofBool s.active.isSome 0)

/-- Settles O4: no reset value of R50 is about the fields that stay. -/
theorem resetRestoresEveryField : Obligations.ResetRestoresEveryField :=
  ⟨rfl, fun s => ⟨_, exec_reset s, { isReset_resetWith s.cfg with }, rfl, rfl, rfl, rfl⟩⟩

/-- Settles O6: the opcode has no row of its own, and bit 6 of `err` is Desc's. -/
theorem reservedOpcodeRaisesDesc : Obligations.ReservedOpcodeRaisesDesc :=
  fun op rest hop => ⟨decodeHc_reserved hop rest, exec_hcReserved op⟩

end Sys2Proof.Machine
